-- ==== Sys2Proof/Word.lean ====
section
/-!
DEFINITION. The word type of the FXM64 core: every register holds a 64-bit pattern (R9, R15), read as a
two's-complement integer with `BitVec.toInt` (the spec's `s64`) and as an unsigned one with `BitVec.toNat` (`u64`).
-/

namespace Sys2Proof

/-- A 64-bit register pattern: a raw value of the Q32.32 format (R9, R15). -/
abbrev Word := BitVec 64

/-- One byte of the host's view of a register (R67). -/
abbrev Byte := BitVec 8

end Sys2Proof
end

