-- ==== Sys2Proof/Syntax.lean ====
section
/-!
DEFINITION. The syntax of the FXM64 core: its commands (R91: one constructor for each row of the opcode table, none
with an operand, since a command word holds an opcode and nothing else, R90, R94), and the inputs that reach the core's
port from outside (R61 to R66, R77, R290).
-/

namespace Sys2Proof

/-- The 40 commands of R91, in the order of the opcode map. Operands are the registers OPA and OPB (R90), so no
constructor has an argument. -/
inductive Instr where
  | add      -- 0x01, R111
  | sub      -- 0x02, R112
  | neg      -- 0x03, R114
  | fneg     -- 0x04, R115
  | abs      -- 0x05, R116
  | fabs     -- 0x06, R117
  | inc      -- 0x07, R118
  | dec      -- 0x08, R119
  | sign     -- 0x09, R120
  | floor    -- 0x0A, R121
  | ceil     -- 0x0B, R122
  | round    -- 0x0C, R123
  | shl      -- 0x0D, R124
  | shr      -- 0x0E, R125
  | fromint  -- 0x0F, R126
  | toint    -- 0x10, R127
  | cmplt    -- 0x11, R128
  | cmple    -- 0x12, R129
  | cmpgt    -- 0x13, R130
  | cmpge    -- 0x14, R131
  | cmpeq    -- 0x15, R132
  | cmpne    -- 0x16, R133
  | mul      -- 0x20, R170
  | div      -- 0x28, R180
  | mod      -- 0x29, R183
  | sqrt     -- 0x30, R195
  | sin      -- 0x38, R209
  | cos      -- 0x39, R210
  | tan      -- 0x3A, R211
  | sinp     -- 0x40, R220
  | fsin     -- 0x41, R221
  | fcos     -- 0x42, R222
  | atan2    -- 0x48, R240
  | atan     -- 0x49, R244
  | asin     -- 0x4A, R245
  | acos     -- 0x4B, R246
  | log2     -- 0x50, R250
  | ln       -- 0x51, R251
  | pow2     -- 0x52, R252
  | pow      -- 0x53, R253
deriving DecidableEq, Repr

/-- What reaches the core's port from outside, one at a time in arrival order (R69). Offsets are byte offsets from
`BASE`, widths are in bytes (R61, R65). -/
inductive Input where
  /-- `MemRead(BASE + offset, width)` (R17, R61). -/
  | read (offset width : Nat)
  /-- `MemWrite(BASE + offset, width, data)` (R17, R61). -/
  | write (offset width : Nat) (data : Word)
  /-- A bus atomic access to the register block, where the bus has one (R77). -/
  | atomic (offset width : Nat)
  /-- The platform's reset event (R290, R294). -/
  | reset
deriving DecidableEq, Repr

end Sys2Proof
end

