-- ==== Sys2Proof/Config.lean ====
section
/-!
DEFINITION. What an implementation of the core fixes (R10): the parameters, as plain data that a state carries and no
step changes, and the values the spec leaves open, as constants with no body.
-/

namespace Sys2Proof

/-- One slot of the atan cache (R41): a valid bit, the two operands that produced the angle, and the raw angle. -/
structure CacheSlot where
  valid : Bool
  keyY  : Word
  keyX  : Word
  value : Word
deriving DecidableEq, Repr

/-- The atan cache as plain data: (slot index, slot) pairs, in the canonical form of `Machine.cacheWf`. A slot that is
not listed is `CacheSlot.blank`. -/
abbrev Cache := List (Nat × CacheSlot)

/-- The result of ASIN outside [-One, One] (R10 `ASIN_DOMAIN_POLICY`, R245). -/
inductive AsinDomainPolicy where
  | zero
  | raise
deriving DecidableEq, Repr

/-- The slot index function (R10 `ATAN_HASH`): the default XOR-fold of R241, or any other function (R241: "Any function
into [0, ATAN_CACHE_SLOTS) is allowed"), which `Config.otherHash` leaves open. -/
inductive AtanHash where
  | xorFold
  | other (id : Nat)
deriving DecidableEq, Repr

/-- The content of the sine table (R10 `SIN_LUT`, R19): one supplied from outside, which `Config.externalSine` leaves
open but for R19's two requirements, or the content R19 recommends. -/
inductive SineTable where
  | external (id : Nat)
  | recommended
deriving DecidableEq, Repr

/-- The implementation parameters of R10 that a model takes as arguments. `LUT_LEN` follows from `lutShift`. -/
structure Config where
  /-- `LUT_SHIFT`, the right shift from reduced angle to table index. -/
  lutShift       : Nat
  /-- `SIN_LUT`, which table. -/
  sineTable      : SineTable
  /-- `ATAN_CACHE_SLOTS`, a power of two, or 0 for no cache. -/
  atanCacheSlots : Nat
  /-- `ATAN_HASH`. -/
  atanHash       : AtanHash
  /-- `ASIN_DOMAIN_POLICY`. -/
  asinPolicy     : AsinDomainPolicy
deriving DecidableEq, Repr

/-- The parameters at the values and defaults of R10. `SIN_LUT` is OPEN there: some table from outside. -/
def Config.default : Config where
  lutShift       := 0
  sineTable      := .external 0
  atanCacheSlots := 4096
  atanHash       := .xorFold
  asinPolicy     := .zero

/-- FREE VALUE: entry `i` of the external sine table `id` at table shift `shift` (R19: a value in `[0, ONE_RAW]`;
entry 0, which R19 fixes at 0, is never taken from here). -/
opaque Config.externalSine (id shift i : Nat) : Fin (2 ^ 32 + 1)

/-- FREE VALUE: a slot index function other than the default one (R241). -/
opaque Config.otherHash (id : Nat) (y x : Word) : Nat

/-- FREE VALUE: the cycles of a command beyond its first (R300 `LATENCY(opc, a, b, cache) >= 1`). The last argument
counts accepted commands, so that nothing ties the latency of one command to that of an equal one. -/
opaque Config.extraLatency (w a b : Word) (cache : Cache) (issued : Nat) : Nat

/-- FREE VALUE: `BASE` in units of 64 bytes (R61: a parameter, 64-byte aligned, left to the platform). -/
opaque Config.baseBlock : Nat

/-- `BASE`, the host address of the register block (R10, R61). -/
def Config.base : Nat := 64 * Config.baseBlock

end Sys2Proof
end

