-- ==== Sys2Proof/WellFormed.lean ====
section
/-!
DEFINITION. Well-formedness of what the model is given: a command, a host access, a configuration.
-/

namespace Sys2Proof

/-- A command has no operand field (R90, R94), so every term of `Instr` is well formed. What can be wrong about a
command is its word: `wordWf` in `Sys2Proof.Decode`. -/
def Instr.wf (_ : Instr) : Bool := true

/-- A host access is legal when it is a read or a write, 8 bytes wide, at a multiple of 8 and at a mapped offset, below
0x30 (R65, R66, R77). The reset event is no access and has nothing to check. -/
def Input.wf : Input → Bool
  | .read offset width    => width == 8 && offset % 8 == 0 && decide (offset < 0x30)
  | .write offset width _ => width == 8 && offset % 8 == 0 && decide (offset < 0x30)
  | .atomic _ _           => false
  | .reset                => true

/-- `ATAN_CACHE_SLOTS` is a power of two, or 0 for no cache (R10); `LUT_SHIFT` leaves the table at least one entry (R19
requirement 2 speaks of entry 0; a longer shift empties `[0, LUT_LEN)`, R10). -/
def Config.wf (c : Config) : Bool :=
  (c.atanCacheSlots == 0 || c.atanCacheSlots == 2 ^ c.atanCacheSlots.log2) && decide (c.lutShift ≤ 32)

end Sys2Proof
end

