-- ==== Sys2Proof/Decode.lean ====
section
/-!
DEFINITION. Decoding of command words (R90, R91, R95 to R97), total on every word and on any bytes, rejecting by name;
and the encoder, written from the same table.
-/

namespace Sys2Proof

/-- Why something that was fetched is no command. Both reasons about a word are ILLEGAL to the core (R97). -/
inductive DecodeError where
  /-- Fewer than eight bytes: not a whole command word (R90: one fixed length). -/
  | truncated
  /-- `w[63:8]` is not 0 (R96). -/
  | reservedBits
  /-- `w[7:0]` is none of the 40 opcodes of R91 (R95). -/
  | unassignedOpcode
deriving DecidableEq, Repr

/-- The OPC field of a command word (R90: bits 7:0). -/
def opcField (w : Word) : Nat := w.toNat % 0x100

/-- The reserved field of a command word (R90: bits 63:8). -/
def rsvField (w : Word) : Nat := w.toNat / 0x100

/-- The opcode map of R91: the opcode of each command. -/
def opcodeMap : List (Nat × Instr) :=
  [ (0x01, .add), (0x02, .sub), (0x03, .neg), (0x04, .fneg), (0x05, .abs), (0x06, .fabs), (0x07, .inc), (0x08, .dec),
    (0x09, .sign), (0x0A, .floor), (0x0B, .ceil), (0x0C, .round), (0x0D, .shl), (0x0E, .shr), (0x0F, .fromint),
    (0x10, .toint), (0x11, .cmplt), (0x12, .cmple), (0x13, .cmpgt), (0x14, .cmpge), (0x15, .cmpeq), (0x16, .cmpne) ]
  ++ [ (0x20, .mul), (0x28, .div), (0x29, .mod), (0x30, .sqrt), (0x38, .sin), (0x39, .cos), (0x3A, .tan),
    (0x40, .sinp), (0x41, .fsin), (0x42, .fcos), (0x48, .atan2), (0x49, .atan), (0x4A, .asin), (0x4B, .acos),
    (0x50, .log2), (0x51, .ln), (0x52, .pow2), (0x53, .pow) ]

/-- R97: the check of the reserved bits first, then the opcode. -/
def decode (w : Word) : Except DecodeError Instr :=
  if rsvField w = 0 then
    match opcodeMap.lookup (opcField w) with
    | some i => .ok i
    | none   => .error .unassignedOpcode
  else .error .reservedBits

/-- The word whose byte `k` is bits `8k+7 : 8k` (R67), from its bytes, lowest address first. -/
def wordOfBytes : List Byte → Nat
  | []      => 0
  | b :: bs => b.toNat + 0x100 * wordOfBytes bs

/-- The first `n` bytes of a number, lowest address first (R67: little-endian). -/
def bytesOfNat : Nat → Nat → List Byte
  | 0,     _ => []
  | n + 1, v => BitVec.ofNat 8 v :: bytesOfNat n (v / 0x100)

/-- Decoding of any bytes: the command is the little-endian word of the first eight; the rest is left over. -/
def decodeBytes (bs : List Byte) : Except DecodeError (Instr × List Byte) :=
  if bs.length < 8 then .error .truncated
  else match decode (BitVec.ofNat 64 (wordOfBytes (bs.take 8))) with
    | .ok i    => .ok (i, bs.drop 8)
    | .error e => .error e

/-- The bytes of an instruction whose bits are `w`, as the hardware holds them: the table's `nbits` bits, zeros above
them, up to the one fixed length of 64 bits (R90). -/
def tableBytes (nbits w : Nat) : List Byte := bytesOfNat 8 (w % 2 ^ nbits)

/-- The instruction the decoder reads from an instruction whose bits are `w`, numbered as the opcode table numbers
them. -/
def decodeTableWord (nbits w : Nat) : Option Instr :=
  match decodeBytes (tableBytes nbits w) with
  | .ok (i, _) => some i
  | .error _   => none

/-- A command word is well formed when the core would not answer ILLEGAL_OPCODE for it (R96). -/
def wordWf (w : Word) : Bool :=
  match decode w with
  | .ok _    => true
  | .error _ => false

/-- The opcode of a command (R91). -/
def opcodeOf : Instr → Nat
  | .add => 0x01 | .sub => 0x02 | .neg => 0x03 | .fneg => 0x04 | .abs => 0x05 | .fabs => 0x06 | .inc => 0x07
  | .dec => 0x08 | .sign => 0x09 | .floor => 0x0A | .ceil => 0x0B | .round => 0x0C | .shl => 0x0D | .shr => 0x0E
  | .fromint => 0x0F | .toint => 0x10 | .cmplt => 0x11 | .cmple => 0x12 | .cmpgt => 0x13 | .cmpge => 0x14
  | .cmpeq => 0x15 | .cmpne => 0x16
  | .mul => 0x20
  | .div => 0x28 | .mod => 0x29
  | .sqrt => 0x30
  | .sin => 0x38 | .cos => 0x39 | .tan => 0x3A
  | .sinp => 0x40 | .fsin => 0x41 | .fcos => 0x42
  | .atan2 => 0x48 | .atan => 0x49 | .asin => 0x4A | .acos => 0x4B
  | .log2 => 0x50 | .ln => 0x51 | .pow2 => 0x52 | .pow => 0x53

/-- The command word of a command: its opcode in bits 7:0 and 0 in bits 63:8 (R90). -/
def encode (i : Instr) : Word := BitVec.ofNat 64 (opcodeOf i)

/-- The bytes of a command word, lowest address first (R67). -/
def encodeBytes (i : Instr) : List Byte := bytesOfNat 8 (encode i).toNat

end Sys2Proof
end

