-- ==== Sys2Proof/Machine/State.lean ====
section
/-!
DEFINITION. The machine's state as plain data (R30 to R48), the reasons a step can stop, and the state after reset
(R291).
-/

namespace Sys2Proof.Machine

/-- The typed errors of a command (R271, codes 1 to 4). An error is reported in STATUS.ERR; the core does not stop. -/
inductive CommandError where
  | divByZero
  | negSqrtArg
  | outOfDomain
  | illegalOpcode
deriving DecidableEq, Repr

/-- The bus errors (R65, R66, R77, R79): the only way a step stops. The core's state is unchanged by the access, and
"a model of a host access returns a fault for it" (R79). Each is SAFE: the spec asks for the fault. -/
inductive Fault where
  /-- Raised by an access that is not 8 bytes wide (R65). Safe. -/
  | busWidth (offset width : Nat)
  /-- Raised by an access at an offset that is not a multiple of 8 (R65). Safe. -/
  | busMisaligned (offset : Nat)
  /-- Raised by an aligned 8-byte access at an offset the register map does not list, 0x30 and above (R66). Safe. -/
  | busUnmapped (offset : Nat)
  /-- Raised by a bus atomic access to the register block (R77). Safe. -/
  | busAtomic (offset : Nat)
deriving DecidableEq, Repr

/-- What the model does not give a meaning to. No arm of `exec` raises it: every command is modelled. -/
inductive Refusal where
  /-- Raised by an arm of `exec` that has no meaning yet; none is left. Safe. -/
  | notModelled (mnemonic : String)
deriving DecidableEq, Repr

/-- The pending command of R40: the accepted command word and the snapshots of OPA and OPB. -/
structure Pending where
  w : Word
  a : Word
  b : Word
deriving DecidableEq, Repr

/-- What the bus answers to an access that completes: the data of a read, or the completion of a write. -/
inductive Reply where
  | data (v : Word)
  | done
deriving DecidableEq, Repr

/-- The state of the core (R30, R48), the configuration it was built with (R10), and the model's own fields for what
reaches the port and for the open timing of R300. -/
structure State where
  /-- OPA, the first operand register (R31). -/
  opa     : Word
  /-- OPB, the second operand register (R32). -/
  opb     : Word
  /-- RES, the result register (R34). -/
  res     : Word
  /-- STATUS.BUSY (R36). -/
  busy    : Bool
  /-- STATUS.ERR, a 3-bit field (R35, R37). -/
  err     : BitVec 3
  /-- The pending command, `some` while BUSY is 1 (R40, R48). -/
  pend    : Option Pending
  /-- The atan cache (R41), in the canonical form `cacheWf`. -/
  cache   : Cache
  /-- The implementation parameters (R10). No step changes them. -/
  cfg     : Config
  /-- The model's own: cycles left before the pending command's completion step is enabled (R300). -/
  wait    : Nat
  /-- The model's own: a host access has taken effect since the last command was accepted, without which its completion
  step is not enabled (R300). -/
  accessed : Bool
  /-- The model's own: how many commands have been accepted, the index of the next free latency (R300). -/
  issued  : Nat
  /-- The model's own: the inputs that have not reached the port yet, in arrival order (R69, R70). -/
  inbox   : List Input
  /-- The model's own: what the bus has answered, oldest first. -/
  replies : List Reply
deriving DecidableEq, Repr

/-- The state right after reset (R291), with the parameters of R10 at their defaults and nothing at the port. -/
def State.reset : State where
  opa     := 0
  opb     := 0
  res     := 0
  busy    := false
  err     := 0
  pend    := none
  cache   := []
  cfg     := Config.default
  wait    := 0
  accessed := false
  issued  := 0
  inbox   := []
  replies := []

/-- The outcome of a step of this machine. -/
abbrev Outcome := Host.Outcome State Fault Refusal

end Sys2Proof.Machine
end

