-- ==== Sys2Proof/Machine/Prims.lean ====
section
/-!
DEFINITION. The integer primitives of R16 and the raw constants of R11 and R13.
-/

namespace Sys2Proof.Machine

/-- `MAX_RAW = 2^63 - 1` (R11). -/
def maxInt : Int := 2 ^ 63 - 1

/-- `MIN_RAW = -2^63` (R11). -/
def minInt : Int := -2 ^ 63

/-- `sat64` (R16). -/
def sat64 (n : Int) : Int := if n > maxInt then maxInt else if n < minInt then minInt else n

/-- `wrap64` (R16): the integer in [-2^63, 2^63-1] congruent to `n` modulo 2^64. -/
def wrap64 (n : Int) : Int := (n + 2 ^ 63) % 2 ^ 64 - 2 ^ 63

/-- A register pattern that holds `sat64 n`. -/
def satWord (n : Int) : Word := BitVec.ofInt 64 (sat64 n)

/-- A register pattern that holds `wrap64 n`. -/
def wrapWord (n : Int) : Word := BitVec.ofInt 64 (wrap64 n)

/-- `n >> k`, the arithmetic right shift `floor_div(n, 2^k)` (R16). -/
def shiftRightFloor (n : Int) (k : Nat) : Int := n.fdiv (2 ^ k)

/-- `msb(n)` for `n > 0`: the index of the highest set bit (R16). -/
def msb (n : Nat) : Nat := n.log2

/-- `MAX_RAW` as a register pattern (R11). -/
def maxRaw : Word := 0x7FFFFFFFFFFFFFFF#64

/-- `MIN_RAW` as a register pattern (R11). -/
def minRaw : Word := 0x8000000000000000#64

/-- `ZERO_RAW` (R11). -/
def zeroRaw : Word := 0#64

/-- `ONE_RAW = 1 << 32` (R11). -/
def oneRaw : Word := 0x0000000100000000#64

/-- `PRECISION_RAW`, one ULP (R11). -/
def precisionRaw : Word := 1#64

/-- `PI_RAW` (R13). -/
def piRaw : Word := 0x00000003243F6A88#64

/-- `PI_OVER_2_RAW` (R13). -/
def piOver2Raw : Word := 0x00000001921FB544#64

/-- `PI_TIMES_2_RAW` (R13). -/
def piTimes2Raw : Word := 0x00000006487ED511#64

/-- `E_RAW`, a named constant that no command uses (R13). -/
def eRaw : Word := 0x00000002B7E15162#64

/-- `LN2_RAW` (R13). -/
def ln2Raw : Word := 0x00000000B17217F7#64

/-- `PI_OVER_4_RAW` (R13). -/
def piOver4Raw : Word := 0x00000000C90FDAA2#64

/-- `THREE_PI_OVER_4_RAW` (R13). -/
def threePiOver4Raw : Word := 0x000000025B2F8FE6#64

/-- `SINP_B_RAW`, 4/pi (R13). -/
def sinpBRaw : Word := 0x0000000145F306DC#64

/-- `SINP_C_RAW`, 4/pi^2 (R13). -/
def sinpCRaw : Word := 0x0000000067C0BD88#64

/-- `SINP_K_RAW`, 0.225 (R13). -/
def sinpKRaw : Word := 0x0000000039999999#64

/-- `ATAN_C3_RAW`, 0.1963 (R13). -/
def atanC3Raw : Word := 0x000000003240B780#64

/-- `ATAN_C1_RAW = ATAN_C3_RAW + PI_OVER_4_RAW` (R13). -/
def atanC1Raw : Word := 0x00000000FB509222#64

end Sys2Proof.Machine
end

