-- ==== Sys2Proof/Machine/Flags.lean ====
section
/-!
DEFINITION. The only status a command has, the STATUS register (R35, R43), the error codes (R271), and the overflow
tests of the saturating adder and subtractor (R111, R112). The core has no other flag (R43).
-/

namespace Sys2Proof.Machine

/-- The code of an error in STATUS.ERR (R271). -/
def CommandError.code : CommandError → BitVec 3
  | .divByZero     => 1#3
  | .negSqrtArg    => 2#3
  | .outOfDomain   => 3#3
  | .illegalOpcode => 4#3

/-- The code NONE of a successful command (R271). -/
def errNone : BitVec 3 := 0#3

/-- The STATUS register as a host reads it (R35): BUSY in bit 0, ERR in bits 3:1, bits 63:4 hardwired 0. -/
def statusWord (s : State) : Word := 0#60 ++ (s.err ++ BitVec.ofBool s.busy)

/-- R111: the operands share a sign and the sum's sign differs from theirs. -/
def addOverflows (a b sum : Word) : Bool := ((~~~(a ^^^ b)) &&& (a ^^^ sum)).getLsbD 63

/-- R112: the operands' signs differ and the difference's sign differs from the minuend's. -/
def subOverflows (a b diff : Word) : Bool := ((a ^^^ b) &&& (a ^^^ diff)).getLsbD 63

end Sys2Proof.Machine
end

