-- ==== Sys2Proof/Machine/Operands.lean ====
section
/-!
DEFINITION. The operands of a command: the snapshots of OPA and OPB taken at acceptance (R40, R46, R62), and the parts
of an operand that a rule reads (R94, R121 to R125).
-/

namespace Sys2Proof.Machine

/-- The first operand `a` of the command in flight (R40). In a state with no command in flight, which no step runs a
command in, it is OPA itself, of which the snapshot is a copy. -/
def operandA (s : State) : Word :=
  match s.pend with
  | some p => p.a
  | none   => s.opa

/-- The second operand `b` of the command in flight (R40), as `operandA`. -/
def operandB (s : State) : Word :=
  match s.pend with
  | some p => p.b
  | none   => s.opb

/-- The shift count `b[5:0]` of SHL and SHR (R124, R125). -/
def shiftCount (b : Word) : Nat := (b.extractLsb' 0 6).toNat

/-- The fractional part `a[31:0]` of a raw value, unsigned (R122, R123, R252). -/
def fracPart (a : Word) : Nat := (a.extractLsb' 0 32).toNat

/-- The integer part `a >> 32` of a raw value, toward minus infinity (R127, R252). -/
def intPart (a : Word) : Int := (a.sshiftRight 32).toInt

end Sys2Proof.Machine
end

