-- ==== Sys2Proof/Machine/Ops.lean ====
section
/-!
DEFINITION. The shared operations on the state: ending a command with a result or with an error (R45, R272), accepting a
command (R62), the atan cache (R75, R241, R242), the sine table (R72, R19) and reset (R290, R294). The core takes no
trap (R279): ending a command with an error is what stands in place of exception entry, and there is nothing to return
from (R280).
-/

namespace Sys2Proof.Machine

/-- R45, first case: a command that returns `v` writes RES and clears ERR and BUSY. -/
def finishOk (s : State) (v : Word) : State :=
  { s with res := v, err := errNone, busy := false, pend := none }

/-- R45, second case, and R272: a command that raises an error writes its code to ERR and clears BUSY, nothing else. -/
def finishError (s : State) (e : CommandError) : State :=
  { s with err := e.code, busy := false, pend := none }

/-- R45 for a command that does not touch the atan cache. -/
def finish (s : State) (r : Except CommandError Word) : Outcome :=
  match r with
  | .ok v    => .next (finishOk s v)
  | .error e => .next (finishError s e)

/-- R45 for a command that goes through ATAN2: the cache it leaves is kept on success only (R272). -/
def finishCached (s : State) (r : Except CommandError (Word × Cache)) : Outcome :=
  match r with
  | .ok (v, c) => .next { finishOk s v with cache := c }
  | .error e   => .next (finishError s e)

/-- The cycles before the completion step of an accepted command is enabled: `LATENCY(opc, a, b, cache) >= 1` (R300),
open beyond that. -/
def latency (s : State) (w : Word) : Nat := 1 + Config.extraLatency w s.opa s.opb s.cache s.issued

/-- R62: the core takes a command word in, with the operands' snapshots, and sets BUSY. ERR and RES keep their values. No
host access has come after it yet (R300). -/
def acceptCommand (s : State) (w : Word) : State :=
  { s with
    pend := some ⟨w, s.opa, s.opb⟩
    busy := true
    wait := latency s w
    accessed := false
    issued := s.issued + 1 }

/-- R290, R291, R294: every piece of core state at its reset value at once, a pending command dropped. The parameters,
the table among them, are unchanged (R291), and what has not reached the port yet still stands there. -/
def resetEvent (s : State) : State :=
  { State.reset with cfg := s.cfg, issued := s.issued, inbox := s.inbox, replies := s.replies }

/-! ### The atan cache -/

/-- A slot no command has written since reset: invalid (R41). Its unspecified fields are 0 (R291: "a model may give them
any value"); no rule reads them while `valid` is 0. -/
def CacheSlot.blank : CacheSlot := ⟨false, 0, 0, 0⟩

/-- The canonical form of a cache: slot indices strictly rising, and no entry equal to what an unlisted slot holds. -/
def cacheWf (c : Cache) : Bool :=
  decide (c.Pairwise fun e f => e.1 < f.1) && c.all fun e => e.2 != CacheSlot.blank

/-- `CacheRead(i)`: the whole slot (R75). -/
def cacheRead : Cache → Nat → CacheSlot
  | [],            _ => CacheSlot.blank
  | (j, sl) :: c,  i => if i = j then sl else cacheRead c i

/-- An entry in front of a cache whose indices are all greater, left out when it equals an unlisted slot. -/
def cacheCons (i : Nat) (sl : CacheSlot) (c : Cache) : Cache :=
  if sl = CacheSlot.blank then c else (i, sl) :: c

/-- `CacheWrite(i, sl)`: all four fields of slot `i` at once (R75), keeping the canonical form. -/
def cacheWrite : Cache → Nat → CacheSlot → Cache
  | [],           i, sl => cacheCons i sl []
  | (j, sj) :: c, i, sl =>
    if i < j then cacheCons i sl ((j, sj) :: c)
    else if i = j then cacheCons i sl c
    else (j, sj) :: cacheWrite c i sl

/-- R242: every slot's valid bit cleared, its other fields as they were. -/
def cacheInvalidate : Cache → Cache
  | []           => []
  | (j, sj) :: c => cacheCons j { sj with valid := false } (cacheInvalidate c)

/-- The XOR-fold of R241 for `2^k` slots: the operands' XOR in `k`-bit chunks, XORed together. -/
def xorFold (k : Nat) (y x : Word) : Nat :=
  (List.range 64).foldl (fun h j => if j * k < 64 then h ^^^ ((y ^^^ x).toNat >>> (j * k)) % 2 ^ k else h) 0

/-- `ATAN_HASH(y, x)` (R241): a slot index below `ATAN_CACHE_SLOTS`, whatever function the configuration names. -/
def atanHash (cfg : Config) (y x : Word) : Nat :=
  match cfg.atanHash with
  | .xorFold  => xorFold cfg.atanCacheSlots.log2 y x
  | .other id => Config.otherHash id y x % cfg.atanCacheSlots

/-! ### The sine table -/

/-- `LUT_LEN = PI_OVER_2_RAW >> LUT_SHIFT` (R10). -/
def lutLen (cfg : Config) : Nat := piOver2Raw.toNat >>> cfg.lutShift

/-- The Taylor sum of sin, `n` terms from the term `t` of degree `d`, in units of 2^-128, at the angle `x` in units of
2^-32. -/
def sineTaylor (x : Int) : Nat → Nat → Int → Int
  | 0,     _, _ => 0
  | n + 1, d, t => t + sineTaylor x n (d + 2) ((-(t * x * x)).fdiv (2 ^ 64 * ((d + 1) * (d + 2) : Nat)))

/-- R19's recommended entry `floor(sin(i * 2^LUT_SHIFT / 2^32) * 2^32 + 1/2)`, from the sine to 2^-120. -/
def recommendedSine (shift i : Nat) : Nat :=
  ((sineTaylor (i * 2 ^ shift : Nat) 32 1 ((i * 2 ^ shift : Nat) * 2 ^ 96) + 2 ^ 95).fdiv (2 ^ 96)).toNat

/-- `SIN_LUT(i)` (R19): entry 0 is 0 and every entry is in `[0, ONE_RAW]`, whatever table the configuration names. -/
def sineEntry (cfg : Config) (i : Nat) : Nat :=
  if i = 0 then 0
  else match cfg.sineTable with
    | .external id => (Config.externalSine id cfg.lutShift i).val
    | .recommended => min (recommendedSine cfg.lutShift i) oneRaw.toNat

end Sys2Proof.Machine
end

