-- ==== Sys2Proof/Machine/Multiplier.lean ====
section
/-!
DEFINITION. The multiplier (41_multiplier.md): the value of MUL (R170), and the datapath of four partial products that
computes it without a double-width product (R171).
-/

namespace Sys2Proof.Machine

/-- MUL (R170): the exact product, rounded half up at bit 32, saturated. -/
def mulRaw (a b : Word) : Word := satWord (shiftRightFloor (a.toInt * b.toInt + 2 ^ 31) 32)

/-- The `q` of R171: the rounded quotient of the product by 2^32, from four 32 x 32-bit partial products. -/
def mulPartialSum (a b : Word) : Int :=
  let xlo : Int := fracPart a
  let xhi : Int := intPart a
  let ylo : Int := fracPart b
  let yhi : Int := intPart b
  let lolo := xlo * ylo
  let lohi := xlo * yhi
  let hilo := xhi * ylo
  let hihi := xhi * yhi
  hihi * 2 ^ 32 + lohi + hilo + shiftRightFloor lolo 32 + shiftRightFloor lolo 31 % 2

/-- The multiplier's datapath (R171). -/
def mulDatapath (a b : Word) : Word := satWord (mulPartialSum a b)

/-- MUL (R170). -/
def execMul (s : State) : Outcome := finish s (.ok (mulRaw (operandA s) (operandB s)))

end Sys2Proof.Machine
end

