-- ==== Sys2Proof/Machine/Alu.lean ====
section
/-!
DEFINITION. The ALU family (40_alu.md): the saturating adder and subtractor, negate and absolute value with their
unchecked siblings, the roundings, shifts, integer casts and compares. First the operations on raw values, which other
families call (R18), then the meaning of each command.
-/

namespace Sys2Proof.Machine

/-- ADD (R111): the wrapping sum, saturated by the operands' common sign when it overflows. -/
def addRaw (a b : Word) : Word :=
  let sum := a + b
  if addOverflows a b sum then (if a.toInt > 0 then maxRaw else minRaw) else sum

/-- SUB (R112): the wrapping difference, saturated by the minuend's sign when it overflows. -/
def subRaw (a b : Word) : Word :=
  let diff := a - b
  if subOverflows a b diff then (if a.toInt < 0 then minRaw else maxRaw) else diff

/-- NEG (R114). -/
def negRaw (a : Word) : Word := if a = minRaw then maxRaw else -a

/-- FNEG (R115): `wrap64(-a)`. -/
def fnegRaw (a : Word) : Word := wrapWord (-a.toInt)

/-- The mask `a >> 63`, 0 or -1 (R116, R117). -/
def signMask (a : Word) : Word := a.sshiftRight 63

/-- FABS (R117): the branchless absolute value, without the MIN_RAW case. -/
def fabsRaw (a : Word) : Word := (a + signMask a) ^^^ signMask a

/-- ABS (R116). -/
def absRaw (a : Word) : Word := if a = minRaw then maxRaw else (a + signMask a) ^^^ signMask a

/-- INC (R118). -/
def incRaw (a : Word) : Word := addRaw a oneRaw

/-- DEC (R119). -/
def decRaw (a : Word) : Word := subRaw a oneRaw

/-- SIGN (R120): a plain integer, not a Q32.32 value. -/
def signRaw (a : Word) : Word := if a.toInt < 0 then -1 else if a.toInt > 0 then 1 else 0

/-- FLOOR (R121): the 32 fractional bits cleared. -/
def floorRaw (a : Word) : Word := a &&& 0xFFFFFFFF00000000#64

/-- CEIL (R122). -/
def ceilRaw (a : Word) : Word := if fracPart a ≠ 0 then addRaw (floorRaw a) oneRaw else a

/-- ROUND (R123): to nearest, ties to the even integer. -/
def roundRaw (a : Word) : Word :=
  let f := fracPart a
  let i := floorRaw a
  if f < 0x80000000 then i
  else if f > 0x80000000 then addRaw i oneRaw
  else if i.getLsbD 32 = false then i else addRaw i oneRaw

/-- SHL (R124): the raw shift by `b[5:0]`, wrapping. -/
def shlRaw (a b : Word) : Word := wrapWord (a.toInt * 2 ^ shiftCount b)

/-- SHR (R125): the arithmetic raw shift by `b[5:0]`. -/
def shrRaw (a b : Word) : Word := a.sshiftRight (shiftCount b)

/-- FROMINT (R126): `wrap64(a * ONE_RAW)`, not saturating. -/
def fromintRaw (a : Word) : Word := wrapWord (a.toInt * oneRaw.toInt)

/-- TOINT (R127): `a >> 32`, sign-extended. -/
def tointRaw (a : Word) : Word := a.sshiftRight 32

/-- The result of a comparison: the plain integer 1 or 0 (R128). -/
def boolRaw (c : Bool) : Word := if c then 1 else 0

/-! ### Meanings -/

/-- ADD (R111). -/
def execAdd (s : State) : Outcome := finish s (.ok (addRaw (operandA s) (operandB s)))

/-- SUB (R112). -/
def execSub (s : State) : Outcome := finish s (.ok (subRaw (operandA s) (operandB s)))

/-- NEG (R114). -/
def execNeg (s : State) : Outcome := finish s (.ok (negRaw (operandA s)))

/-- FNEG (R115). -/
def execFneg (s : State) : Outcome := finish s (.ok (fnegRaw (operandA s)))

/-- ABS (R116). -/
def execAbs (s : State) : Outcome := finish s (.ok (absRaw (operandA s)))

/-- FABS (R117). -/
def execFabs (s : State) : Outcome := finish s (.ok (fabsRaw (operandA s)))

/-- INC (R118). -/
def execInc (s : State) : Outcome := finish s (.ok (incRaw (operandA s)))

/-- DEC (R119). -/
def execDec (s : State) : Outcome := finish s (.ok (decRaw (operandA s)))

/-- SIGN (R120). -/
def execSign (s : State) : Outcome := finish s (.ok (signRaw (operandA s)))

/-- FLOOR (R121). -/
def execFloor (s : State) : Outcome := finish s (.ok (floorRaw (operandA s)))

/-- CEIL (R122). -/
def execCeil (s : State) : Outcome := finish s (.ok (ceilRaw (operandA s)))

/-- ROUND (R123). -/
def execRound (s : State) : Outcome := finish s (.ok (roundRaw (operandA s)))

/-- SHL (R124). -/
def execShl (s : State) : Outcome := finish s (.ok (shlRaw (operandA s) (operandB s)))

/-- SHR (R125). -/
def execShr (s : State) : Outcome := finish s (.ok (shrRaw (operandA s) (operandB s)))

/-- FROMINT (R126). -/
def execFromint (s : State) : Outcome := finish s (.ok (fromintRaw (operandA s)))

/-- TOINT (R127). -/
def execToint (s : State) : Outcome := finish s (.ok (tointRaw (operandA s)))

/-- CMPLT (R128). -/
def execCmplt (s : State) : Outcome := finish s (.ok (boolRaw (decide ((operandA s).toInt < (operandB s).toInt))))

/-- CMPLE (R129). -/
def execCmple (s : State) : Outcome := finish s (.ok (boolRaw (decide ((operandA s).toInt ≤ (operandB s).toInt))))

/-- CMPGT (R130). -/
def execCmpgt (s : State) : Outcome := finish s (.ok (boolRaw (decide ((operandA s).toInt > (operandB s).toInt))))

/-- CMPGE (R131). -/
def execCmpge (s : State) : Outcome := finish s (.ok (boolRaw (decide ((operandA s).toInt ≥ (operandB s).toInt))))

/-- CMPEQ (R132). -/
def execCmpeq (s : State) : Outcome := finish s (.ok (boolRaw (decide ((operandA s).toInt = (operandB s).toInt))))

/-- CMPNE (R133). -/
def execCmpne (s : State) : Outcome := finish s (.ok (boolRaw (decide ((operandA s).toInt ≠ (operandB s).toInt))))

end Sys2Proof.Machine
end

