-- ==== Sys2Proof/Machine/Divider.lean ====
section
/-!
DEFINITION. The divider (42_divider.md): the values of DIV (R180) and MOD (R183), and the shift-subtract datapath of
R181.
-/

namespace Sys2Proof.Machine

/-- A magnitude with the sign of a quotient. -/
def signed (neg : Bool) (mag : Nat) : Int := if neg then -(mag : Int) else mag

/-- The quotient's sign: the XOR of the operands' signs (R180). -/
def quotientNeg (a b : Word) : Bool := xor (decide (a.toInt < 0)) (decide (b.toInt < 0))

/-- DIV (R180): the quotient of the magnitudes with 33 fractional bits, incremented, shifted right by one, given its
sign and saturated. -/
def divRaw (a b : Word) : Except CommandError Word :=
  if b = 0 then .error .divByZero
  else
    let m := a.toInt.natAbs * 2 ^ 33 / b.toInt.natAbs
    let mag := (m + 1) / 2
    .ok (satWord (signed (quotientNeg a b) mag))

/-- MOD (R183): the remainder of the exact quotient, truncated toward zero. -/
def modRaw (a b : Word) : Except CommandError Word :=
  if b = 0 then .error .divByZero
  else .ok (BitVec.ofInt 64 (a.toInt - b.toInt * a.toInt.tdiv b.toInt))

/-- The loop of R181: `i` more bits of the dividend `n` to bring down into the remainder `r`, the quotient so far being
`m`. It stops with `none` where the next digit does not fit below 2^64. -/
def restoringLoop (n d : Nat) : Nat → Nat → Nat → Option Nat
  | 0,     _, m => some m
  | i + 1, r, m =>
    let r' := 2 * r + (n.testBit i).toNat
    let m' := if d ≤ r' then m + 2 ^ i else m
    if 2 ^ 64 ≤ m' then none
    else restoringLoop n d i (if d ≤ r' then r' - d else r') m'

/-- The divider's datapath (R181), for a divisor other than 0. -/
def divDatapath (a b : Word) : Word :=
  match restoringLoop (a.toInt.natAbs * 2 ^ 33) b.toInt.natAbs 97 0 0 with
  | none   => if quotientNeg a b then minRaw else maxRaw
  | some m => BitVec.ofInt 64 (signed (quotientNeg a b) ((m + 1) / 2))

/-- DIV (R180). -/
def execDiv (s : State) : Outcome := finish s (divRaw (operandA s) (operandB s))

/-- MOD (R183). -/
def execMod (s : State) : Outcome := finish s (modRaw (operandA s) (operandB s))

end Sys2Proof.Machine
end

