-- ==== Sys2Proof/Machine/TrigLut.lean ====
section
/-!
DEFINITION. The sine/cosine lookup-table unit (44_trig_lut.md): range reduction, quadrant folding, the table with its
boundary clamp, and SIN, COS and TAN.
-/

namespace Sys2Proof.Machine

/-- `reduce(a) = a mod PI_TIMES_2_RAW`, floor semantics (R205). -/
def reduceAngle (a : Word) : Nat := (a.toInt % piTimes2Raw.toInt).toNat

/-- R206, the sign flip beyond pi: does the reduced angle lie in the second half turn? -/
def foldNeg (t : Nat) : Bool := decide (piRaw.toNat ≤ t)

/-- R206, the folded angle in `[0, PI_OVER_2_RAW]`: the half turn taken off, then the mirror about pi/2. -/
def foldAngle (t : Nat) : Nat :=
  let h := if foldNeg t then t - piRaw.toNat else t
  if h > piOver2Raw.toNat then piRaw.toNat - h else h

/-- `lookup(idx)` (R208): ONE_RAW at or beyond the end of the table, else `LutRead(idx)`. No interpolation (R213). -/
def lookupSine (cfg : Config) (idx : Nat) : Nat :=
  if lutLen cfg ≤ idx then oneRaw.toNat else sineEntry cfg idx

/-- SIN (R209). -/
def sinRaw (cfg : Config) (a : Word) : Word :=
  let t := reduceAngle a
  BitVec.ofInt 64 (signed (foldNeg t) (lookupSine cfg (foldAngle t >>> cfg.lutShift)))

/-- COS (R210): SIN of the saturating sum with pi/2. -/
def cosRaw (cfg : Config) (a : Word) : Word := sinRaw cfg (addRaw a piOver2Raw)

/-- TAN (R211): DIV of SIN by COS, errors included. -/
def tanRaw (cfg : Config) (a : Word) : Except CommandError Word := divRaw (sinRaw cfg a) (cosRaw cfg a)

/-- SIN (R209). -/
def execSin (s : State) : Outcome := finish s (.ok (sinRaw s.cfg (operandA s)))

/-- COS (R210). -/
def execCos (s : State) : Outcome := finish s (.ok (cosRaw s.cfg (operandA s)))

/-- TAN (R211). -/
def execTan (s : State) : Outcome := finish s (tanRaw s.cfg (operandA s))

end Sys2Proof.Machine
end

