-- ==== Sys2Proof/Machine/FastTrig.lean ====
section
/-!
DEFINITION. Fast approximate trigonometry (45_fast_trig.md): the parabola sine and its reduced forms. It reads no table.
-/

namespace Sys2Proof.Machine

/-- SINP (R220): the parabola estimate and its correction, each step a call of its rule, in the rule's order. -/
def sinpRaw (a : Word) : Word :=
  let p := mulRaw sinpBRaw a
  let q := mulRaw (mulRaw sinpCRaw a) (absRaw a)
  let r := subRaw p q
  let u := subRaw (mulRaw r (absRaw r)) r
  addRaw (mulRaw sinpKRaw u) r

/-- FSIN's shift of the reduced angle into `[-PI_RAW, PI_RAW]` (R221). -/
def centreAngle (t : Nat) : Int := if t > piRaw.toNat then (t : Int) - piTimes2Raw.toInt else t

/-- FSIN (R221). -/
def fsinRaw (a : Word) : Word := sinpRaw (BitVec.ofInt 64 (centreAngle (reduceAngle a)))

/-- FCOS (R222). -/
def fcosRaw (a : Word) : Word := fsinRaw (addRaw a piOver2Raw)

/-- SINP (R220). -/
def execSinp (s : State) : Outcome := finish s (.ok (sinpRaw (operandA s)))

/-- FSIN (R221). -/
def execFsin (s : State) : Outcome := finish s (.ok (fsinRaw (operandA s)))

/-- FCOS (R222). -/
def execFcos (s : State) : Outcome := finish s (.ok (fcosRaw (operandA s)))

end Sys2Proof.Machine
end

