-- ==== Sys2Proof/Machine/Sqrt.lean ====
section
/-!
DEFINITION. The square-root engine (43_sqrt.md). SQRT is computed by the digit-by-digit extraction of R196, whose value
is R195's; R196's two-pass form, from general knowledge, stands beside it and no command uses it.
-/

namespace Sys2Proof.Machine

/-- One digit of R196: the pair (`num`, `r`) after trying the digit `bit`. -/
def sqrtDigit (bit : Nat) (p : Nat × Nat) : Nat × Nat :=
  if p.2 + bit ≤ p.1 then (p.1 - (p.2 + bit), p.2 / 2 + bit) else (p.1, p.2 / 2)

/-- The digits `4^(i-1)` down to 1 of R196. A digit above `num` at the start changes nothing, so R196's skip of leading
digits is not needed. -/
def sqrtLoop : Nat → Nat × Nat → Nat × Nat
  | 0,     p => p
  | i + 1, p => sqrtLoop i (sqrtDigit (4 ^ i) p)

/-- `isqrt(n)` and the remainder `n - isqrt(n)^2`, as the pair (`num`, `r`) that R196's loop ends with, for
`n < 4^48`. -/
def sqrtRem (n : Nat) : Nat × Nat := sqrtLoop 48 (n, 0)

/-- SQRT (R195): the root of `a * 2^32`, rounded up where the remainder exceeds the root. -/
def sqrtRaw (a : Word) : Except CommandError Word :=
  if a.toInt < 0 then .error .negSqrtArg
  else
    let p := sqrtRem (a.toNat * 2 ^ 32)
    .ok (BitVec.ofNat 64 (if p.1 > p.2 then p.2 + 1 else p.2))

/-- One digit of the two-pass form, in 64-bit unsigned arithmetic (R196). -/
def sqrtDigit64 (bit : Word) (p : Word × Word) : Word × Word :=
  if p.2 + bit ≤ p.1 then (p.1 - (p.2 + bit), p.2 >>> 1 + bit) else (p.1, p.2 >>> 1)

/-- The digits of one pass, from `4^(i-1)` down to 1 (R196). -/
def sqrtPass64 : Nat → Word × Word → Word × Word
  | 0,     p => p
  | i + 1, p => sqrtPass64 i (sqrtDigit64 (BitVec.ofNat 64 (4 ^ i)) p)

/-- The two-pass form of R196 (general knowledge, not architectural). -/
def sqrtTwoPass (a : Word) : Word :=
  let p := sqrtPass64 32 (a, 0)
  let q := if p.1 > 0xFFFFFFFF#64
    then ((p.1 - p.2) <<< 32 - 0x80000000#64, p.2 <<< 32 + 0x80000000#64)
    else (p.1 <<< 32, p.2 <<< 32)
  let z := sqrtPass64 16 q
  if z.1 > z.2 then z.2 + 1 else z.2

/-- SQRT (R195). -/
def execSqrt (s : State) : Outcome := finish s (sqrtRaw (operandA s))

end Sys2Proof.Machine
end

