-- ==== Sys2Proof/Machine/Atan.lean ====
section
/-!
DEFINITION. The atan approximator and its memoization cache (46_atan.md): the pure function ATAN2_VALUE (R230 to R235),
the cached ATAN2 (R240), and ATAN, ASIN and ACOS on top of it.
-/

namespace Sys2Proof.Machine

/-- The ratio `r` of R230. It raises at (0, 0) only (R234). Where its ADD or SUB saturates, R230 and R235's pseudocode is
followed and R247's error bound does not hold; that the pseudocode wins is the model's choice (DEDUCED, log entry 16).
The ratio's sign in R236's table is log entry 10. -/
def atanRatio (y x : Word) : Except CommandError Word :=
  let ay := absRaw y
  if 0 ≤ x.toInt then divRaw (subRaw x ay) (addRaw x ay) else divRaw (addRaw x ay) (subRaw ay x)

/-- The base angle of R230. -/
def atanBase (x : Word) : Word := if 0 ≤ x.toInt then piOver4Raw else threePiOver4Raw

/-- The cubic of R231, in its order of evaluation. -/
def atanPoly (r base : Word) : Word :=
  let r3 := mulRaw (mulRaw r r) r
  addRaw (subRaw (mulRaw atanC3Raw r3) (mulRaw atanC1Raw r)) base

/-- `ATAN2_VALUE(y, x)` (R235). -/
def atan2Value (y x : Word) : Except CommandError Word :=
  match atanRatio y x with
  | .error e => .error e
  | .ok r =>
    let ang := atanPoly r (atanBase x)
    .ok (if y.toInt < 0 then negRaw ang else ang)

/-- ATAN2 (R240): the cache's value on a hit; otherwise the value computed, and its slot overwritten. -/
def atan2Cached (cfg : Config) (c : Cache) (y x : Word) : Except CommandError (Word × Cache) :=
  if cfg.atanCacheSlots = 0 then
    match atan2Value y x with
    | .ok v    => .ok (v, c)
    | .error e => .error e
  else
    let i := atanHash cfg y x
    let sl := cacheRead c i
    if sl.valid = true ∧ sl.keyY = y ∧ sl.keyX = x then .ok (sl.value, c)
    else match atan2Value y x with
      | .ok v    => .ok (v, cacheWrite c i ⟨true, y, x, v⟩)
      | .error e => .error e

/-- ATAN (R244): ATAN2 with `x = ONE_RAW`, cache included. -/
def atanCached (cfg : Config) (c : Cache) (a : Word) : Except CommandError (Word × Cache) :=
  atan2Cached cfg c a oneRaw

/-- Is the operand outside [-One, One] (R245, R246)? -/
def outsideUnit (a : Word) : Bool := decide (a.toInt > oneRaw.toInt) || decide (a.toInt < -oneRaw.toInt)

/-- ASIN inside (-One, One) (R245): the arctangent of `a / sqrt(1 - a*a)`. -/
def asinInner (cfg : Config) (c : Cache) (a : Word) : Except CommandError (Word × Cache) :=
  match sqrtRaw (subRaw oneRaw (mulRaw a a)) with
  | .error e => .error e
  | .ok s =>
    match divRaw a s with
    | .error e => .error e
    | .ok q    => atanCached cfg c q

/-- ASIN (R245). -/
def asinCached (cfg : Config) (c : Cache) (a : Word) : Except CommandError (Word × Cache) :=
  if outsideUnit a then
    match cfg.asinPolicy with
    | .zero  => .ok (zeroRaw, c)
    | .raise => .error .outOfDomain
  else if a = oneRaw then .ok (piOver2Raw, c)
  else if a = -oneRaw then .ok (-piOver2Raw, c)
  else asinInner cfg c a

/-- ACOS (R246): the range test first, under either ASIN policy. -/
def acosCached (cfg : Config) (c : Cache) (a : Word) : Except CommandError (Word × Cache) :=
  if outsideUnit a then .error .outOfDomain
  else match asinCached cfg c a with
    | .ok (v, c') => .ok (subRaw piOver2Raw v, c')
    | .error e    => .error e

/-- ATAN2 (R240): `a` is y and `b` is x (R92). -/
def execAtan2 (s : State) : Outcome := finishCached s (atan2Cached s.cfg s.cache (operandA s) (operandB s))

/-- ATAN (R244). -/
def execAtan (s : State) : Outcome := finishCached s (atanCached s.cfg s.cache (operandA s))

/-- ASIN (R245). -/
def execAsin (s : State) : Outcome := finishCached s (asinCached s.cfg s.cache (operandA s))

/-- ACOS (R246). -/
def execAcos (s : State) : Outcome := finishCached s (acosCached s.cfg s.cache (operandA s))

end Sys2Proof.Machine
end

