-- ==== Sys2Proof/Machine/LogPow.lean ====
section
/-!
DEFINITION. The log/pow engine (47_log_pow.md): bit extraction by squaring, and its inverse by square roots.
-/

namespace Sys2Proof.Machine

/-- R250's mantissa in `[ONE_RAW, 2 * ONE_RAW)`, by a truncating shift. -/
def log2Mantissa (a : Word) : Word :=
  let p := msb a.toNat
  if 32 ≤ p then a >>> (p - 32) else a <<< (32 - p)

/-- R250's loop: `n` more bits, of weights `2^(n-1)` down to 1, from the mantissa `z`; the sum of those set. -/
def log2Loop : Nat → Word → Int
  | 0,     _ => 0
  | n + 1, z =>
    let z2 := mulRaw z z
    if z2.toInt ≥ 2 * oneRaw.toInt then 2 ^ n + log2Loop n (z2.sshiftRight 1) else log2Loop n z2

/-- LOG2 (R250). Its error exceeds R254 (2)'s bound on some operands; that R250's pseudocode wins is the model's choice
(DEDUCED, log entry 17). -/
def log2Raw (a : Word) : Except CommandError Word :=
  if a.toInt ≤ 0 then .error .outOfDomain
  else .ok (BitVec.ofInt 64 (((msb a.toNat : Int) - 32) * oneRaw.toInt + log2Loop 32 (log2Mantissa a)))

/-- LN (R251): LOG2's error, if any, ends the command (R274). -/
def lnRaw (a : Word) : Except CommandError Word :=
  match log2Raw a with
  | .ok v    => .ok (mulRaw v ln2Raw)
  | .error e => .error e

/-- R252's loop over the fraction's bits `j` to `j + n - 1`, least significant first: double if the bit is set, then the
square root. -/
def pow2Loop (f : Nat) : Nat → Nat → Word → Except CommandError Word
  | 0,     _, z => .ok z
  | n + 1, j, z =>
    match sqrtRaw (if f.testBit j then z <<< 1 else z) with
    | .ok z'   => pow2Loop f n (j + 1) z'
    | .error e => .error e

/-- `sat64(z << n)` for `n >= 0` (R252). From `n = 63` on every `z` but 0 saturates, so no larger power is formed. -/
def shiftLeftSat (z : Word) (n : Nat) : Word := satWord (z.toInt * 2 ^ min n 64)

/-- `z >> n` (R252), truncating. From `n = 63` on it is the sign, so no larger power is formed. -/
def shiftRightTrunc (z : Word) (n : Nat) : Word := z.sshiftRight (min n 64)

/-- POW2 (R252). Its error exceeds R254 (3)'s bound on some operands; that R252's pseudocode wins is the model's choice
(DEDUCED, log entry 17). -/
def pow2Raw (a : Word) : Except CommandError Word :=
  let n := intPart a
  match pow2Loop (fracPart a) 32 0 oneRaw with
  | .ok z    => .ok (if 0 ≤ n then shiftLeftSat z n.toNat else shiftRightTrunc z (-n).toNat)
  | .error e => .error e

/-- POW (R253): base `bs`, exponent `e`, the checks in the rule's order. -/
def powRaw (bs e : Word) : Except CommandError Word :=
  if e.toInt = 0 then .ok oneRaw
  else if bs.toInt < 0 then .error .outOfDomain
  else if bs.toInt = 0 then
    if e.toInt < 0 then .error .divByZero else .ok zeroRaw
  else match log2Raw bs with
    | .ok l      => pow2Raw (mulRaw e l)
    | .error err => .error err

/-- LOG2 (R250). -/
def execLog2 (s : State) : Outcome := finish s (log2Raw (operandA s))

/-- LN (R251). -/
def execLn (s : State) : Outcome := finish s (lnRaw (operandA s))

/-- POW2 (R252). -/
def execPow2 (s : State) : Outcome := finish s (pow2Raw (operandA s))

/-- POW (R253): `a` is the base and `b` the exponent (R92). -/
def execPow (s : State) : Outcome := finish s (powRaw (operandA s) (operandB s))

end Sys2Proof.Machine
end

