-- ==== Sys2Proof/Machine/Dispatch.lean ====
section
/-!
DEFINITION. The dispatch of a command to its meaning: the operation rule `f` of R45, one arm per command of R91.
-/

namespace Sys2Proof.Machine

def exec (i : Instr) (s : State) : Host.Outcome State Fault Refusal :=
  match i with
  | .add => Sys2Proof.Machine.execAdd s
  | .sub => Sys2Proof.Machine.execSub s
  | .neg => Sys2Proof.Machine.execNeg s
  | .fneg => Sys2Proof.Machine.execFneg s
  | .abs => Sys2Proof.Machine.execAbs s
  | .fabs => Sys2Proof.Machine.execFabs s
  | .inc => Sys2Proof.Machine.execInc s
  | .dec => Sys2Proof.Machine.execDec s
  | .sign => Sys2Proof.Machine.execSign s
  | .floor => Sys2Proof.Machine.execFloor s
  | .ceil => Sys2Proof.Machine.execCeil s
  | .round => Sys2Proof.Machine.execRound s
  | .shl => Sys2Proof.Machine.execShl s
  | .shr => Sys2Proof.Machine.execShr s
  | .fromint => Sys2Proof.Machine.execFromint s
  | .toint => Sys2Proof.Machine.execToint s
  | .cmplt => Sys2Proof.Machine.execCmplt s
  | .cmple => Sys2Proof.Machine.execCmple s
  | .cmpgt => Sys2Proof.Machine.execCmpgt s
  | .cmpge => Sys2Proof.Machine.execCmpge s
  | .cmpeq => Sys2Proof.Machine.execCmpeq s
  | .cmpne => Sys2Proof.Machine.execCmpne s
  | .mul => Sys2Proof.Machine.execMul s
  | .div => Sys2Proof.Machine.execDiv s
  | .mod => Sys2Proof.Machine.execMod s
  | .sqrt => Sys2Proof.Machine.execSqrt s
  | .sin => Sys2Proof.Machine.execSin s
  | .cos => Sys2Proof.Machine.execCos s
  | .tan => Sys2Proof.Machine.execTan s
  | .sinp => Sys2Proof.Machine.execSinp s
  | .fsin => Sys2Proof.Machine.execFsin s
  | .fcos => Sys2Proof.Machine.execFcos s
  | .atan2 => Sys2Proof.Machine.execAtan2 s
  | .atan => Sys2Proof.Machine.execAtan s
  | .asin => Sys2Proof.Machine.execAsin s
  | .acos => Sys2Proof.Machine.execAcos s
  | .log2 => Sys2Proof.Machine.execLog2 s
  | .ln => Sys2Proof.Machine.execLn s
  | .pow2 => Sys2Proof.Machine.execPow2 s
  | .pow => Sys2Proof.Machine.execPow s

end Sys2Proof.Machine
end

