-- ==== Sys2Proof/Machine/Port.lean ====
section
/-!
DEFINITION. The host register block (20_memory.md): the register map, the legality of an access, reads and writes, the
little-endian byte view, and `BASE`.
-/

namespace Sys2Proof.Machine

/-- The registers of the block (R61). -/
inductive Reg where
  | opa
  | opb
  | cmd
  | res
  | status
  | ctrl
deriving DecidableEq, Repr

/-- The register map of R61. -/
def regAt (offset : Nat) : Option Reg :=
  match offset with
  | 0x00 => some .opa
  | 0x08 => some .opb
  | 0x10 => some .cmd
  | 0x18 => some .res
  | 0x20 => some .status
  | 0x28 => some .ctrl
  | _    => none

/-- The register an access reaches, or the bus error it gets (R65, R66). -/
def accessReg (offset width : Nat) : Except Fault Reg :=
  if width ≠ 8 then .error (.busWidth offset width)
  else if offset % 8 ≠ 0 then .error (.busMisaligned offset)
  else match regAt offset with
    | some r => .ok r
    | none   => .error (.busUnmapped offset)

/-- What a host read of a register returns (R61, R64): CMD and CTRL read as 0. -/
def readReg (s : State) : Reg → Word
  | .opa    => s.opa
  | .opb    => s.opb
  | .cmd    => 0
  | .res    => s.res
  | .status => statusWord s
  | .ctrl   => 0

/-- A host write of CTRL while BUSY is 0 (R39, R242): bit 0 clears every slot's valid bit, the other bits are ignored. -/
def writeCtrl (s : State) (v : Word) : State :=
  if v.getLsbD 0 then { s with cache := cacheInvalidate s.cache } else s

/-- What a host write of a register does (R61 to R64): RES and STATUS ignore it, and so does every register while BUSY
is 1 (R63). -/
def writeReg (s : State) (r : Reg) (v : Word) : State :=
  if s.busy then s
  else match r with
    | .opa    => { s with opa := v }
    | .opb    => { s with opb := v }
    | .cmd    => acceptCommand s v
    | .res    => s
    | .status => s
    | .ctrl   => writeCtrl s v

/-- The bus answers an access (R79's counterpart: it completes without error). -/
def answer (s : State) (r : Reply) : State := { s with replies := s.replies ++ [r] }

/-- One input takes effect at the port (R69). -/
def serveInput (s : State) : Input → Outcome
  | .read offset width =>
    match accessReg offset width with
    | .ok r    => .next (answer s (.data (readReg s r)))
    | .error f => .fault f
  | .write offset width v =>
    match accessReg offset width with
    | .ok r    => .next (answer (writeReg s r v) .done)
    | .error f => .fault f
  | .atomic offset _ => .fault (.busAtomic offset)
  | .reset => .next (resetEvent s)

/-- The next input in arrival order takes effect, or, where none stands at the port, nothing happens: between accesses
all state holds its value (R69, R286). -/
def serve (s : State) : Outcome :=
  match s.inbox with
  | []        => .next s
  | i :: rest => serveInput { s with inbox := rest } i

/-- What a host can observe of the core (R305): OPA, OPB, RES and STATUS. The cache is not part of it (R243). -/
def observed (s : State) : Word × Word × Word × Word := (s.opa, s.opb, s.res, statusWord s)

/-- Byte `offset` of the register block, as the host sees it (R67: little-endian), below 0x30. -/
def blockByte (s : State) (offset : Nat) : Option Byte :=
  (regAt (offset / 8 * 8)).map fun r => (readReg s r).extractLsb' (8 * (offset % 8)) 8

/-- The offset of a host address in the register block, if it lies there (R61, R78). -/
def blockOffset (addr : Nat) : Option Nat :=
  if Config.base ≤ addr ∧ addr < Config.base + 64 then some (addr - Config.base) else none

/-- A host access by address: it arrives at the port if its address lies in the block; the rest of the host's map is the
platform's (R78). -/
def submitAt (s : State) (addr : Nat) (access : Nat → Input) : State :=
  match blockOffset addr with
  | some off => { s with inbox := s.inbox ++ [access off] }
  | none     => s

end Sys2Proof.Machine
end

