-- ==== Sys2Proof/Machine/Fetch.lean ====
section
/-!
DEFINITION. The completion step of the command in flight (R45, R96), and how an instruction's bits are placed so that
the next step runs it.
-/

namespace Sys2Proof.Machine

/-- The command in flight: the pending command while BUSY is 1 (R40). -/
def inFlight (s : State) : Option Pending := if s.busy then s.pend else none

/-- The completion step (R45): the word is decoded before any operand is examined (R275); an illegal word completes with
ILLEGAL_OPCODE (R96). -/
def completion (s : State) (w : Word) : Outcome :=
  match decode w with
  | .ok i    => exec i s
  | .error _ => finish s (.error .illegalOpcode)

/-- Is the completion step of a command in flight enabled (R300)? At least one host access has come since the CMD write,
and the latency is over. -/
def due (s : State) : Bool := s.accessed && s.wait == 0

/-- One cycle of a command in flight whose completion is not due (R300): an input is served, if one stands at the port.
The first cycle is that of the first access after the CMD write: nothing happens before that access comes. -/
def latencyCycle (s : State) : Outcome :=
  if s.accessed = false ∧ s.inbox = [] then .next s
  else serve { s with wait := s.wait - 1, accessed := true }

/-- One step of the core. While a command is in flight, the cycles of its latency pass; then the completion step runs,
between two accesses (R69, R300). Otherwise an input is served. -/
def coreStep (s : State) : Outcome :=
  match inFlight s with
  | some p => if due s then completion s p.w else latencyCycle s
  | none   => serve s

/-- The command word that an instruction's bits stand for: the table's `nbits` bits, zeros above (R90). -/
def commandWord (nbits w : Nat) : Word := BitVec.ofNat 64 (wordOfBytes (tableBytes nbits w))

/-- The state in which the command word has been accepted (R62), a host access has come after it and its latency is over
(R300), so that its completion is the next step. -/
def placeCommand (s : State) (nbits w : Nat) : State :=
  { s with pend := some ⟨commandWord nbits w, s.opa, s.opb⟩, busy := true, wait := 0, accessed := true }

end Sys2Proof.Machine
end

