-- ==== Sys2Proof/Machine/Step.lean ====
section
/-!
DEFINITION. The step of the machine. The core has no program counter and fetches nothing (R33, R73): a step is the
completion of the command in flight, or one input at the port.
-/

namespace Sys2Proof.Machine

/-- One step (R45, R69, R300). -/
def step (s : State) : Host.Outcome State Fault Refusal := coreStep s

/-- `s` with the command word of an instruction's bits accepted and its latency over: the very next step runs it. -/
def State.withFetchWord (s : State) (nbits w : Nat) : State := placeCommand s nbits w

end Sys2Proof.Machine
end

