-- ==== Sys2Proof/Safety.lean ====
section
/-!
DEFINITION. What a safe run of the core is, in the terms that statements use: the states a command or a reset leaves, the
invariant every step keeps, and when the port is open.
-/

namespace Sys2Proof.Machine

/-- The state after a command that returned `v` (R45): RES, ERR and BUSY written, the pending command over, every other
field as before. -/
def completed (s : State) (v : Word) : State := { s with res := v, err := 0#3, busy := false, pend := none }

/-- The state after a command that raised the error with this code (R45, R272): ERR and BUSY written, the pending
command over, every other field as before. -/
def failed (s : State) (code : BitVec 3) : State := { s with err := code, busy := false, pend := none }

/-- The range limit of a raw value (R16 `sat64`), as the nearest integer in [-2^63, 2^63-1]. -/
def clamp (n : Int) : Int := max (-2 ^ 63) (min (2 ^ 63 - 1) n)

/-- The product of two raw values as an integer rule (R170). -/
def mulInt (x y : Int) : Int := clamp ((x * y + 2 ^ 31) / 2 ^ 32)

/-- The quotient of two raw values as an integer rule (R180), for `y` other than 0: the magnitude with 33 fractional
bits, incremented and halved, with the sign of the quotient. -/
def divInt (x y : Int) : Int :=
  clamp ((if x < 0 ↔ y < 0 then 1 else -1) * ((x.natAbs * 2 ^ 33 / y.natAbs + 1) / 2 : Nat))

/-- The saturating magnitude of a raw value as an integer rule (R116). -/
def absInt (x : Int) : Int := min (2 ^ 63 - 1) x.natAbs

/-- `v` is the root of `n` rounded as R195 says: the integer root, plus 1 where the remainder exceeds it. -/
def IsRoundedRoot (n v : Int) : Prop :=
  ∃ r : Int, 0 ≤ r ∧ r * r ≤ n ∧ n < (r + 1) * (r + 1) ∧ v = if n - r * r > r then r + 1 else r

/-- The cubic of R231 in `r`, as an integer rule. -/
def atanCubicInt (r base : Int) : Int :=
  clamp (clamp (mulInt 843102080 (mulInt (mulInt r r) r) - mulInt 4216361506 r) + base)

/-- The angle of R230 to R232 for the operand pair (`y`, `x`), other than (0, 0), as an integer rule. -/
def atan2Int (y x : Int) : Int :=
  let ay := absInt y
  let ang := if 0 ≤ x then atanCubicInt (divInt (clamp (x - ay)) (clamp (x + ay))) 3373259426
    else atanCubicInt (divInt (clamp (x + ay)) (clamp (ay - x))) 10119778278
  if y < 0 then clamp (-ang) else ang

/-- R40: the pending command is there exactly while BUSY is 1, and its snapshots equal OPA and OPB. -/
def FlightConsistent (s : State) : Prop :=
  s.busy = s.pend.isSome ∧ ∀ p, s.pend = some p → p.a = s.opa ∧ p.b = s.opb

/-- Every listed slot of the cache is one of the `ATAN_CACHE_SLOTS` slots (R41, R60). -/
def CacheInRange (s : State) : Prop := ∀ e ∈ s.cache, e.1 < s.cfg.atanCacheSlots

/-- R42: every valid slot holds the value that ATAN2_VALUE gives for its keys. -/
def CacheSound (c : Cache) : Prop :=
  ∀ i, (cacheRead c i).valid = true → atan2Value (cacheRead c i).keyY (cacheRead c i).keyX = .ok (cacheRead c i).value

/-- What holds at reset and is kept by every step (R40 to R42; R271: codes 5 to 7 are never written). -/
structure Inv (s : State) : Prop where
  flight    : FlightConsistent s
  canonical : cacheWf s.cache = true
  inRange   : CacheInRange s
  sound     : CacheSound s.cache
  errCode   : s.err.toNat ≤ 4

/-- The core with no atan cache (R243: `ATAN_CACHE_SLOTS = 0`) in otherwise the same state. -/
def withoutCache (s : State) : State := { s with cache := [], cfg := { s.cfg with atanCacheSlots := 0 } }

/-- A step is safe when it is no bus error (R79): the machine goes on. -/
def StepSafe (s : State) : Prop := ∃ t, step s = .next t

/-- Is an input at the port served in the next step, rather than a completion run (R69, R300)? -/
def portOpen (s : State) : Prop := s.busy = false ∨ s.pend = none ∨ due s = false

/-- `t` holds R291's reset value in every piece of core state, under the configuration of `s`. -/
def IsResetOf (s t : State) : Prop :=
  t.opa = 0 ∧ t.opb = 0 ∧ t.res = 0 ∧ t.busy = false ∧ t.err = 0 ∧ statusWord t = 0 ∧ readReg t .cmd = 0 ∧
  readReg t .ctrl = 0 ∧ t.pend = none ∧ (∀ i, (cacheRead t.cache i).valid = false) ∧ t.cfg = s.cfg ∧
  ∀ i, sineEntry t.cfg i = sineEntry s.cfg i

end Sys2Proof.Machine
end

