-- ==== Sys2Proof/Certificates/Slice0/Obligations.lean ====
section
/-!
DEFINITION. The statements for the provers. `completed s v` and `failed s c` (Sys2Proof.Safety) are whole states, so a
conclusion `exec i s = .next (completed s v)` is the instruction's frame as well: every field but RES, ERR, BUSY and the
pending command is that of `s`, the atan cache among them.
-/

open Sys2Proof Sys2Proof.Machine

/-! ### Encoding -/

/-- R97, R95: decoding of every 64-bit word, with R91's table written out. -/
def Obligations.DecodeFollowsTheOpcodeMap : Prop :=
  let rows : List (Nat × Instr) :=
    [ (0x01, .add), (0x02, .sub), (0x03, .neg), (0x04, .fneg), (0x05, .abs), (0x06, .fabs), (0x07, .inc), (0x08, .dec),
      (0x09, .sign), (0x0A, .floor), (0x0B, .ceil), (0x0C, .round), (0x0D, .shl), (0x0E, .shr), (0x0F, .fromint),
      (0x10, .toint), (0x11, .cmplt), (0x12, .cmple), (0x13, .cmpgt), (0x14, .cmpge), (0x15, .cmpeq), (0x16, .cmpne) ]
    ++ [ (0x20, .mul), (0x28, .div), (0x29, .mod), (0x30, .sqrt), (0x38, .sin), (0x39, .cos), (0x3A, .tan), (0x40, .sinp),
      (0x41, .fsin), (0x42, .fcos), (0x48, .atan2), (0x49, .atan), (0x4A, .asin), (0x4B, .acos), (0x50, .log2),
      (0x51, .ln), (0x52, .pow2), (0x53, .pow) ]
  ∀ w : Word,
    (∀ row ∈ rows, w.toNat / 2 ^ 8 = 0 → w.toNat % 2 ^ 8 = row.1 → decode w = .ok row.2) ∧
    (w.toNat / 2 ^ 8 ≠ 0 ∨ (∀ row ∈ rows, w.toNat % 2 ^ 8 ≠ row.1) → ∃ e, decode w = .error e)

/-- R90, R91, R97: decode and encode agree, on words in both directions and on bytes. -/
def Obligations.DecodeAndEncodeAgree : Prop :=
  (∀ (w : Word) (i : Instr), decode w = .ok i ↔ w = encode i) ∧
  (∀ (i : Instr) (rest : List Byte), decodeBytes (encodeBytes i ++ rest) = .ok (i, rest)) ∧
  (∀ (bs : List Byte) (i : Instr) (rest : List Byte), decodeBytes bs = .ok (i, rest) → bs = encodeBytes i ++ rest)

/-- R91: one word of each family, and one of each kind of illegal word (R95, R96), as the spec writes them. -/
def Obligations.WrittenOutWordsDecode : Prop :=
  decode 0x0000000000000001#64 = .ok .add ∧ decode 0x0000000000000016#64 = .ok .cmpne ∧
  decode 0x0000000000000020#64 = .ok .mul ∧ decode 0x0000000000000029#64 = .ok .mod ∧
  decode 0x0000000000000030#64 = .ok .sqrt ∧ decode 0x000000000000003A#64 = .ok .tan ∧
  decode 0x0000000000000042#64 = .ok .fcos ∧ decode 0x000000000000004B#64 = .ok .acos ∧
  decode 0x0000000000000053#64 = .ok .pow ∧ decode 0x0000000000000000#64 = .error .unassignedOpcode ∧
  decode 0x0000000000000017#64 = .error .unassignedOpcode ∧ decode 0x0000000000000101#64 = .error .reservedBits ∧
  decode 0x8000000000000001#64 = .error .reservedBits

/-! ### The step, reset and invariants -/

/-- R45: the completion step of a command in flight whose latency is over is `exec` of the command its word decodes to,
at the same state. That the completion is due once a host access has come and `wait` is 0 is the model's form of R300
(log entry 4). -/
def Obligations.StepRunsTheCommandInFlight : Prop :=
  ∀ (s : State) (w a b : Word) (i : Instr),
    s.busy = true → s.pend = some ⟨w, a, b⟩ → s.accessed = true → s.wait = 0 → decode w = .ok i → step s = exec i s

/-- R96, R62: an illegal word is accepted like any command, and its completion writes STATUS only, with ILLEGAL_OPCODE.
When the completion is the next step is the model's form of R300 (log entry 4). -/
def Obligations.IllegalWordsCompleteWithIllegalOpcode : Prop :=
  ∀ (s : State) (w : Word), (w.toNat / 2 ^ 8 ≠ 0 ∨ ∀ i, w.toNat % 2 ^ 8 ≠ opcodeOf i) →
    (∀ rest, s.busy = false → s.inbox = .write 0x10 8 w :: rest →
      ∃ t, step s = .next t ∧ t.busy = true ∧ t.pend = some ⟨w, s.opa, s.opb⟩) ∧
    (∀ a b, s.busy = true → s.pend = some ⟨w, a, b⟩ → s.accessed = true → s.wait = 0 → step s = .next (failed s 4#3))

/-- R291, R294: the platform's reset event puts every piece of core state at its reset value, drops a command in flight
and leaves the sine table. One case is the model's choice (log entry 13), as R294 speaks of any BUSY = 1: where the
completion of the command in flight is due as the reset arrives, the completion step runs first, and the step after it
is the reset, which leaves the same state. -/
def Obligations.ResetEventSetsTheResetState : Prop :=
  ∀ (s : State) (rest : List Input), s.inbox = .reset :: rest →
    (portOpen s → ∃ t, step s = .next t ∧ IsResetOf s t) ∧
    (∀ p, s.busy = true → s.pend = some p → s.accessed = true → s.wait = 0 →
      ∃ u t, step s = .next u ∧ completion s p.w = .next u ∧ step u = .next t ∧ IsResetOf s t)

/-- R291: what the machine is started from. The configuration at reset is the parameters' default (R10; the table is an
open one, log entry 2). -/
def Obligations.ResetStateHoldsTheRuledValues : Prop :=
  State.reset.opa = 0 ∧ State.reset.opb = 0 ∧ State.reset.res = 0 ∧ State.reset.busy = false ∧ State.reset.err = 0 ∧
  State.reset.pend = none ∧ (∀ i, (cacheRead State.reset.cache i).valid = false) ∧ (∀ r, readReg State.reset r = 0) ∧
  State.reset.cfg.lutShift = 0 ∧ lutLen State.reset.cfg = 6746518852 ∧ State.reset.cfg.atanCacheSlots = 4096 ∧
  State.reset.cfg.atanHash = .xorFold ∧ State.reset.cfg.asinPolicy = .zero

/-- R40 to R42, R271: the invariant holds at reset. -/
def Obligations.InvariantHoldsAtReset : Prop := Inv State.reset

/-- R40 to R42, R271: every step keeps the invariant: the snapshots equal OPA and OPB while BUSY, the cache stays in
canonical form, in range and sound, and ERR stays an assigned code. -/
def Obligations.EveryStepKeepsTheInvariant : Prop := ∀ s t : State, Inv s → step s = .next t → Inv t

/-- R42: the cache never holds a value other than ATAN2_VALUE of its keys, so ATAN2 returns what a recomputation would,
whatever the cache holds. -/
def Obligations.CacheServesOnlyRecomputableValues : Prop :=
  CacheSound State.reset.cache ∧
  (∀ s t : State, cacheWf s.cache = true → CacheSound s.cache → step s = .next t → CacheSound t.cache) ∧
  (∀ (cfg : Config) (c : Cache) (y x : Word), CacheSound c →
    (∀ v, (∃ c', atan2Cached cfg c y x = .ok (v, c')) ↔ atan2Value y x = .ok v) ∧
    (∀ e, atan2Cached cfg c y x = .error e ↔ atan2Value y x = .error e))

/-- R243: what a host can observe after any command is what it would observe with no cache at all, whatever the cache
holds and whatever the hash. -/
def Obligations.CacheIsTransparent : Prop :=
  ∀ (i : Instr) (s : State), CacheSound s.cache →
    ∃ t u, exec i s = .next t ∧ exec i (withoutCache s) = .next u ∧ observed t = observed u

/-- R47: no step changes the sine table. That no step changes the other parameters either is R48's word "configuration"
as the model takes it (log entry 1). -/
def Obligations.ConfigurationNeverChanges : Prop :=
  ∀ s t : State, step s = .next t → t.cfg = s.cfg ∧ ∀ i, sineEntry t.cfg i = sineEntry s.cfg i

/-! ### All commands -/

/-- R45, R272: every command, in every state, answers a next state, a result or an error. OPA and OPB never change, and
only ATAN2, ATAN, ASIN and ACOS may change the cache, on success only: in the one slot of the pair that ATAN2 was given,
which then holds that pair with its ATAN2_VALUE (R240). ATAN, ASIN and ACOS give ATAN2 the pair of R244 and R245. -/
def Obligations.EveryCommandCompletes : Prop :=
  ∀ (i : Instr) (s : State),
    (∃ v c, exec i s = .next { completed s v with cache := c } ∧
      (i ∉ [Instr.atan2, .atan, .asin, .acos] → c = s.cache) ∧
      (cacheWf s.cache = true → c = s.cache ∨ ∃ y x u, atan2Value y x = .ok u ∧ s.cfg.atanCacheSlots ≠ 0 ∧
        (i = .atan2 → y = operandA s ∧ x = operandB s) ∧ (i ≠ .atan2 → x = oneRaw) ∧ (i = .atan → y = operandA s) ∧
        (i ∈ [Instr.asin, .acos] → ∃ r, y.toInt = divInt (operandA s).toInt r ∧
          IsRoundedRoot (clamp (2 ^ 32 - mulInt (operandA s).toInt (operandA s).toInt) * 2 ^ 32) r) ∧
        cacheRead c (atanHash s.cfg y x) = ⟨true, y, x, u⟩ ∧
        ∀ j, j ≠ atanHash s.cfg y x → cacheRead c j = cacheRead s.cache j)) ∨
    (∃ code, code ∈ [1#3, 2#3, 3#3] ∧ exec i s = .next (failed s code))

/-- R273: exactly the listed operand conditions raise, each with its code; every other command and operand combination
succeeds. The cache is assumed sound (R42). -/
def Obligations.CommandsRaiseExactlyTheListedErrors : Prop :=
  ∀ (s : State) (w a b : Word), s.pend = some ⟨w, a, b⟩ → CacheSound s.cache →
    (∀ i : Instr, ∃ t, exec i s = .next t ∧ t.err = (match i with
      | .div | .mod => if b = 0 then 1#3 else 0#3
      | .sqrt => if a.toInt < 0 then 2#3 else 0#3
      | .tan => if cosRaw s.cfg a = 0 then 1#3 else 0#3
      | .atan2 => if a = 0 ∧ b = 0 then 1#3 else 0#3
      | .asin => if (2 ^ 32 < a.toInt ∨ a.toInt < -2 ^ 32) ∧ s.cfg.asinPolicy = .raise then 3#3 else 0#3
      | .acos => if 2 ^ 32 < a.toInt ∨ a.toInt < -2 ^ 32 then 3#3 else 0#3
      | .log2 | .ln => if a.toInt ≤ 0 then 3#3 else 0#3
      | .pow => if b ≠ 0 ∧ a.toInt < 0 then 3#3 else if b.toInt < 0 ∧ a = 0 then 1#3 else 0#3
      | _ => 0#3)) ∧
    (∀ e, decode w = .error e → ∃ t, completion s w = .next t ∧ t.err = 4#3)

/-- R93: a unary command reads only `a`: neither OPB nor its snapshot has any effect. -/
def Obligations.UnaryCommandsIgnoreOpb : Prop :=
  ∀ i ∈ [Instr.neg, .fneg, .abs, .fabs, .inc, .dec, .sign, .floor, .ceil, .round, .fromint, .toint, .sqrt, .sin, .cos,
      .tan, .sinp, .fsin, .fcos, .atan, .asin, .acos, .log2, .ln, .pow2],
    ∀ (s : State) (w a b b' opb' : Word),
      ∃ t, exec i { s with pend := some ⟨w, a, b⟩ } = .next t ∧
        exec i { s with opb := opb', pend := some ⟨w, a, b'⟩ } = .next { t with opb := opb' }

/-! ### ALU -/

/-- R113: ADD and SUB are the exact sum and difference, saturated; the sign tests of R111 and R112 are true exactly on
overflow, where the sum has the operands' common sign and the difference the minuend's. -/
def Obligations.AddAndSubSaturate : Prop :=
  ∀ (s : State) (w a b : Word), s.pend = some ⟨w, a, b⟩ →
    (∃ v, exec .add s = .next (completed s v) ∧ v.toInt = clamp (a.toInt + b.toInt) ∧
      (addOverflows a b (a + b) = true → (v.toInt < 0 ↔ a.toInt < 0) ∧ (v.toInt < 0 ↔ b.toInt < 0))) ∧
    (∃ v, exec .sub s = .next (completed s v) ∧ v.toInt = clamp (a.toInt - b.toInt) ∧
      (subOverflows a b (a - b) = true → (v.toInt < 0 ↔ a.toInt < 0))) ∧
    (addOverflows a b (a + b) = true ↔ a.toInt + b.toInt < -2 ^ 63 ∨ 2 ^ 63 - 1 < a.toInt + b.toInt) ∧
    (subOverflows a b (a - b) = true ↔ a.toInt - b.toInt < -2 ^ 63 ∨ 2 ^ 63 - 1 < a.toInt - b.toInt)

/-- R114 to R117: NEG and ABS saturate, FNEG and FABS wrap. -/
def Obligations.NegateAndAbsoluteValue : Prop :=
  (decode 0x03#64 = .ok .neg ∧ decode 0x04#64 = .ok .fneg ∧ decode 0x05#64 = .ok .abs ∧ decode 0x06#64 = .ok .fabs) ∧
  ∀ (s : State) (w a b : Word), s.pend = some ⟨w, a, b⟩ →
    (∃ v, exec .neg s = .next (completed s v) ∧ v.toInt = clamp (-a.toInt)) ∧
    (∃ v, exec .fneg s = .next (completed s v) ∧ v.toInt = (-a.toInt).bmod (2 ^ 64)) ∧
    (∃ v, exec .abs s = .next (completed s v) ∧ v.toInt = absInt a.toInt) ∧
    (∃ v, exec .fabs s = .next (completed s v) ∧ v.toInt = (a.toInt.natAbs : Int).bmod (2 ^ 64))

/-- R118, R119: the saturating step by One. -/
def Obligations.IncrementAndDecrementSaturate : Prop :=
  (decode 0x07#64 = .ok .inc ∧ decode 0x08#64 = .ok .dec) ∧
  ∀ (s : State) (w a b : Word), s.pend = some ⟨w, a, b⟩ →
    (∃ v, exec .inc s = .next (completed s v) ∧ v.toInt = clamp (a.toInt + 2 ^ 32)) ∧
    (∃ v, exec .dec s = .next (completed s v) ∧ v.toInt = clamp (a.toInt - 2 ^ 32))

/-- R120: the sign as a plain integer. -/
def Obligations.SignIsAPlainInteger : Prop :=
  decode 0x09#64 = .ok .sign ∧
  ∀ (s : State) (w a b : Word), s.pend = some ⟨w, a, b⟩ →
    ∃ v, exec .sign s = .next (completed s v) ∧ v.toInt = a.toInt.sign

/-- R121 to R123: the three roundings to an integer value: down, up, to nearest with ties to even; the last two
saturate. -/
def Obligations.FloorCeilAndRound : Prop :=
  (decode 0x0A#64 = .ok .floor ∧ decode 0x0B#64 = .ok .ceil ∧ decode 0x0C#64 = .ok .round) ∧
  ∀ (s : State) (w a b : Word), s.pend = some ⟨w, a, b⟩ →
    (∃ v, exec .floor s = .next (completed s v) ∧ v.toInt = a.toInt / 2 ^ 32 * 2 ^ 32) ∧
    (∃ v, exec .ceil s = .next (completed s v) ∧ v.toInt = clamp (-(-a.toInt / 2 ^ 32) * 2 ^ 32)) ∧
    (∃ v, exec .round s = .next (completed s v) ∧
      v.toInt = clamp ((if a.toInt % 2 ^ 32 < 2 ^ 31 then a.toInt / 2 ^ 32
        else if 2 ^ 31 < a.toInt % 2 ^ 32 then a.toInt / 2 ^ 32 + 1
        else if a.toInt / 2 ^ 32 % 2 = 0 then a.toInt / 2 ^ 32 else a.toInt / 2 ^ 32 + 1) * 2 ^ 32))

/-- R124, R125: the raw shifts by `b[5:0]`, wrapping to the left and toward minus infinity to the right. -/
def Obligations.ShiftsUseTheLowSixBits : Prop :=
  (decode 0x0D#64 = .ok .shl ∧ decode 0x0E#64 = .ok .shr) ∧
  ∀ (s : State) (w a b : Word), s.pend = some ⟨w, a, b⟩ →
    (∃ v, exec .shl s = .next (completed s v) ∧ v.toInt = (a.toInt * 2 ^ (b.toNat % 64)).bmod (2 ^ 64)) ∧
    (∃ v, exec .shr s = .next (completed s v) ∧ v.toInt = a.toInt / 2 ^ (b.toNat % 64))

/-- R126, R127 and R134 (7): the integer casts, and their round trip on the integers of 32 bits. -/
def Obligations.IntegerConversionsRoundTrip : Prop :=
  (decode 0x0F#64 = .ok .fromint ∧ decode 0x10#64 = .ok .toint) ∧
  ∀ (s : State) (w a b : Word), s.pend = some ⟨w, a, b⟩ →
    (∃ v, exec .fromint s = .next (completed s v) ∧ v.toInt = (a.toInt * 2 ^ 32).bmod (2 ^ 64) ∧
      (-2 ^ 31 ≤ a.toInt ∧ a.toInt ≤ 2 ^ 31 - 1 → ∀ s' : State, s'.pend = some ⟨w, v, b⟩ →
        exec .toint s' = .next (completed s' a))) ∧
    (∃ v, exec .toint s = .next (completed s v) ∧ v.toInt = a.toInt / 2 ^ 32)

/-- R128 to R133: the six signed comparisons, each the plain integer 1 or 0. -/
def Obligations.ComparisonsGiveOneOrZero : Prop :=
  (decode 0x11#64 = .ok .cmplt ∧ decode 0x12#64 = .ok .cmple ∧ decode 0x13#64 = .ok .cmpgt ∧
    decode 0x14#64 = .ok .cmpge ∧ decode 0x15#64 = .ok .cmpeq ∧ decode 0x16#64 = .ok .cmpne) ∧
  ∀ (s : State) (w a b : Word), s.pend = some ⟨w, a, b⟩ →
    exec .cmplt s = .next (completed s (if a.toInt < b.toInt then 1 else 0)) ∧
    exec .cmple s = .next (completed s (if a.toInt ≤ b.toInt then 1 else 0)) ∧
    exec .cmpgt s = .next (completed s (if b.toInt < a.toInt then 1 else 0)) ∧
    exec .cmpge s = .next (completed s (if b.toInt ≤ a.toInt then 1 else 0)) ∧
    exec .cmpeq s = .next (completed s (if a = b then 1 else 0)) ∧
    exec .cmpne s = .next (completed s (if a = b then 0 else 1))

/-! ### Multiplier and divider -/

/-- R170: the exact product, rounded half up at bit 32 and saturated. -/
def Obligations.MulRoundsHalfUpAndSaturates : Prop :=
  decode 0x20#64 = .ok .mul ∧
  ∀ (s : State) (w a b : Word), s.pend = some ⟨w, a, b⟩ →
    ∃ v, exec .mul s = .next (completed s v) ∧
      v.toInt = max (-2 ^ 63) (min (2 ^ 63 - 1) ((a.toInt * b.toInt + 2 ^ 31) / 2 ^ 32))

/-- R172: a product in range is within half a raw unit; any other gives the correctly signed bound. With `P` the exact
product, `P / 2^32` in range is `MIN_RAW * 2^32 <= P <= MAX_RAW * 2^32`. -/
def Obligations.MulIsAccurateToHalfAnUlp : Prop :=
  ∀ (s : State) (w a b : Word), s.pend = some ⟨w, a, b⟩ →
    ∃ v, exec .mul s = .next (completed s v) ∧
      (-2 ^ 95 ≤ a.toInt * b.toInt ∧ a.toInt * b.toInt ≤ (2 ^ 63 - 1) * 2 ^ 32 →
        2 * |v.toInt * 2 ^ 32 - a.toInt * b.toInt| ≤ 2 ^ 32) ∧
      ((2 ^ 63 - 1) * 2 ^ 32 < a.toInt * b.toInt → v.toInt = 2 ^ 63 - 1) ∧
      (a.toInt * b.toInt < -2 ^ 95 → v.toInt = -2 ^ 63)

/-- R171: the four partial products, their bounds, the product they make up, and that the datapath's `q` gives MUL. -/
def Obligations.MulPartialProductsGiveTheProduct : Prop :=
  ∀ a b : Word,
    let xlo : Int := a.toNat % 2 ^ 32
    let xhi : Int := a.toInt / 2 ^ 32
    let ylo : Int := b.toNat % 2 ^ 32
    let yhi : Int := b.toInt / 2 ^ 32
    (0 ≤ xlo * ylo ∧ xlo * ylo < 2 ^ 64) ∧ |xlo * yhi| < 2 ^ 63 ∧ |xhi * ylo| < 2 ^ 63 ∧ |xhi * yhi| ≤ 2 ^ 62 ∧
    a.toInt * b.toInt = xhi * yhi * 2 ^ 64 + (xlo * yhi + xhi * ylo) * 2 ^ 32 + xlo * ylo ∧
    mulPartialSum a b = xhi * yhi * 2 ^ 32 + xlo * yhi + xhi * ylo + xlo * ylo / 2 ^ 32 + xlo * ylo / 2 ^ 31 % 2 ∧
    mulPartialSum a b = (a.toInt * b.toInt + 2 ^ 31) / 2 ^ 32 ∧
    mulDatapath a b = mulRaw a b

/-- R180: the quotient of magnitudes with 33 fractional bits, incremented and halved, signed and saturated; a divisor of
0 raises DIV_BY_ZERO whatever the dividend. -/
def Obligations.DivRoundsToNearestAndSaturates : Prop :=
  decode 0x28#64 = .ok .div ∧
  ∀ (s : State) (w a b : Word), s.pend = some ⟨w, a, b⟩ →
    (b = 0 → exec .div s = .next (failed s 1#3)) ∧
    (b ≠ 0 → ∃ v, exec .div s = .next (completed s v) ∧
      (let mag : Nat := (a.toInt.natAbs * 2 ^ 33 / b.toInt.natAbs + 1) / 2
       v.toInt = max (-2 ^ 63) (min (2 ^ 63 - 1) (if a.toInt < 0 ↔ b.toInt < 0 then (mag : Int) else -(mag : Int)))))

/-- R182 (1), (2): with `q = a * 2^32 / b` the true quotient in raw units, `|v - q| <= 1/2` when `q` is in range, else
`v` is the correctly signed bound. Everything is multiplied by `|b|`. -/
def Obligations.DivIsAccurateToHalfAnUlp : Prop :=
  ∀ (s : State) (w a b : Word), s.pend = some ⟨w, a, b⟩ → b ≠ 0 →
    ∃ v, exec .div s = .next (completed s v) ∧
      (let n : Int := a.toInt * 2 ^ 32 * b.toInt.sign
       let d : Int := |b.toInt|
       (-2 ^ 63 * d ≤ n ∧ n ≤ (2 ^ 63 - 1) * d → 2 * |v.toInt * d - n| ≤ d) ∧
       ((2 ^ 63 - 1) * d < n → v.toInt = 2 ^ 63 - 1) ∧
       (n < -2 ^ 63 * d → v.toInt = -2 ^ 63))

/-- R181: the restoring shift-subtract loop, with its early saturation, gives DIV's result for every divisor but 0. -/
def Obligations.RestoringDivisionGivesDiv : Prop :=
  ∀ a b : Word, b ≠ 0 → divRaw a b = .ok (divDatapath a b)

/-- R183, R184: MOD is the remainder of the quotient truncated toward zero; a divisor of 0 raises DIV_BY_ZERO. -/
def Obligations.ModIsTheTruncatedRemainder : Prop :=
  decode 0x29#64 = .ok .mod ∧
  ∀ (s : State) (w a b : Word), s.pend = some ⟨w, a, b⟩ →
    (b = 0 → exec .mod s = .next (failed s 1#3)) ∧
    (b ≠ 0 → ∃ v, exec .mod s = .next (completed s v) ∧ v.toInt = a.toInt - b.toInt * a.toInt.tdiv b.toInt ∧
      a.toInt = b.toInt * a.toInt.tdiv b.toInt + v.toInt ∧ |v.toInt| < |b.toInt| ∧
      (v.toInt = 0 ∨ v.toInt.sign = a.toInt.sign))

/-! ### Square root -/

/-- R195: the correctly rounded root of `a * 2^32`; a negative operand raises NEG_SQRT_ARG. -/
def Obligations.SqrtIsTheRoundedRoot : Prop :=
  decode 0x30#64 = .ok .sqrt ∧
  ∀ (s : State) (w a b : Word), s.pend = some ⟨w, a, b⟩ →
    (a.toInt < 0 → exec .sqrt s = .next (failed s 2#3)) ∧
    (0 ≤ a.toInt → ∃ v, exec .sqrt s = .next (completed s v) ∧ IsRoundedRoot (a.toInt * 2 ^ 32) v.toInt ∧
      0 ≤ v.toInt ∧ v.toInt ≤ 0x0000B504F333F9DE)

/-- R197 (1), (2): SQRT is monotone, and exact on the powers of 4. -/
def Obligations.SqrtIsMonotoneAndExactOnPowersOfFour : Prop :=
  (∀ a b u v : Word, 0 ≤ a.toInt → a.toInt ≤ b.toInt → sqrtRaw a = .ok u → sqrtRaw b = .ok v → u.toInt ≤ v.toInt) ∧
  (∀ k : Nat, k ≤ 15 → sqrtRaw (BitVec.ofNat 64 (4 ^ k * 2 ^ 32)) = .ok (BitVec.ofNat 64 (2 ^ k * 2 ^ 32)))

/-- At the operand 8865992844111978193, SQRT gives 0xB17A4A8EBC86, which is R195's rounded root, and the two-pass form that
R196 quotes from general knowledge gives 0xB17A4A8EBC85. R196 says that both give the same result; that R195's value wins
is log entry 9's choice. -/
def Obligations.TwoPassRootDiffersSomewhere : Prop :=
  (∀ (s : State) (w b : Word), s.pend = some ⟨w, 8865992844111978193, b⟩ →
    exec .sqrt s = .next (completed s 0xB17A4A8EBC86)) ∧
  IsRoundedRoot (8865992844111978193 * 2 ^ 32) 0xB17A4A8EBC86 ∧
  ¬ IsRoundedRoot (8865992844111978193 * 2 ^ 32) 0xB17A4A8EBC85 ∧
  sqrtTwoPass 8865992844111978193 = 0xB17A4A8EBC85

/-! ### Table trigonometry -/

/-- R205 to R209: SIN reduces, folds, looks up with the boundary clamp and gives the sign, for every table that meets
R19 and every LUT_SHIFT. -/
def Obligations.SinFoldsAndLooksUp : Prop :=
  decode 0x38#64 = .ok .sin ∧
  ∀ (s : State) (w a b : Word), s.pend = some ⟨w, a, b⟩ →
    ∃ v, exec .sin s = .next (completed s v) ∧
      (let t : Int := a.toInt % 26986075409
       let h : Int := if 13493037704 ≤ t then t - 13493037704 else t
       let f : Int := if 6746518852 < h then 13493037704 - h else h
       let idx : Nat := f.toNat / 2 ^ s.cfg.lutShift
       let m : Int := if 6746518852 / 2 ^ s.cfg.lutShift ≤ idx then 2 ^ 32 else sineEntry s.cfg idx
       (0 ≤ f ∧ f ≤ 6746518852) ∧ v.toInt = if 13493037704 ≤ t then -m else m)

/-- R212 (1), (2), R19 and R221: SIN and COS are bounded by One; SIN and FSIN have the period PI_TIMES_2_RAW wherever
the sum is in range. -/
def Obligations.SineIsBoundedAndPeriodic : Prop :=
  (∀ (cfg : Config) (i : Nat), sineEntry cfg i ≤ 2 ^ 32 ∧ sineEntry cfg 0 = 0) ∧
  (∀ (cfg : Config) (a : Word), |(sinRaw cfg a).toInt| ≤ 2 ^ 32 ∧ |(cosRaw cfg a).toInt| ≤ 2 ^ 32) ∧
  (∀ (cfg : Config) (a b : Word), b.toInt = a.toInt + 26986075409 →
    sinRaw cfg b = sinRaw cfg a ∧ fsinRaw b = fsinRaw a)

/-- R209, R210: the exact values of SIN and COS that R19's two requirements guarantee, at LUT_SHIFT 0. -/
def Obligations.SineAndCosineExactValues : Prop :=
  ∀ cfg : Config, cfg.lutShift = 0 →
    sinRaw cfg 0 = 0 ∧ sinRaw cfg piOver2Raw = oneRaw ∧ sinRaw cfg piRaw = 0 ∧
    sinRaw cfg (piRaw + piOver2Raw) = -oneRaw ∧ sinRaw cfg piTimes2Raw = 0 ∧ sinRaw cfg (-1) = 0 ∧
    cosRaw cfg 0 = oneRaw ∧ cosRaw cfg piRaw = -oneRaw ∧ cosRaw cfg piOver2Raw = 0 ∧ cosRaw cfg (-piOver2Raw) = 0

/-- R210, R211: COS is SIN of the saturating sum with pi/2; TAN is DIV of SIN by COS, errors included. -/
def Obligations.CosAndTanAreBuiltOnSin : Prop :=
  (decode 0x39#64 = .ok .cos ∧ decode 0x3A#64 = .ok .tan) ∧
  ∀ (s : State) (w a b : Word), s.pend = some ⟨w, a, b⟩ →
    (∃ c v, c.toInt = clamp (a.toInt + 6746518852) ∧ exec .cos s = .next (completed s v) ∧
      exec .cos s = exec .sin { s with pend := some ⟨w, c, b⟩ }) ∧
    (∃ x y, exec .sin s = .next (completed s x) ∧ exec .cos s = .next (completed s y) ∧
      exec .tan s = exec .div { s with pend := some ⟨w, x, y⟩ } ∧
      (y = 0 → exec .tan s = .next (failed s 1#3)) ∧
      (y ≠ 0 → ∃ v, exec .tan s = .next (completed s v) ∧ v.toInt = divInt x.toInt y.toInt))

/-! ### Fast trigonometry -/

/-- R220: the parabola and its correction, step by step, for every operand, in [-pi, pi] or not. -/
def Obligations.SinpEvaluatesTheParabola : Prop :=
  decode 0x40#64 = .ok .sinp ∧
  ∀ (s : State) (w a b : Word), s.pend = some ⟨w, a, b⟩ →
    ∃ v, exec .sinp s = .next (completed s v) ∧
      (let p := mulInt 5468522204 a.toInt
       let q := mulInt (mulInt 1740684680 a.toInt) (absInt a.toInt)
       let r := clamp (p - q)
       let u := clamp (mulInt r (absInt r) - r)
       v.toInt = clamp (mulInt 966367641 u + r))

/-- R221, R222: FSIN is SINP of the angle reduced into [-pi, pi]; FCOS is FSIN of the saturating sum with pi/2. -/
def Obligations.FastSineAndCosineReduceToSinp : Prop :=
  (decode 0x41#64 = .ok .fsin ∧ decode 0x42#64 = .ok .fcos) ∧
  ∀ (s : State) (w a b : Word), s.pend = some ⟨w, a, b⟩ →
    (∃ t v, (t.toInt = if 13493037704 < a.toInt % 26986075409 then a.toInt % 26986075409 - 26986075409
        else a.toInt % 26986075409) ∧ |t.toInt| ≤ 13493037704 ∧
      exec .fsin s = .next (completed s v) ∧ exec .fsin s = exec .sinp { s with pend := some ⟨w, t, b⟩ }) ∧
    (∃ c v, c.toInt = clamp (a.toInt + 6746518852) ∧ exec .fcos s = .next (completed s v) ∧
      exec .fcos s = exec .fsin { s with pend := some ⟨w, c, b⟩ })

/-! ### The atan family and its cache -/

/-- R240, R234: ATAN2. On a hit it returns the slot's value and writes no slot. On a miss it computes the cubic
approximation of R230 to R232 and overwrites the pair's slot, and no other; at (0, 0) it raises DIV_BY_ZERO and writes
none, and no sound cache (R42) hits there. -/
def Obligations.Atan2HitsOrComputesAndFillsItsSlot : Prop :=
  decode 0x48#64 = .ok .atan2 ∧
  ∀ (s : State) (w y x : Word), s.pend = some ⟨w, y, x⟩ →
    (let i := atanHash s.cfg y x
     let hit := s.cfg.atanCacheSlots ≠ 0 ∧ (cacheRead s.cache i).valid = true ∧ (cacheRead s.cache i).keyY = y ∧
       (cacheRead s.cache i).keyX = x
     (hit → exec .atan2 s = .next (completed s (cacheRead s.cache i).value)) ∧
     (¬hit → y = 0 ∧ x = 0 → exec .atan2 s = .next (failed s 1#3)) ∧
     (CacheSound s.cache → y = 0 ∧ x = 0 → ¬hit) ∧
     (¬hit → y ≠ 0 ∨ x ≠ 0 → ∃ v c, exec .atan2 s = .next { completed s v with cache := c } ∧
       v.toInt = atan2Int y.toInt x.toInt ∧ (s.cfg.atanCacheSlots = 0 → c = s.cache) ∧
       (s.cfg.atanCacheSlots ≠ 0 → cacheWf s.cache = true →
         cacheRead c i = ⟨true, y, x, v⟩ ∧ ∀ j, j ≠ i → cacheRead c j = cacheRead s.cache j)))

/-- R236: the exact values of ATAN2 on the axes and diagonals, whatever a sound cache holds. -/
def Obligations.Atan2ExactValues : Prop :=
  ∀ (s : State) (w : Word), CacheSound s.cache →
    ∀ row ∈ ([(0, -oneRaw, piRaw), (0, oneRaw, 0), (oneRaw, 0, piOver2Raw), (-oneRaw, 0, -piOver2Raw),
        (oneRaw, oneRaw, piOver4Raw), (oneRaw, -oneRaw, threePiOver4Raw)] : List (Word × Word × Word)),
      s.pend = some ⟨w, row.1, row.2.1⟩ → ∃ c, exec .atan2 s = .next { completed s row.2.2 with cache := c }

/-- R233, R236: for every pair but (0, 0), ATAN2's ratio is in [-One, One] and its angle in [-pi, pi], with the sign of
`y`. -/
def Obligations.Atan2IsBoundedByPi : Prop :=
  ∀ y x v : Word, atan2Value y x = .ok v →
    (∃ r, atanRatio y x = .ok r ∧ |r.toInt| ≤ 2 ^ 32) ∧
    (0 ≤ y.toInt → 0 ≤ v.toInt ∧ v.toInt ≤ 13493037704) ∧ (y.toInt < 0 → -13493037704 ≤ v.toInt ∧ v.toInt ≤ 0)

/-- R244: ATAN is ATAN2 with One as its second operand, cache included, and never raises. -/
def Obligations.AtanIsAtan2OverOne : Prop :=
  decode 0x49#64 = .ok .atan ∧
  ∀ (s : State) (w a b : Word), s.pend = some ⟨w, a, b⟩ →
    exec .atan s = exec .atan2 { s with pend := some ⟨w, a, oneRaw⟩ } ∧
    ∃ v c, exec .atan s = .next { completed s v with cache := c }

/-- R245: ASIN outside [-One, One] by the domain policy, at its ends, and inside by ATAN of `a / sqrt(1 - a*a)`. -/
def Obligations.AsinFollowsItsPolicyAndFormula : Prop :=
  decode 0x4A#64 = .ok .asin ∧
  ∀ (s : State) (w a b : Word), s.pend = some ⟨w, a, b⟩ →
    (2 ^ 32 < a.toInt ∨ a.toInt < -2 ^ 32 →
      (s.cfg.asinPolicy = .zero → exec .asin s = .next (completed s 0)) ∧
      (s.cfg.asinPolicy = .raise → exec .asin s = .next (failed s 3#3))) ∧
    (a.toInt = 2 ^ 32 → ∃ v, exec .asin s = .next (completed s v) ∧ v.toInt = 6746518852) ∧
    (a.toInt = -2 ^ 32 → ∃ v, exec .asin s = .next (completed s v) ∧ v.toInt = -6746518852) ∧
    (-2 ^ 32 < a.toInt ∧ a.toInt < 2 ^ 32 → ∃ r q v c,
      IsRoundedRoot (clamp (2 ^ 32 - mulInt a.toInt a.toInt) * 2 ^ 32) r ∧ 0 < r ∧ q.toInt = divInt a.toInt r ∧
      exec .asin s = exec .atan { s with pend := some ⟨w, q, b⟩ } ∧
      exec .asin s = .next { completed s v with cache := c })

/-- R246: ACOS raises OUT_OF_DOMAIN outside [-One, One] under either policy; inside it is pi/2 less ASIN. -/
def Obligations.AcosIsTheComplementOfAsin : Prop :=
  decode 0x4B#64 = .ok .acos ∧
  ∀ (s : State) (w a b : Word), s.pend = some ⟨w, a, b⟩ →
    (2 ^ 32 < a.toInt ∨ a.toInt < -2 ^ 32 → exec .acos s = .next (failed s 3#3)) ∧
    (-2 ^ 32 ≤ a.toInt ∧ a.toInt ≤ 2 ^ 32 → ∃ v u c, exec .asin s = .next { completed s v with cache := c } ∧
      exec .acos s = .next { completed s u with cache := c } ∧ u.toInt = clamp (6746518852 - v.toInt))

/-- R241: the slot index is below ATAN_CACHE_SLOTS, for the XOR-fold and for any other function; the fold at 4096
slots, written out. -/
def Obligations.AtanHashStaysInRange : Prop :=
  (∀ (cfg : Config) (y x : Word), cfg.atanCacheSlots ≠ 0 → atanHash cfg y x < cfg.atanCacheSlots) ∧
  (∀ (cfg : Config) (y x : Word), cfg.atanHash = .xorFold → cfg.atanCacheSlots = 4096 →
    (let u := (y ^^^ x).toNat
     atanHash cfg y x = u % 2 ^ 12 ^^^ u / 2 ^ 12 % 2 ^ 12 ^^^ u / 2 ^ 24 % 2 ^ 12 ^^^ u / 2 ^ 36 % 2 ^ 12 ^^^
       u / 2 ^ 48 % 2 ^ 12 ^^^ u / 2 ^ 60))

/-! ### Log and pow -/

/-- R250: LOG2's integer exponent, mantissa and 32 squarings; an operand of 0 or below raises OUT_OF_DOMAIN. -/
def Obligations.Log2ExtractsBitsBySquaring : Prop :=
  decode 0x50#64 = .ok .log2 ∧
  ∀ (s : State) (w a b : Word), s.pend = some ⟨w, a, b⟩ →
    (a.toInt ≤ 0 → exec .log2 s = .next (failed s 3#3)) ∧
    (0 < a.toInt → ∃ (v : Word) (p : Nat) (z y : Nat → Int), exec .log2 s = .next (completed s v) ∧
      2 ^ p ≤ a.toInt ∧ a.toInt < 2 ^ (p + 1) ∧ y 0 = ((p : Int) - 32) * 2 ^ 32 ∧
      (z 0 = if 32 ≤ p then a.toInt / 2 ^ (p - 32) else a.toInt * 2 ^ (32 - p)) ∧
      (∀ j < 32,
        (2 ^ 33 ≤ mulInt (z j) (z j) → z (j + 1) = mulInt (z j) (z j) / 2 ∧ y (j + 1) = y j + 2 ^ (31 - j)) ∧
        (mulInt (z j) (z j) < 2 ^ 33 → z (j + 1) = mulInt (z j) (z j) ∧ y (j + 1) = y j)) ∧
      v.toInt = y 32 ∧ -32 * 2 ^ 32 ≤ v.toInt ∧ v.toInt < 31 * 2 ^ 32)

/-- R251: LN is MUL of LOG2 by ln 2, with LOG2's error. -/
def Obligations.LnIsLog2TimesLn2 : Prop :=
  decode 0x51#64 = .ok .ln ∧
  ∀ (s : State) (w a b : Word), s.pend = some ⟨w, a, b⟩ →
    (a.toInt ≤ 0 → exec .ln s = .next (failed s 3#3)) ∧
    (0 < a.toInt → ∃ l v, exec .log2 s = .next (completed s l) ∧ exec .ln s = .next (completed s v) ∧
      v.toInt = mulInt l.toInt 2977044471)

/-- R252: POW2's 32 square roots over the fraction, and the shift by the integer part, saturating to the left and
truncating to the right. -/
def Obligations.Pow2BuildsByRootsAndShifts : Prop :=
  decode 0x52#64 = .ok .pow2 ∧
  ∀ (s : State) (w a b : Word), s.pend = some ⟨w, a, b⟩ →
    ∃ (v : Word) (z : Nat → Int), exec .pow2 s = .next (completed s v) ∧ z 0 = 2 ^ 32 ∧
      (∀ j < 32, IsRoundedRoot ((if a.getLsbD j then 2 * z j else z j) * 2 ^ 32) (z (j + 1)) ∧
        2 ^ 32 ≤ z (j + 1) ∧ z (j + 1) ≤ 2 ^ 33) ∧
      (0 ≤ a.toInt / 2 ^ 32 → v.toInt = clamp (z 32 * 2 ^ (a.toInt / 2 ^ 32).toNat)) ∧
      (a.toInt / 2 ^ 32 < 0 → v.toInt = z 32 / 2 ^ (-(a.toInt / 2 ^ 32)).toNat)

/-- R253: POW's cases in the rule's order; in the last, POW2 of the product of the exponent and LOG2 of the base. -/
def Obligations.PowFollowsItsCases : Prop :=
  decode 0x53#64 = .ok .pow ∧
  ∀ (s : State) (w bs e : Word), s.pend = some ⟨w, bs, e⟩ →
    (e = 0 → exec .pow s = .next (completed s oneRaw)) ∧
    (e ≠ 0 ∧ bs.toInt < 0 → exec .pow s = .next (failed s 3#3)) ∧
    (bs = 0 ∧ e.toInt < 0 → exec .pow s = .next (failed s 1#3)) ∧
    (bs = 0 ∧ 0 < e.toInt → exec .pow s = .next (completed s 0)) ∧
    (e ≠ 0 ∧ 0 < bs.toInt → ∃ l m v, exec .log2 s = .next (completed s l) ∧ m.toInt = mulInt e.toInt l.toInt ∧
      exec .pow s = exec .pow2 { s with pend := some ⟨w, m, e⟩ } ∧ exec .pow s = .next (completed s v))

/-- R254 (1), R250, R252: LOG2 and POW2 are exact on the powers of two; any base to the power 0 is One. -/
def Obligations.LogAndPowExactValues : Prop :=
  (∀ p : Nat, p ≤ 62 → ∃ v, log2Raw (BitVec.ofNat 64 (2 ^ p)) = .ok v ∧ v.toInt = ((p : Int) - 32) * 2 ^ 32) ∧
  (∀ p : Nat, p ≤ 62 → ∃ v, pow2Raw (BitVec.ofInt 64 (((p : Int) - 32) * 2 ^ 32)) = .ok v ∧ v.toInt = 2 ^ p) ∧
  (∀ bs : Word, powRaw bs 0 = .ok oneRaw)

/-! ### The host interface -/

/-- R62, R300: a write of CMD while idle accepts the word with the operands' snapshots and sets BUSY; ERR, RES and the
cache keep their values, and at least one cycle is to pass before the completion. That the latency is drawn here for the
count of accepted commands, and that its first cycle is that of a host access, is log entry 4's choice. -/
def Obligations.CmdWriteIssuesACommand : Prop :=
  ∀ (s : State) (w : Word) (rest : List Input), s.busy = false → s.inbox = .write 0x10 8 w :: rest →
    ∃ n, 1 ≤ n ∧ step s = .next
      { s with
        pend := some ⟨w, s.opa, s.opb⟩
        busy := true
        wait := n
        accessed := false
        issued := s.issued + 1
        inbox := rest
        replies := s.replies ++ [.done] }

/-- R300 to R302: the first access after a CMD write comes before the completion, however late it comes: it sees BUSY, the
old RES and ERR, and its writes are lost. Where no access comes, the core stays as it is for any number of steps: that a
command of a silent host never completes is log entry 4's reading of R300's "always at least one host access". -/
def Obligations.FirstAccessAfterCmdSeesBusy : Prop :=
  ∀ (s : State) (w : Word) (later : List Input), s.busy = false → s.inbox = .write 0x10 8 w :: later →
    ∃ t, step s = .next t ∧ t.inbox = later ∧ t.replies = s.replies ++ [.done] ∧
      (later = [] → ∀ n, Host.Core.run Sys2Proof.core n t = .next t) ∧
      ∀ (j : Input) (rest : List Input), j.wf = true → j ≠ .reset →
        ∃ u, step { t with inbox := j :: rest } = .next u ∧ u.inbox = rest ∧ u.busy = true ∧
          u.pend = some ⟨w, s.opa, s.opb⟩ ∧ u.opa = s.opa ∧ u.opb = s.opb ∧ u.res = s.res ∧ u.err = s.err ∧
          u.cache = s.cache ∧
          (j = .read 0x20 8 → u.replies = t.replies ++ [.data (BitVec.ofNat 64 (2 * s.err.toNat + 1))]) ∧
          (j = .read 0x18 8 → u.replies = t.replies ++ [.data s.res])

/-- A command in flight whose first access has come completes after the rest of its latency where no further input comes,
and BUSY is 0 then. That this takes exactly `wait + 1` steps under a silent host is log entry 4's choice: R300 leaves the
scheduling open and asks only that the completion comes in the end. -/
def Obligations.CommandsCompleteAfterTheirLatency : Prop :=
  ∀ (s : State) (p : Pending), s.busy = true → s.pend = some p → s.accessed = true → s.inbox = [] →
    ∃ t, Host.Core.run Sys2Proof.core (s.wait + 1) s = .next t ∧ t.busy = false ∧ t.opa = s.opa ∧ t.opb = s.opb ∧
      completion { s with wait := 0 } p.w = .next t

/-- R63, R64: a write of any register while BUSY is 1 changes no state of the core and completes without error; it passes
one cycle of the latency, and counts as the access that R300 asks for (log entry 4). -/
def Obligations.WritesWhileBusyAreIgnored : Prop :=
  ∀ (s : State) (p : Pending) (off : Nat) (v : Word) (rest : List Input), s.busy = true → s.pend = some p →
    portOpen s → off ∈ [0x00, 0x08, 0x10, 0x18, 0x20, 0x28] → s.inbox = .write off 8 v :: rest →
    step s = .next
      { s with wait := s.wait - 1, accessed := true, inbox := rest, replies := s.replies ++ [.done] }

/-- R61, R64, R286: while idle, all state holds its value where no input comes; a write sets OPA or OPB, RES and STATUS
ignore it, and CTRL with bit 0 = 0 does nothing. -/
def Obligations.IdleWritesSetTheOperands : Prop :=
  ∀ (s : State) (v : Word) (rest : List Input), s.busy = false →
    (s.inbox = [] → step s = .next s) ∧
    (s.inbox = .write 0x00 8 v :: rest →
      step s = .next { s with opa := v, inbox := rest, replies := s.replies ++ [.done] }) ∧
    (s.inbox = .write 0x08 8 v :: rest →
      step s = .next { s with opb := v, inbox := rest, replies := s.replies ++ [.done] }) ∧
    (∀ off ∈ [0x18, 0x20], s.inbox = .write off 8 v :: rest →
      step s = .next { s with inbox := rest, replies := s.replies ++ [.done] }) ∧
    (s.inbox = .write 0x28 8 v :: rest → v.getLsbD 0 = false →
      step s = .next { s with inbox := rest, replies := s.replies ++ [.done] })

/-- R242: CACHE_INV while idle clears every slot's valid bit in one step, leaves its other fields, and has no other
effect. -/
def Obligations.CacheInvClearsEveryValidBit : Prop :=
  ∀ (s : State) (v : Word) (rest : List Input), s.busy = false → cacheWf s.cache = true →
    s.inbox = .write 0x28 8 v :: rest → v.getLsbD 0 = true →
    ∃ c, step s = .next { s with cache := c, inbox := rest, replies := s.replies ++ [.done] } ∧
      ∀ i, cacheRead c i = { cacheRead s.cache i with valid := false }

/-- R61, R35, R64, R68: what a read of each register returns, while idle and while a command is in flight; a read
changes no state of the core. That a read served while a command is in flight passes exactly one cycle of the latency, and
counts as the access that R300 asks for, is log entry 4's choice. -/
def Obligations.ReadsReturnTheRegisters : Prop :=
  ∀ (s : State) (off : Nat) (rest : List Input), portOpen s → s.inbox = .read off 8 :: rest →
    ∀ row ∈ [(0x00, s.opa), (0x08, s.opb), (0x10, 0), (0x18, s.res),
        (0x20, BitVec.ofNat 64 (2 * s.err.toNat + s.busy.toNat)), (0x28, 0)],
      off = row.1 →
        step s = .next
          { s with
            wait := s.wait - (s.busy && s.pend.isSome).toNat
            accessed := s.accessed || (s.busy && s.pend.isSome)
            inbox := rest
            replies := s.replies ++ [.data row.2] }

/-- R65, R66, R77, R79: a step faults exactly when the access it serves is not an 8-byte read or write at a mapped
multiple of 8. An offset of 0x40 or more, which no address of the block has, counts as unmapped (log entry 6). That a
completion that is due comes before the access at the port is log entry 4's choice. No step refuses. -/
def Obligations.BusErrorsAreExactlyTheIllegalAccesses : Prop :=
  (∀ s : State, (∃ f, step s = .fault f) ↔ portOpen s ∧ ∃ i rest, s.inbox = i :: rest ∧
    (match i with
      | .read off width | .write off width _ => width ≠ 8 ∨ off % 8 ≠ 0 ∨ 0x30 ≤ off
      | .atomic _ _ => True
      | .reset => False)) ∧
  (∀ (s : State) (r : Refusal), step s ≠ .refused r)

/-- R67: byte `k` of a register in the host's view is its bits `8k+7 : 8k`. -/
def Obligations.RegisterBytesAreLittleEndian : Prop :=
  ∀ (s : State) (k : Nat), k < 8 →
    ∀ row ∈ [(0x00, s.opa), (0x08, s.opb), (0x10, 0), (0x18, s.res), (0x20, statusWord s), (0x28, 0)],
      blockByte s (row.1 + k) = some (BitVec.ofNat 8 (row.2.toNat / 2 ^ (8 * k)))
end

