-- ==== Sys2Proof/Laws/Cache.lean ====
section
/-!
SUPPORT. The atan cache as data: every operation keeps the canonical form, a read after a write gives the slot written
and leaves the other slots alone, and invalidation clears valid bits only.
-/

namespace Sys2Proof.Machine

/-- The canonical form of a cache with a first entry. -/
theorem cacheWf_cons (j : Nat) (sl : CacheSlot) (c : Cache) :
    cacheWf ((j, sl) :: c) = true ↔ (∀ e ∈ c, j < e.1) ∧ sl ≠ CacheSlot.blank ∧ cacheWf c = true := by
  simp only [cacheWf, List.pairwise_cons, List.all_cons, Bool.and_eq_true, decide_eq_true_eq, bne_iff_ne, ne_eq]
  tauto

@[simp] theorem cacheWf_nil : cacheWf [] = true := by decide

@[simp] theorem cacheRead_nil (i : Nat) : cacheRead [] i = CacheSlot.blank := rfl

/-- A slot below every listed one is unlisted. -/
theorem cacheRead_of_lt {c : Cache} {i : Nat} (h : ∀ e ∈ c, i < e.1) : cacheRead c i = CacheSlot.blank := by
  induction c with
  | nil => rfl
  | cons e c ih =>
    have he := h e (by simp)
    rw [cacheRead, if_neg (by omega), ih fun f hf => h f (by simp [hf])]

theorem cacheRead_cacheCons {c : Cache} {i : Nat} (h : ∀ e ∈ c, i < e.1) (sl : CacheSlot) (j : Nat) :
    cacheRead (cacheCons i sl c) j = if j = i then sl else cacheRead c j := by
  unfold cacheCons
  split_ifs with hb hj hj
  · rw [hb, hj]; exact cacheRead_of_lt h
  · rfl
  · simp [cacheRead, hj]
  · simp [cacheRead, hj]

theorem mem_cacheCons {i : Nat} {sl : CacheSlot} {c : Cache} {e : Nat × CacheSlot} (h : e ∈ cacheCons i sl c) :
    e = (i, sl) ∨ e ∈ c := by
  unfold cacheCons at h; split_ifs at h <;> simp_all

theorem cacheCons_wf {c : Cache} {i : Nat} (h : ∀ e ∈ c, i < e.1) (sl : CacheSlot) (hc : cacheWf c = true) :
    cacheWf (cacheCons i sl c) = true := by
  unfold cacheCons
  split_ifs with hb
  · exact hc
  · exact (cacheWf_cons i sl c).2 ⟨h, hb, hc⟩

theorem mem_cacheWrite {c : Cache} {i : Nat} {sl : CacheSlot} {e : Nat × CacheSlot} (h : e ∈ cacheWrite c i sl) :
    e = (i, sl) ∨ e ∈ c := by
  induction c with
  | nil => simpa using mem_cacheCons h
  | cons f c ih =>
    obtain ⟨j, sj⟩ := f
    unfold cacheWrite at h
    split_ifs at h with h₁ h₂
    · exact mem_cacheCons h
    · rcases mem_cacheCons h with h | h <;> simp [h]
    · rcases List.mem_cons.1 h with h | h
      · simp [h]
      · rcases ih h with h | h <;> simp [h]

/-- `CacheWrite` keeps the canonical form. -/
theorem cacheWrite_wf {c : Cache} (i : Nat) (sl : CacheSlot) (hc : cacheWf c = true) :
    cacheWf (cacheWrite c i sl) = true := by
  induction c with
  | nil => exact cacheCons_wf (by simp) sl hc
  | cons f c ih =>
    obtain ⟨j, sj⟩ := f
    obtain ⟨hlt, hb, hwf⟩ := (cacheWf_cons j sj c).1 hc
    unfold cacheWrite
    split_ifs with h₁ h₂
    · refine cacheCons_wf ?_ sl hc
      rintro e he
      rcases List.mem_cons.1 he with rfl | he
      · exact h₁
      · exact h₁.trans (hlt e he)
    · exact cacheCons_wf (h₂ ▸ hlt) sl hwf
    · refine (cacheWf_cons _ _ _).2 ⟨fun e he => ?_, hb, ih hwf⟩
      rcases mem_cacheWrite he with rfl | he
      · show j < i; omega
      · exact hlt e he

/-- A read after a `CacheWrite`: the slot written reads as what was written, every other slot as before (R75). -/
theorem cacheRead_cacheWrite {c : Cache} (hc : cacheWf c = true) (i : Nat) (sl : CacheSlot) (j : Nat) :
    cacheRead (cacheWrite c i sl) j = if j = i then sl else cacheRead c j := by
  induction c with
  | nil => exact cacheRead_cacheCons (by simp) sl j
  | cons f c ih =>
    obtain ⟨k, sk⟩ := f
    obtain ⟨hlt, hb, hwf⟩ := (cacheWf_cons k sk c).1 hc
    have hlt' : i < k → ∀ e ∈ (k, sk) :: c, i < e.1 := by
      rintro h e he
      rcases List.mem_cons.1 he with rfl | he
      · exact h
      · exact h.trans (hlt e he)
    rw [cacheWrite]
    by_cases h₁ : i < k
    · rw [if_pos h₁, cacheRead_cacheCons (hlt' h₁)]
    · rw [if_neg h₁]
      by_cases h₂ : i = k
      · subst h₂
        rw [if_pos rfl, cacheRead_cacheCons hlt, cacheRead]
        split_ifs <;> rfl
      · rw [if_neg h₂, cacheRead, cacheRead, ih hwf]
        split_ifs <;> first | rfl | omega

theorem mem_cacheInvalidate {c : Cache} {e : Nat × CacheSlot} (h : e ∈ cacheInvalidate c) :
    ∃ f ∈ c, e = (f.1, { f.2 with valid := false }) := by
  induction c with
  | nil => simp [cacheInvalidate] at h
  | cons f c ih =>
    rcases mem_cacheCons h with h | h
    · exact ⟨f, by simp, h⟩
    · obtain ⟨g, hg, he⟩ := ih h
      exact ⟨g, by simp [hg], he⟩

theorem lt_of_mem_cacheInvalidate {c : Cache} {j : Nat} (h : ∀ e ∈ c, j < e.1) : ∀ e ∈ cacheInvalidate c, j < e.1 := by
  intro e he
  obtain ⟨f, hf, rfl⟩ := mem_cacheInvalidate he
  exact h f hf

/-- Invalidation keeps the canonical form. -/
theorem cacheInvalidate_wf {c : Cache} (hc : cacheWf c = true) : cacheWf (cacheInvalidate c) = true := by
  induction c with
  | nil => exact hc
  | cons f c ih =>
    obtain ⟨hlt, -, hwf⟩ := (cacheWf_cons f.1 f.2 c).1 hc
    exact cacheCons_wf (lt_of_mem_cacheInvalidate hlt) _ (ih hwf)

/-- A read after an invalidation: the valid bit cleared, the other fields as they were (R242). -/
theorem cacheRead_cacheInvalidate {c : Cache} (hc : cacheWf c = true) (i : Nat) :
    cacheRead (cacheInvalidate c) i = { cacheRead c i with valid := false } := by
  induction c with
  | nil => rfl
  | cons f c ih =>
    obtain ⟨hlt, -, hwf⟩ := (cacheWf_cons f.1 f.2 c).1 hc
    simp only [cacheInvalidate, cacheRead]
    rw [cacheRead_cacheCons (lt_of_mem_cacheInvalidate hlt), ih hwf]
    split_ifs <;> rfl

/-- The reset cache is in canonical form. -/
theorem reset_cache_wf : cacheWf State.reset.cache = true := by decide

end Sys2Proof.Machine
end

