-- ==== Sys2Proof/Laws/State.lean ====
section
/-!
SUPPORT. The fields of each named update of the state, one lemma per field, all by definition, so that no later proof
unfolds a record update.
-/

namespace Sys2Proof.Machine

theorem finishOk_opa (s : State) (v : Word) : (finishOk s v).opa = s.opa := rfl
theorem finishOk_opb (s : State) (v : Word) : (finishOk s v).opb = s.opb := rfl
theorem finishOk_res (s : State) (v : Word) : (finishOk s v).res = v := rfl
theorem finishOk_busy (s : State) (v : Word) : (finishOk s v).busy = false := rfl
theorem finishOk_err (s : State) (v : Word) : (finishOk s v).err = 0#3 := rfl
theorem finishOk_pend (s : State) (v : Word) : (finishOk s v).pend = none := rfl
theorem finishOk_cache (s : State) (v : Word) : (finishOk s v).cache = s.cache := rfl
theorem finishOk_cfg (s : State) (v : Word) : (finishOk s v).cfg = s.cfg := rfl
theorem finishOk_wait (s : State) (v : Word) : (finishOk s v).wait = s.wait := rfl
theorem finishOk_accessed (s : State) (v : Word) : (finishOk s v).accessed = s.accessed := rfl
theorem finishOk_issued (s : State) (v : Word) : (finishOk s v).issued = s.issued := rfl
theorem finishOk_inbox (s : State) (v : Word) : (finishOk s v).inbox = s.inbox := rfl
theorem finishOk_replies (s : State) (v : Word) : (finishOk s v).replies = s.replies := rfl

theorem finishError_opa (s : State) (e : CommandError) : (finishError s e).opa = s.opa := rfl
theorem finishError_opb (s : State) (e : CommandError) : (finishError s e).opb = s.opb := rfl
theorem finishError_res (s : State) (e : CommandError) : (finishError s e).res = s.res := rfl
theorem finishError_busy (s : State) (e : CommandError) : (finishError s e).busy = false := rfl
theorem finishError_err (s : State) (e : CommandError) : (finishError s e).err = e.code := rfl
theorem finishError_pend (s : State) (e : CommandError) : (finishError s e).pend = none := rfl
theorem finishError_cache (s : State) (e : CommandError) : (finishError s e).cache = s.cache := rfl
theorem finishError_cfg (s : State) (e : CommandError) : (finishError s e).cfg = s.cfg := rfl
theorem finishError_wait (s : State) (e : CommandError) : (finishError s e).wait = s.wait := rfl
theorem finishError_accessed (s : State) (e : CommandError) : (finishError s e).accessed = s.accessed := rfl
theorem finishError_issued (s : State) (e : CommandError) : (finishError s e).issued = s.issued := rfl
theorem finishError_inbox (s : State) (e : CommandError) : (finishError s e).inbox = s.inbox := rfl
theorem finishError_replies (s : State) (e : CommandError) : (finishError s e).replies = s.replies := rfl

@[simp] theorem acceptCommand_opa (s : State) (w : Word) : (acceptCommand s w).opa = s.opa := rfl
@[simp] theorem acceptCommand_opb (s : State) (w : Word) : (acceptCommand s w).opb = s.opb := rfl
@[simp] theorem acceptCommand_res (s : State) (w : Word) : (acceptCommand s w).res = s.res := rfl
@[simp] theorem acceptCommand_busy (s : State) (w : Word) : (acceptCommand s w).busy = true := rfl
@[simp] theorem acceptCommand_err (s : State) (w : Word) : (acceptCommand s w).err = s.err := rfl
@[simp] theorem acceptCommand_pend (s : State) (w : Word) : (acceptCommand s w).pend = some ⟨w, s.opa, s.opb⟩ := rfl
@[simp] theorem acceptCommand_cache (s : State) (w : Word) : (acceptCommand s w).cache = s.cache := rfl
@[simp] theorem acceptCommand_cfg (s : State) (w : Word) : (acceptCommand s w).cfg = s.cfg := rfl
@[simp] theorem acceptCommand_wait (s : State) (w : Word) : (acceptCommand s w).wait = latency s w := rfl
@[simp] theorem acceptCommand_accessed (s : State) (w : Word) : (acceptCommand s w).accessed = false := rfl
@[simp] theorem acceptCommand_issued (s : State) (w : Word) : (acceptCommand s w).issued = s.issued + 1 := rfl
@[simp] theorem acceptCommand_inbox (s : State) (w : Word) : (acceptCommand s w).inbox = s.inbox := rfl
@[simp] theorem acceptCommand_replies (s : State) (w : Word) : (acceptCommand s w).replies = s.replies := rfl

@[simp] theorem resetEvent_opa (s : State) : (resetEvent s).opa = 0 := rfl
@[simp] theorem resetEvent_opb (s : State) : (resetEvent s).opb = 0 := rfl
@[simp] theorem resetEvent_res (s : State) : (resetEvent s).res = 0 := rfl
@[simp] theorem resetEvent_busy (s : State) : (resetEvent s).busy = false := rfl
@[simp] theorem resetEvent_err (s : State) : (resetEvent s).err = 0 := rfl
@[simp] theorem resetEvent_pend (s : State) : (resetEvent s).pend = none := rfl
@[simp] theorem resetEvent_cache (s : State) : (resetEvent s).cache = [] := rfl
@[simp] theorem resetEvent_cfg (s : State) : (resetEvent s).cfg = s.cfg := rfl
@[simp] theorem resetEvent_wait (s : State) : (resetEvent s).wait = 0 := rfl
@[simp] theorem resetEvent_accessed (s : State) : (resetEvent s).accessed = false := rfl
@[simp] theorem resetEvent_issued (s : State) : (resetEvent s).issued = s.issued := rfl
@[simp] theorem resetEvent_inbox (s : State) : (resetEvent s).inbox = s.inbox := rfl
@[simp] theorem resetEvent_replies (s : State) : (resetEvent s).replies = s.replies := rfl

@[simp] theorem answer_opa (s : State) (r : Reply) : (answer s r).opa = s.opa := rfl
@[simp] theorem answer_opb (s : State) (r : Reply) : (answer s r).opb = s.opb := rfl
@[simp] theorem answer_res (s : State) (r : Reply) : (answer s r).res = s.res := rfl
@[simp] theorem answer_busy (s : State) (r : Reply) : (answer s r).busy = s.busy := rfl
@[simp] theorem answer_err (s : State) (r : Reply) : (answer s r).err = s.err := rfl
@[simp] theorem answer_pend (s : State) (r : Reply) : (answer s r).pend = s.pend := rfl
@[simp] theorem answer_cache (s : State) (r : Reply) : (answer s r).cache = s.cache := rfl
@[simp] theorem answer_cfg (s : State) (r : Reply) : (answer s r).cfg = s.cfg := rfl
@[simp] theorem answer_wait (s : State) (r : Reply) : (answer s r).wait = s.wait := rfl
@[simp] theorem answer_accessed (s : State) (r : Reply) : (answer s r).accessed = s.accessed := rfl
@[simp] theorem answer_issued (s : State) (r : Reply) : (answer s r).issued = s.issued := rfl
@[simp] theorem answer_inbox (s : State) (r : Reply) : (answer s r).inbox = s.inbox := rfl
@[simp] theorem answer_replies (s : State) (r : Reply) : (answer s r).replies = s.replies ++ [r] := rfl

@[simp] theorem completed_opa (s : State) (v : Word) : (completed s v).opa = s.opa := rfl
@[simp] theorem completed_opb (s : State) (v : Word) : (completed s v).opb = s.opb := rfl
@[simp] theorem completed_res (s : State) (v : Word) : (completed s v).res = v := rfl
@[simp] theorem completed_busy (s : State) (v : Word) : (completed s v).busy = false := rfl
@[simp] theorem completed_err (s : State) (v : Word) : (completed s v).err = 0#3 := rfl
@[simp] theorem completed_pend (s : State) (v : Word) : (completed s v).pend = none := rfl
@[simp] theorem completed_cache (s : State) (v : Word) : (completed s v).cache = s.cache := rfl
@[simp] theorem completed_cfg (s : State) (v : Word) : (completed s v).cfg = s.cfg := rfl
@[simp] theorem completed_wait (s : State) (v : Word) : (completed s v).wait = s.wait := rfl
@[simp] theorem completed_accessed (s : State) (v : Word) : (completed s v).accessed = s.accessed := rfl
@[simp] theorem completed_issued (s : State) (v : Word) : (completed s v).issued = s.issued := rfl
@[simp] theorem completed_inbox (s : State) (v : Word) : (completed s v).inbox = s.inbox := rfl
@[simp] theorem completed_replies (s : State) (v : Word) : (completed s v).replies = s.replies := rfl

@[simp] theorem failed_opa (s : State) (c : BitVec 3) : (failed s c).opa = s.opa := rfl
@[simp] theorem failed_opb (s : State) (c : BitVec 3) : (failed s c).opb = s.opb := rfl
@[simp] theorem failed_res (s : State) (c : BitVec 3) : (failed s c).res = s.res := rfl
@[simp] theorem failed_busy (s : State) (c : BitVec 3) : (failed s c).busy = false := rfl
@[simp] theorem failed_err (s : State) (c : BitVec 3) : (failed s c).err = c := rfl
@[simp] theorem failed_pend (s : State) (c : BitVec 3) : (failed s c).pend = none := rfl
@[simp] theorem failed_cache (s : State) (c : BitVec 3) : (failed s c).cache = s.cache := rfl
@[simp] theorem failed_cfg (s : State) (c : BitVec 3) : (failed s c).cfg = s.cfg := rfl
@[simp] theorem failed_wait (s : State) (c : BitVec 3) : (failed s c).wait = s.wait := rfl
@[simp] theorem failed_accessed (s : State) (c : BitVec 3) : (failed s c).accessed = s.accessed := rfl
@[simp] theorem failed_issued (s : State) (c : BitVec 3) : (failed s c).issued = s.issued := rfl
@[simp] theorem failed_inbox (s : State) (c : BitVec 3) : (failed s c).inbox = s.inbox := rfl
@[simp] theorem failed_replies (s : State) (c : BitVec 3) : (failed s c).replies = s.replies := rfl

@[simp] theorem State.withFetchWord_opa (s : State) (n w : Nat) : (s.withFetchWord n w).opa = s.opa := rfl
@[simp] theorem State.withFetchWord_opb (s : State) (n w : Nat) : (s.withFetchWord n w).opb = s.opb := rfl
@[simp] theorem State.withFetchWord_res (s : State) (n w : Nat) : (s.withFetchWord n w).res = s.res := rfl
@[simp] theorem State.withFetchWord_busy (s : State) (n w : Nat) : (s.withFetchWord n w).busy = true := rfl
@[simp] theorem State.withFetchWord_err (s : State) (n w : Nat) : (s.withFetchWord n w).err = s.err := rfl
@[simp] theorem State.withFetchWord_pend (s : State) (n w : Nat) : (s.withFetchWord n w).pend = some ⟨commandWord n w, s.opa, s.opb⟩ := rfl
@[simp] theorem State.withFetchWord_cache (s : State) (n w : Nat) : (s.withFetchWord n w).cache = s.cache := rfl
@[simp] theorem State.withFetchWord_cfg (s : State) (n w : Nat) : (s.withFetchWord n w).cfg = s.cfg := rfl
@[simp] theorem State.withFetchWord_wait (s : State) (n w : Nat) : (s.withFetchWord n w).wait = 0 := rfl
@[simp] theorem State.withFetchWord_accessed (s : State) (n w : Nat) : (s.withFetchWord n w).accessed = true := rfl
@[simp] theorem State.withFetchWord_issued (s : State) (n w : Nat) : (s.withFetchWord n w).issued = s.issued := rfl
@[simp] theorem State.withFetchWord_inbox (s : State) (n w : Nat) : (s.withFetchWord n w).inbox = s.inbox := rfl
@[simp] theorem State.withFetchWord_replies (s : State) (n w : Nat) : (s.withFetchWord n w).replies = s.replies := rfl

@[simp] theorem withoutCache_opa (s : State) : (withoutCache s).opa = s.opa := rfl
@[simp] theorem withoutCache_opb (s : State) : (withoutCache s).opb = s.opb := rfl
@[simp] theorem withoutCache_res (s : State) : (withoutCache s).res = s.res := rfl
@[simp] theorem withoutCache_busy (s : State) : (withoutCache s).busy = s.busy := rfl
@[simp] theorem withoutCache_err (s : State) : (withoutCache s).err = s.err := rfl
@[simp] theorem withoutCache_pend (s : State) : (withoutCache s).pend = s.pend := rfl
@[simp] theorem withoutCache_cache (s : State) : (withoutCache s).cache = [] := rfl
@[simp] theorem withoutCache_cfg (s : State) : (withoutCache s).cfg = { s.cfg with atanCacheSlots := 0 } := rfl
@[simp] theorem withoutCache_wait (s : State) : (withoutCache s).wait = s.wait := rfl
@[simp] theorem withoutCache_accessed (s : State) : (withoutCache s).accessed = s.accessed := rfl
@[simp] theorem withoutCache_issued (s : State) : (withoutCache s).issued = s.issued := rfl
@[simp] theorem withoutCache_inbox (s : State) : (withoutCache s).inbox = s.inbox := rfl
@[simp] theorem withoutCache_replies (s : State) : (withoutCache s).replies = s.replies := rfl

/-- The meaning's own success state is the statements' one. -/
@[simp] theorem finishOk_eq_completed (s : State) (v : Word) : finishOk s v = completed s v := rfl

/-- The meaning's own error state is the statements' one. -/
@[simp] theorem finishError_eq_failed (s : State) (e : CommandError) : finishError s e = failed s e.code := rfl

@[simp] theorem code_divByZero : CommandError.divByZero.code = 1#3 := rfl
@[simp] theorem code_negSqrtArg : CommandError.negSqrtArg.code = 2#3 := rfl
@[simp] theorem code_outOfDomain : CommandError.outOfDomain.code = 3#3 := rfl
@[simp] theorem code_illegalOpcode : CommandError.illegalOpcode.code = 4#3 := rfl

/-- Every error code is one of R271's assigned codes. -/
theorem code_le_four (e : CommandError) : e.code.toNat ≤ 4 := by cases e <;> decide

end Sys2Proof.Machine
end

