-- ==== Sys2Proof/Laws/Ops.lean ====
section
/-!
SUPPORT. What each shared operation can do, said once: ending a command, an access at the port, a served input, and the
step itself.
-/

namespace Sys2Proof.Machine

/-! ### Ending a command -/

@[simp] theorem finish_ok (s : State) (v : Word) : finish s (.ok v) = .next (completed s v) := rfl

@[simp] theorem finish_error (s : State) (e : CommandError) : finish s (.error e) = .next (failed s e.code) := rfl

@[simp] theorem finishCached_ok (s : State) (v : Word) (c : Cache) :
    finishCached s (.ok (v, c)) = .next { completed s v with cache := c } := rfl

@[simp] theorem finishCached_error (s : State) (e : CommandError) :
    finishCached s (.error e) = .next (failed s e.code) := rfl

/-- `finish` always answers a next state: a result or an error (R45). -/
theorem finish_cases (s : State) (r : Except CommandError Word) :
    (∃ v, r = .ok v ∧ finish s r = .next (completed s v)) ∨ (∃ e, r = .error e ∧ finish s r = .next (failed s e.code)) := by
  cases r <;> simp

/-- `finishCached` always answers a next state: a result with its cache, or an error (R45, R272). -/
theorem finishCached_cases (s : State) (r : Except CommandError (Word × Cache)) :
    (∃ v c, r = .ok (v, c) ∧ finishCached s r = .next { completed s v with cache := c }) ∨
      (∃ e, r = .error e ∧ finishCached s r = .next (failed s e.code)) := by
  rcases r with e | ⟨v, c⟩ <;> simp

/-- Ending a command drops the pending command, so it does not matter which one stood there (R45). -/
theorem finish_with_pend (s : State) (p : Option Pending) (r : Except CommandError Word) :
    finish { s with pend := p } r = finish s r := by cases r <;> rfl

theorem finishCached_with_pend (s : State) (p : Option Pending) (r : Except CommandError (Word × Cache)) :
    finishCached { s with pend := p } r = finishCached s r := by rcases r with e | ⟨v, c⟩ <;> rfl

/-! ### Access to the cache by ATAN2 -/

/-- What ATAN2 can do (R240): raise what ATAN2_VALUE raises, compute without a cache, hit, or miss and overwrite. -/
theorem atan2Cached_cases (cfg : Config) (c : Cache) (y x : Word) :
    (∃ e, atan2Value y x = .error e ∧ atan2Cached cfg c y x = .error e) ∨
    (∃ v, atan2Value y x = .ok v ∧ cfg.atanCacheSlots = 0 ∧ atan2Cached cfg c y x = .ok (v, c)) ∨
    (cfg.atanCacheSlots ≠ 0 ∧ (cacheRead c (atanHash cfg y x)).valid = true ∧
      (cacheRead c (atanHash cfg y x)).keyY = y ∧ (cacheRead c (atanHash cfg y x)).keyX = x ∧
      atan2Cached cfg c y x = .ok ((cacheRead c (atanHash cfg y x)).value, c)) ∨
    (∃ v, atan2Value y x = .ok v ∧ cfg.atanCacheSlots ≠ 0 ∧
      atan2Cached cfg c y x = .ok (v, cacheWrite c (atanHash cfg y x) ⟨true, y, x, v⟩)) := by
  unfold atan2Cached
  by_cases h0 : cfg.atanCacheSlots = 0
  · rw [if_pos h0]; cases hv : atan2Value y x <;> simp [h0]
  · simp only [if_neg h0]
    by_cases hit : (cacheRead c (atanHash cfg y x)).valid = true ∧ (cacheRead c (atanHash cfg y x)).keyY = y ∧
        (cacheRead c (atanHash cfg y x)).keyX = x
    · rw [if_pos hit]; exact .inr (.inr (.inl ⟨h0, hit.1, hit.2.1, hit.2.2, rfl⟩))
    · rw [if_neg hit]; cases hv : atan2Value y x <;> simp [h0]

/-! ### The port -/

/-- An access gets a register only if it is 8 bytes wide at the offset of that register (R61, R65, R66). -/
theorem accessReg_ok {offset width : Nat} {r : Reg} (h : accessReg offset width = .ok r) :
    width = 8 ∧ regAt offset = some r := by
  unfold accessReg at h
  split_ifs at h with h₁ h₂
  split at h <;> simp_all

/-- What one input at the port can do, when it is no bus error (R61 to R64, R294). -/
theorem serveInput_cases {s t : State} {i : Input} (h : serveInput s i = .next t) :
    (∃ off r, i = .read off 8 ∧ regAt off = some r ∧ t = answer s (.data (readReg s r))) ∨
    (∃ off r v, i = .write off 8 v ∧ regAt off = some r ∧ t = answer (writeReg s r v) .done) ∨
    (i = .reset ∧ t = resetEvent s) := by
  cases i with
  | read off w =>
    simp only [serveInput] at h
    split at h
    · rename_i r hr
      obtain ⟨rfl, hreg⟩ := accessReg_ok hr
      exact .inl ⟨off, r, rfl, hreg, by simpa using h.symm⟩
    · cases h
  | write off w v =>
    simp only [serveInput] at h
    split at h
    · rename_i r hr
      obtain ⟨rfl, hreg⟩ := accessReg_ok hr
      exact .inr (.inl ⟨off, r, v, rfl, hreg, by simpa using h.symm⟩)
    · cases h
  | atomic off w => cases h
  | reset => exact .inr (.inr ⟨rfl, by simpa [serveInput] using h.symm⟩)

/-- What a register write can do: nothing, set an operand, issue a command, invalidate the cache (R61 to R64). -/
theorem writeReg_cases (s : State) (r : Reg) (v : Word) :
    writeReg s r v = s ∨
    (s.busy = false ∧ (writeReg s r v = { s with opa := v } ∨ writeReg s r v = { s with opb := v } ∨
      writeReg s r v = acceptCommand s v ∨ writeReg s r v = { s with cache := cacheInvalidate s.cache })) := by
  cases hb : s.busy
  · cases r
    case ctrl =>
      have h : writeReg s .ctrl v = if v.getLsbD 0 then { s with cache := cacheInvalidate s.cache } else s := by
        simp [writeReg, hb, writeCtrl]
      rw [h]
      cases v.getLsbD 0
      · exact .inl rfl
      · exact .inr ⟨rfl, .inr (.inr (.inr (by simp [hb])))⟩
    all_goals simp [writeReg, hb]
  · simp [writeReg, hb]

/-- What serving the port can do: nothing where no input stands there, else one input (R69, R286). -/
theorem serve_cases {s t : State} (h : serve s = .next t) :
    (s.inbox = [] ∧ t = s) ∨ (∃ i rest, s.inbox = i :: rest ∧ serveInput { s with inbox := rest } i = .next t) := by
  unfold serve at h
  split at h
  · rename_i h0; exact .inl ⟨h0, by simpa using h.symm⟩
  · rename_i i rest h0; exact .inr ⟨i, rest, h0, h⟩

/-! ### The step -/

/-- The completion is due once a host access has come and the latency is over (R300). -/
theorem due_iff (s : State) : due s = true ↔ s.accessed = true ∧ s.wait = 0 := by simp [due]


theorem inFlight_of_busy {s : State} (h : s.busy = true) : inFlight s = s.pend := by simp [inFlight, h]

theorem inFlight_of_idle {s : State} (h : s.busy = false) : inFlight s = none := by simp [inFlight, h]

/-- What the completion step can do (R45, R96): run the command decoded, or complete with ILLEGAL_OPCODE. -/
theorem completion_cases (s : State) (w : Word) :
    (∃ i, decode w = .ok i ∧ completion s w = exec i s) ∨
    (∃ e, decode w = .error e ∧ completion s w = .next (failed s 4#3)) := by
  unfold completion
  cases h : decode w <;> simp

/-- What a cycle of a command in flight can do: nothing before its first access comes, else serve the port (R300). -/
theorem latencyCycle_cases (s : State) :
    (s.accessed = false ∧ s.inbox = [] ∧ latencyCycle s = .next s) ∨
    ((s.accessed = true ∨ s.inbox ≠ []) ∧ latencyCycle s = serve { s with wait := s.wait - 1, accessed := true }) := by
  unfold latencyCycle
  by_cases h : s.accessed = false ∧ s.inbox = []
  · exact .inl ⟨h.1, h.2, if_pos h⟩
  · refine .inr ⟨?_, if_neg h⟩
    cases ha : s.accessed
    · exact .inr fun hi => h ⟨ha, hi⟩
    · exact .inl rfl

/-- What a step can do: complete the command in flight once that is due, pass one cycle of it, or, with no command in
flight, serve the port (R69, R300). -/
theorem step_cases (s : State) :
    (∃ p, s.busy = true ∧ s.pend = some p ∧ due s = true ∧ step s = completion s p.w) ∨
    (∃ p, s.busy = true ∧ s.pend = some p ∧ due s = false ∧ step s = latencyCycle s) ∨
    ((s.busy = false ∨ s.pend = none) ∧ step s = serve s) := by
  unfold step coreStep
  cases hb : s.busy
  · simp [inFlight, hb]
  · cases hp : s.pend with
    | none => simp [inFlight, hb, hp]
    | some p =>
      cases due s <;> simp [inFlight, hb, hp]

/-- An input at an open port is served, and passes a cycle of the latency of a command in flight (R69, R300). -/
theorem step_of_portOpen {s : State} (h : portOpen s) (hi : s.inbox ≠ []) :
    step s = serve
      { s with
        wait := s.wait - (s.busy && s.pend.isSome).toNat
        accessed := s.accessed || (s.busy && s.pend.isSome) } := by
  rcases step_cases s with ⟨p, hb, hp, hd, -⟩ | ⟨p, hb, hp, -, hs⟩ | ⟨hn, hs⟩
  · rcases h with h | h | h <;> simp_all
  · rcases latencyCycle_cases s with ⟨-, h0, -⟩ | ⟨-, hl⟩
    · exact absurd h0 hi
    · rw [hs, hl]; simp [hb, hp]
  · rw [hs]
    congr 1
    cases s
    rcases hn with h0 | h0 <;> simp_all

/-! ### Runs -/

/-- A run goes on from the state its first step answers. -/
theorem core_run_succ (M : Host.Core) (n : Nat) {s t : M.State} (h : M.step s = .next t) : M.run (n + 1) s = M.run n t := by
  rw [Host.Core.run.eq_def]; simp only [h]

/-- `core_run_succ` for this machine. -/
theorem run_succ (n : Nat) {s t : State} (h : step s = .next t) :
    Host.Core.run Sys2Proof.core (n + 1) s = Host.Core.run Sys2Proof.core n t :=
  core_run_succ Sys2Proof.core n h

end Sys2Proof.Machine
end

