-- ==== Sys2Proof/Laws/Prims.lean ====
section
/-!
SUPPORT. What the integer primitives and the operand readers give, as integers.
-/

namespace Sys2Proof.Machine

theorem sat64_eq_clamp (n : Int) : sat64 n = clamp n := by
  simp only [sat64, clamp, maxInt, minInt]; split_ifs <;> omega

theorem clamp_le (n : Int) : clamp n ≤ 2 ^ 63 - 1 := by simp only [clamp]; omega

theorem le_clamp (n : Int) : -2 ^ 63 ≤ clamp n := by simp only [clamp]; omega

/-- A value in range is not changed by saturation. -/
theorem clamp_of_mem {n : Int} (h₁ : -2 ^ 63 ≤ n) (h₂ : n ≤ 2 ^ 63 - 1) : clamp n = n := by
  simp only [clamp]; omega

/-- Every register pattern reads as an integer in range (R15). -/
theorem toInt_range (a : Word) : -2 ^ 63 ≤ a.toInt ∧ a.toInt ≤ 2 ^ 63 - 1 := by
  have h₁ := BitVec.le_toInt a
  have h₂ := BitVec.toInt_lt (x := a)
  omega

/-- A register pattern made from an integer in range reads back as it. -/
theorem toInt_ofInt_of_mem {n : Int} (h₁ : -2 ^ 63 ≤ n) (h₂ : n ≤ 2 ^ 63 - 1) : (BitVec.ofInt 64 n).toInt = n := by
  rw [BitVec.toInt_ofInt, Int.bmod_def]; omega

@[simp] theorem satWord_toInt (n : Int) : (satWord n).toInt = clamp n := by
  rw [satWord, sat64_eq_clamp]
  exact toInt_ofInt_of_mem (le_clamp n) (clamp_le n)

theorem wrap64_eq_bmod (n : Int) : wrap64 n = n.bmod (2 ^ 64) := by
  simp only [wrap64, Int.bmod_def]; omega

@[simp] theorem wrapWord_toInt (n : Int) : (wrapWord n).toInt = n.bmod (2 ^ 64) := by
  rw [wrapWord, wrap64_eq_bmod, BitVec.toInt_ofInt, Int.bmod_bmod]

/-- Two register patterns with the same signed reading are the same. -/
theorem word_ext {a b : Word} (h : a.toInt = b.toInt) : a = b := BitVec.eq_of_toInt_eq h

/-- The operands of a command in flight are its snapshots (R40). -/
theorem operandA_of_pend {s : State} {p : Pending} (h : s.pend = some p) : operandA s = p.a := by simp [operandA, h]

theorem operandB_of_pend {s : State} {p : Pending} (h : s.pend = some p) : operandB s = p.b := by simp [operandB, h]

/-- The shift count is the operand modulo 64 (R124). -/
theorem shiftCount_eq (b : Word) : shiftCount b = b.toNat % 64 := by
  simp [shiftCount, BitVec.extractLsb'_toNat]

/-- The fractional part is the raw value modulo 2^32 (R122). -/
theorem fracPart_eq (a : Word) : (fracPart a : Int) = a.toInt % 2 ^ 32 := by
  simp only [fracPart, BitVec.extractLsb'_toNat, BitVec.toInt_eq_toNat_cond]
  split_ifs <;> simp only [Nat.shiftRight_zero] <;> omega

/-- The arithmetic right shift of a register is the floor division of its value (R16). -/
theorem sshiftRight_toInt (a : Word) (k : Nat) : (a.sshiftRight k).toInt = a.toInt / 2 ^ k := by
  rw [BitVec.toInt_sshiftRight, Int.shiftRight_eq_div_pow]; norm_cast

/-- The integer part is the floor of the value (R127). -/
theorem intPart_eq (a : Word) : intPart a = a.toInt / 2 ^ 32 := sshiftRight_toInt a 32

/-- The shift primitive of R16 is Euclidean division by a power of two. -/
theorem shiftRightFloor_eq (n : Int) (k : Nat) : shiftRightFloor n k = n / 2 ^ k := by
  rw [shiftRightFloor, Int.fdiv_eq_ediv_of_nonneg _ (by positivity)]

end Sys2Proof.Machine
end

