-- ==== Sys2Proof/Laws/Arith.lean ====
section
/-!
SUPPORT. What the shared operations on raw values give, as integers: the saturating adder and subtractor, negate and
absolute value, the multiplier, the divider and the square-root engine.
-/

namespace Sys2Proof.Machine

theorem getLsbD_63 (a : Word) : a.getLsbD 63 = decide (a.toInt < 0) := by
  rw [← BitVec.msb_eq_toInt, BitVec.msb_eq_getLsbD_last]

/-- The overflow test of the adder is true exactly where the exact sum is out of range (R111). -/
theorem addOverflows_iff (a b : Word) :
    addOverflows a b (a + b) = true ↔ a.toInt + b.toInt < -2 ^ 63 ∨ 2 ^ 63 - 1 < a.toInt + b.toInt := by
  have hs : (a + b).toInt = (a.toInt + b.toInt).bmod (2 ^ 64) := BitVec.toInt_add a b
  have ha := toInt_range a
  have hb := toInt_range b
  rw [addOverflows, BitVec.getLsbD_and, BitVec.getLsbD_not, BitVec.getLsbD_xor, BitVec.getLsbD_xor, getLsbD_63 a,
    getLsbD_63 b, getLsbD_63 (a + b)]
  rw [Int.bmod_def] at hs
  generalize (a + b).toInt = c at *
  by_cases h1 : a.toInt < 0 <;> by_cases h2 : b.toInt < 0 <;> by_cases h3 : c < 0 <;> simp [h1, h2, h3] <;> omega

/-- The overflow test of the subtractor is true exactly where the exact difference is out of range (R112). -/
theorem subOverflows_iff (a b : Word) :
    subOverflows a b (a - b) = true ↔ a.toInt - b.toInt < -2 ^ 63 ∨ 2 ^ 63 - 1 < a.toInt - b.toInt := by
  have hs : (a - b).toInt = (a.toInt - b.toInt).bmod (2 ^ 64) := BitVec.toInt_sub
  have ha := toInt_range a
  have hb := toInt_range b
  rw [subOverflows, BitVec.getLsbD_and, BitVec.getLsbD_xor, BitVec.getLsbD_xor, getLsbD_63 a, getLsbD_63 b,
    getLsbD_63 (a - b)]
  rw [Int.bmod_def] at hs
  generalize (a - b).toInt = c at *
  by_cases h1 : a.toInt < 0 <;> by_cases h2 : b.toInt < 0 <;> by_cases h3 : c < 0 <;> simp [h1, h2, h3] <;> omega

theorem maxRaw_toInt : maxRaw.toInt = 2 ^ 63 - 1 := by decide

theorem minRaw_toInt : minRaw.toInt = -2 ^ 63 := by decide

/-- ADD on raw values (R111, R113). -/
theorem addRaw_toInt (a b : Word) : (addRaw a b).toInt = clamp (a.toInt + b.toInt) := by
  have hs : (a + b).toInt = (a.toInt + b.toInt).bmod (2 ^ 64) := BitVec.toInt_add a b
  have ha := toInt_range a
  have hb := toInt_range b
  have ho := addOverflows_iff a b
  rw [Int.bmod_def] at hs
  simp only [addRaw]
  split_ifs with h1 h2
  · rw [maxRaw_toInt, clamp]; have := ho.1 h1; omega
  · rw [minRaw_toInt, clamp]; have := ho.1 h1; omega
  · rw [ho] at h1; rw [hs, clamp]; omega

/-- SUB on raw values (R112, R113). -/
theorem subRaw_toInt (a b : Word) : (subRaw a b).toInt = clamp (a.toInt - b.toInt) := by
  have hs : (a - b).toInt = (a.toInt - b.toInt).bmod (2 ^ 64) := BitVec.toInt_sub
  have ha := toInt_range a
  have hb := toInt_range b
  have ho := subOverflows_iff a b
  rw [Int.bmod_def] at hs
  simp only [subRaw]
  split_ifs with h1 h2
  · rw [minRaw_toInt, clamp]; have := ho.1 h1; omega
  · rw [maxRaw_toInt, clamp]; have := ho.1 h1; omega
  · rw [ho] at h1; rw [hs, clamp]; omega

theorem eq_minRaw_iff (a : Word) : a = minRaw ↔ a.toInt = -2 ^ 63 :=
  ⟨fun h => h ▸ minRaw_toInt, fun h => word_ext (h.trans minRaw_toInt.symm)⟩

/-- NEG on raw values (R114). -/
theorem negRaw_toInt (a : Word) : (negRaw a).toInt = clamp (-a.toInt) := by
  have ha := toInt_range a
  simp only [negRaw]
  split_ifs with h
  · rw [maxRaw_toInt, clamp, (eq_minRaw_iff a).1 h]; omega
  · rw [eq_minRaw_iff] at h
    rw [BitVec.toInt_neg, Int.bmod_def, clamp]; omega

/-- FABS on raw values (R117): the wrapping magnitude. -/
theorem fabsRaw_toInt (a : Word) : (fabsRaw a).toInt = (a.toInt.natAbs : Int).bmod (2 ^ 64) := by
  have ha := toInt_range a
  have hm : (signMask a).toInt = a.toInt / 2 ^ 63 := sshiftRight_toInt a 63
  by_cases h : a.toInt < 0
  · have h1 : signMask a = -1#64 := word_ext (by rw [hm, show (-1#64 : Word).toInt = -1 from rfl]; omega)
    have h2 : fabsRaw a = -a := by
      rw [fabsRaw, h1, BitVec.neg_one_eq_allOnes, BitVec.xor_allOnes, ← BitVec.neg_one_eq_allOnes, ← BitVec.sub_eq_add_neg,
        BitVec.not_eq_neg_add]
      bv_omega
    have hn : (a.toInt.natAbs : Int) = -a.toInt := by omega
    rw [h2, BitVec.toInt_neg, hn]
  · have h1 : signMask a = 0#64 := word_ext (by rw [hm, BitVec.toInt_zero]; omega)
    have hn : (a.toInt.natAbs : Int) = a.toInt := by omega
    rw [fabsRaw, h1, BitVec.add_zero, BitVec.xor_zero, hn]
    exact (BitVec.toInt_bmod_cancel a).symm

/-- ABS on raw values (R116): the saturating magnitude. -/
theorem absRaw_toInt (a : Word) : (absRaw a).toInt = absInt a.toInt := by
  have ha := toInt_range a
  have hf := fabsRaw_toInt a
  rw [Int.bmod_def] at hf
  rw [absRaw]
  split_ifs with h
  · rw [maxRaw_toInt, absInt, (eq_minRaw_iff a).1 h]; omega
  · rw [eq_minRaw_iff] at h
    change (fabsRaw a).toInt = _
    rw [hf, absInt]; omega

/-- MUL on raw values (R170). -/
theorem mulRaw_toInt (a b : Word) : (mulRaw a b).toInt = mulInt a.toInt b.toInt := by
  rw [mulRaw, satWord_toInt, shiftRightFloor_eq, mulInt]

/-- DIV on raw values (R180): an error for a divisor of 0 and only for that. -/
theorem divRaw_zero (a : Word) : divRaw a 0 = .error .divByZero := by simp [divRaw]

theorem divRaw_ok (a b : Word) (h : b ≠ 0) : ∃ v, divRaw a b = .ok v ∧ v.toInt = divInt a.toInt b.toInt := by
  refine ⟨_, by rw [divRaw, if_neg h], ?_⟩
  rw [satWord_toInt, divInt, signed, quotientNeg]
  by_cases h1 : a.toInt < 0 <;> by_cases h2 : b.toInt < 0 <;> simp [h1, h2]

/-- MOD on raw values (R183). -/
theorem modRaw_zero (a : Word) : modRaw a 0 = .error .divByZero := by simp [modRaw]

theorem modRaw_ok (a b : Word) (h : b ≠ 0) : ∃ v, modRaw a b = .ok v ∧ v.toInt = a.toInt.tmod b.toInt := by
  refine ⟨_, by rw [modRaw, if_neg h], ?_⟩
  have ha := toInt_range a
  have hb := toInt_range b
  have e : a.toInt - b.toInt * a.toInt.tdiv b.toInt = a.toInt.tmod b.toInt := by
    have := Int.mul_tdiv_add_tmod a.toInt b.toInt; omega
  rw [e]
  have hb0 : b.toInt ≠ 0 := fun h0 => h (word_ext (by simpa using h0))
  have h1 : (a.toInt.tmod b.toInt).natAbs < b.toInt.natAbs := by
    rw [Int.natAbs_tmod]; exact Nat.mod_lt _ (by omega)
  apply toInt_ofInt_of_mem <;> omega

/-- The loop of R196 keeps `num = n - R^2` and `r = R * 2^i` for a root `R` that is too small by less than `2^i`. -/
theorem sqrtLoop_spec (n : Nat) : ∀ i R num : Nat, num + R * R = n → n < (R + 2 ^ i) * (R + 2 ^ i) →
    ∃ S, (sqrtLoop i (num, R * 2 ^ i)).2 = S ∧ (sqrtLoop i (num, R * 2 ^ i)).1 + S * S = n ∧ n < (S + 1) * (S + 1)
  | 0, R, num, h, hn => ⟨R, by simp [sqrtLoop], by simpa [sqrtLoop] using h, by simpa using hn⟩
  | i + 1, R, num, h, hn => by
    have h4 : (4 : Nat) ^ i = 2 ^ i * 2 ^ i := by rw [← mul_pow]; norm_num
    have h2 : R * 2 ^ (i + 1) / 2 = R * 2 ^ i := by rw [pow_succ, ← mul_assoc]; omega
    rw [sqrtLoop, sqrtDigit]
    simp only [h2]
    rw [pow_succ] at hn ⊢
    split_ifs with hc
    · have e : R * 2 ^ i + 4 ^ i = (R + 2 ^ i) * 2 ^ i := by rw [h4]; ring
      rw [e]
      apply sqrtLoop_spec n i
      · rw [h4] at hc ⊢; zify [hc] at h ⊢; linarith
      · linarith
    · apply sqrtLoop_spec n i _ _ h
      rw [h4] at hc; nlinarith

/-- The extraction of R196 gives the integer root and its remainder. -/
theorem sqrtRem_spec (n : Nat) (h : n < 4 ^ 48) :
    (sqrtRem n).1 + (sqrtRem n).2 * (sqrtRem n).2 = n ∧ n < ((sqrtRem n).2 + 1) * ((sqrtRem n).2 + 1) := by
  have := sqrtLoop_spec n 48 0 n (by simp) (by simpa [← mul_pow] using h)
  rw [Nat.zero_mul] at this
  obtain ⟨S, h1, h2, h3⟩ := this
  subst h1; exact ⟨h2, h3⟩

theorem toNat_of_nonneg {a : Word} (h : 0 ≤ a.toInt) : (a.toNat : Int) = a.toInt ∧ a.toNat < 2 ^ 63 := by
  have h₁ := BitVec.toInt_eq_toNat_cond a
  have h₂ := a.isLt
  have h₃ := toInt_range a
  omega

theorem sqrtRaw_nonneg {a : Word} (h : 0 ≤ a.toInt) :
    sqrtRaw a = .ok (BitVec.ofNat 64 (if (sqrtRem (a.toNat * 2 ^ 32)).1 > (sqrtRem (a.toNat * 2 ^ 32)).2
      then (sqrtRem (a.toNat * 2 ^ 32)).2 + 1 else (sqrtRem (a.toNat * 2 ^ 32)).2)) := by
  unfold sqrtRaw
  rw [if_neg (by omega)]

theorem root_lt {r q x : Nat} (h : q + r * r = x * 2 ^ 32) (hx : x < 2 ^ 63) : r < 2 ^ 48 := by
  by_contra hc
  have h₁ : 281474976710656 * 281474976710656 ≤ r * r := Nat.mul_le_mul (by omega) (by omega)
  norm_num only at h₁
  omega

/-- SQRT on raw values (R195): an error for a negative operand, and only for that. -/
theorem sqrtRaw_neg {a : Word} (h : a.toInt < 0) : sqrtRaw a = .error .negSqrtArg := by simp [sqrtRaw, h]

theorem sqrtRaw_ok {a : Word} (h : 0 ≤ a.toInt) :
    ∃ v, sqrtRaw a = .ok v ∧ IsRoundedRoot (a.toInt * 2 ^ 32) v.toInt ∧ 0 ≤ v.toInt ∧ v.toInt ≤ 2 ^ 48 := by
  obtain ⟨hn, hlt⟩ := toNat_of_nonneg h
  obtain ⟨q, r, h₁, h₂, h₃⟩ : ∃ q r, q + r * r = a.toNat * 2 ^ 32 ∧ a.toNat * 2 ^ 32 < (r + 1) * (r + 1) ∧
      sqrtRaw a = .ok (BitVec.ofNat 64 (if q > r then r + 1 else r)) := by
    obtain ⟨h₁, h₂⟩ := sqrtRem_spec (a.toNat * 2 ^ 32) (by omega)
    exact ⟨_, _, h₁, h₂, sqrtRaw_nonneg h⟩
  have hr := root_lt h₁ hlt
  obtain ⟨v, hv⟩ : ∃ v, v = if q > r then r + 1 else r := ⟨_, rfl⟩
  have hv' : v ≤ 2 ^ 48 := by rw [hv]; split_ifs <;> omega
  have hi : (BitVec.ofNat 64 v).toInt = v := by
    rw [BitVec.toInt_eq_toNat_cond, BitVec.toNat_ofNat]; omega
  rw [← hv] at h₃
  refine ⟨_, h₃, ⟨r, by omega, ?_, ?_, ?_⟩, by omega, by omega⟩
  · rw [← hn]; norm_cast; omega
  · rw [← hn]; exact_mod_cast h₂
  · have hq : (q : Int) = a.toInt * 2 ^ 32 - r * r := by rw [← hn]; zify at h₁; linarith
    rw [hi, hv, ← hq]
    split_ifs <;> omega

end Sys2Proof.Machine
end

