-- ==== Sys2Proof/Laws/Exec.lean ====
section
/-!
SUPPORT. What `exec` is for each command: its arm, unfolded once, by definition. A command's meaning ends in `finish` or
`finishCached` (Sys2Proof.Laws.Ops), so every command answers a next state.
-/

namespace Sys2Proof.Machine

theorem exec_add (s : State) :
    exec .add s = finish s (.ok (addRaw (operandA s) (operandB s))) := rfl

theorem exec_sub (s : State) :
    exec .sub s = finish s (.ok (subRaw (operandA s) (operandB s))) := rfl

theorem exec_neg (s : State) :
    exec .neg s = finish s (.ok (negRaw (operandA s))) := rfl

theorem exec_fneg (s : State) :
    exec .fneg s = finish s (.ok (fnegRaw (operandA s))) := rfl

theorem exec_abs (s : State) :
    exec .abs s = finish s (.ok (absRaw (operandA s))) := rfl

theorem exec_fabs (s : State) :
    exec .fabs s = finish s (.ok (fabsRaw (operandA s))) := rfl

theorem exec_inc (s : State) :
    exec .inc s = finish s (.ok (incRaw (operandA s))) := rfl

theorem exec_dec (s : State) :
    exec .dec s = finish s (.ok (decRaw (operandA s))) := rfl

theorem exec_sign (s : State) :
    exec .sign s = finish s (.ok (signRaw (operandA s))) := rfl

theorem exec_floor (s : State) :
    exec .floor s = finish s (.ok (floorRaw (operandA s))) := rfl

theorem exec_ceil (s : State) :
    exec .ceil s = finish s (.ok (ceilRaw (operandA s))) := rfl

theorem exec_round (s : State) :
    exec .round s = finish s (.ok (roundRaw (operandA s))) := rfl

theorem exec_shl (s : State) :
    exec .shl s = finish s (.ok (shlRaw (operandA s) (operandB s))) := rfl

theorem exec_shr (s : State) :
    exec .shr s = finish s (.ok (shrRaw (operandA s) (operandB s))) := rfl

theorem exec_fromint (s : State) :
    exec .fromint s = finish s (.ok (fromintRaw (operandA s))) := rfl

theorem exec_toint (s : State) :
    exec .toint s = finish s (.ok (tointRaw (operandA s))) := rfl

theorem exec_cmplt (s : State) :
    exec .cmplt s = finish s (.ok (boolRaw (decide ((operandA s).toInt < (operandB s).toInt)))) := rfl

theorem exec_cmple (s : State) :
    exec .cmple s = finish s (.ok (boolRaw (decide ((operandA s).toInt ≤ (operandB s).toInt)))) := rfl

theorem exec_cmpgt (s : State) :
    exec .cmpgt s = finish s (.ok (boolRaw (decide ((operandA s).toInt > (operandB s).toInt)))) := rfl

theorem exec_cmpge (s : State) :
    exec .cmpge s = finish s (.ok (boolRaw (decide ((operandA s).toInt ≥ (operandB s).toInt)))) := rfl

theorem exec_cmpeq (s : State) :
    exec .cmpeq s = finish s (.ok (boolRaw (decide ((operandA s).toInt = (operandB s).toInt)))) := rfl

theorem exec_cmpne (s : State) :
    exec .cmpne s = finish s (.ok (boolRaw (decide ((operandA s).toInt ≠ (operandB s).toInt)))) := rfl

theorem exec_mul (s : State) :
    exec .mul s = finish s (.ok (mulRaw (operandA s) (operandB s))) := rfl

theorem exec_div (s : State) :
    exec .div s = finish s (divRaw (operandA s) (operandB s)) := rfl

theorem exec_mod (s : State) :
    exec .mod s = finish s (modRaw (operandA s) (operandB s)) := rfl

theorem exec_sqrt (s : State) :
    exec .sqrt s = finish s (sqrtRaw (operandA s)) := rfl

theorem exec_sin (s : State) :
    exec .sin s = finish s (.ok (sinRaw s.cfg (operandA s))) := rfl

theorem exec_cos (s : State) :
    exec .cos s = finish s (.ok (cosRaw s.cfg (operandA s))) := rfl

theorem exec_tan (s : State) :
    exec .tan s = finish s (tanRaw s.cfg (operandA s)) := rfl

theorem exec_sinp (s : State) :
    exec .sinp s = finish s (.ok (sinpRaw (operandA s))) := rfl

theorem exec_fsin (s : State) :
    exec .fsin s = finish s (.ok (fsinRaw (operandA s))) := rfl

theorem exec_fcos (s : State) :
    exec .fcos s = finish s (.ok (fcosRaw (operandA s))) := rfl

theorem exec_atan2 (s : State) :
    exec .atan2 s = finishCached s (atan2Cached s.cfg s.cache (operandA s) (operandB s)) := rfl

theorem exec_atan (s : State) :
    exec .atan s = finishCached s (atanCached s.cfg s.cache (operandA s)) := rfl

theorem exec_asin (s : State) :
    exec .asin s = finishCached s (asinCached s.cfg s.cache (operandA s)) := rfl

theorem exec_acos (s : State) :
    exec .acos s = finishCached s (acosCached s.cfg s.cache (operandA s)) := rfl

theorem exec_log2 (s : State) :
    exec .log2 s = finish s (log2Raw (operandA s)) := rfl

theorem exec_ln (s : State) :
    exec .ln s = finish s (lnRaw (operandA s)) := rfl

theorem exec_pow2 (s : State) :
    exec .pow2 s = finish s (pow2Raw (operandA s)) := rfl

theorem exec_pow (s : State) :
    exec .pow s = finish s (powRaw (operandA s) (operandB s)) := rfl

end Sys2Proof.Machine
end

