-- ==== Sys2Proof/Machine/HostProgram.lean ====
section
/-!
DEFINITION. The host side of the spec's syntax (30_encoding.md R99, R100): the host operations of the test programs, the
three pseudo-instructions, and a host that runs them against the core. Host operations are no commands of the core; the
core's own step does not depend on this file.
-/

namespace Sys2Proof.Machine

/-- One of the host's registers `r0` to `r15` (R99). -/
abbrev HostReg := Fin 16

/-- The offset that a register's name stands for (R99). -/
def Reg.offset : Reg → Nat
  | .opa    => 0x00
  | .opb    => 0x08
  | .cmd    => 0x10
  | .res    => 0x18
  | .status => 0x20
  | .ctrl   => 0x28

/-- What a host operation writes: a 64-bit literal or a host register (R99). -/
inductive HostValue where
  | lit (v : Word)
  | reg (r : HostReg)
deriving DecidableEq, Repr

/-- The operand notation `n q` for a whole number `n`: raw `n << 32` (R99). -/
def HostValue.q (n : Int) : HostValue := .lit (BitVec.ofInt 64 (n * 2 ^ 32))

/-- The host operations (R99), and the computation on a host register that `fxerr` ends with (R100). A label is the
number of the line it stands before, and every access is 8 bytes wide. -/
inductive HostOp where
  | wr (r : Reg) (v : HostValue)
  | rd (d : HostReg) (r : Reg)
  | bnz (x : HostReg) (mask : Word) (label : Nat)
  | beq (x : HostReg) (v : HostValue) (label : Nat)
  | errField (x : HostReg)
deriving DecidableEq, Repr

/-- `fxwait` at a line, with `rS` its scratch register: reads STATUS until BUSY is 0 (R100). -/
def fxwait (line : Nat) (rS : HostReg) : List HostOp := [.rd rS .status, .bnz rS 1 line]

/-- `fx OP x[, y] -> rD` at a line (R100). `y` is absent for a unary command. -/
def fx (line : Nat) (rS : HostReg) (op : Instr) (x : HostValue) (y : Option HostValue) (rD : HostReg) : List HostOp :=
  let setup := .wr .opa x :: ((y.map fun v => HostOp.wr .opb v).toList ++ [.wr .cmd (.lit (encode op))])
  fxwait line rS ++ setup ++ fxwait (line + 2 + setup.length) rS ++ [.rd rD .res]

/-- `fxerr rE` (R100): STATUS is read and the ERR field taken from it. -/
def fxerr (rE : HostReg) : List HostOp := [.rd rE .status, .errField rE]

/-- A host that runs a program against the core: its registers, the line it is at, and, while its access is at the port,
its place among the answers of the bus. -/
structure HostState where
  core    : State
  regs    : Vector Word 16
  line    : Nat
  waiting : Option Nat
deriving DecidableEq, Repr

/-- The host at the start of a program: its registers hold 0 (R99). -/
def HostState.start (s : State) : HostState := ⟨s, Vector.replicate 16 0, 0, none⟩

/-- The outcome of a step of the host and its core. -/
abbrev HostOutcome := Host.Outcome HostState Fault Refusal

/-- The value a host operation writes or compares with. -/
def HostState.value (h : HostState) : HostValue → Word
  | .lit v => v
  | .reg r => h.regs[r]

/-- Does the bus answer this input? A reset is no access (R290), and the bus error of an atomic ends the run (R77). -/
def answered : Input → Bool
  | .read _ _    => true
  | .write _ _ _ => true
  | .atomic _ _  => false
  | .reset       => false

/-- The host sends an access to the port, after what stands there. The bus answers in arrival order (R69), so its answer
comes after those given and those still due to the accesses before it. -/
def HostState.send (h : HostState) (i : Input) : HostState :=
  { h with
    core := { h.core with inbox := h.core.inbox ++ [i] }
    waiting := some (h.core.replies.length + h.core.inbox.countP answered) }

/-- A branch issues no bus access (R99). -/
def HostState.branch (h : HostState) (taken : Bool) (label : Nat) : HostState :=
  { h with line := if taken then label else h.line + 1 }

/-- The host starts the operation of its line. -/
def HostState.issue (h : HostState) : HostOp → HostState
  | .wr r v     => h.send (.write r.offset 8 (h.value v))
  | .rd _ r     => h.send (.read r.offset 8)
  | .bnz x m l  => h.branch (h.regs[x] &&& m != 0) l
  | .beq x v l  => h.branch (h.regs[x] == h.value v) l
  | .errField x => { h with regs := h.regs.set x (h.regs[x] >>> 1 &&& 7), line := h.line + 1 }

/-- The host takes the answer to its access and goes on with the next line. -/
def HostState.take (h : HostState) (op : HostOp) (r : Reply) : HostState :=
  match op, r with
  | .rd d _, .data v => { h with regs := h.regs.set d v, line := h.line + 1, waiting := none }
  | _, _             => { h with line := h.line + 1, waiting := none }

/-- The core makes one step; a bus error of the access is a fault of the whole (R79). -/
def HostState.stepCore (h : HostState) (k : HostState → HostState) : HostOutcome :=
  match step h.core with
  | .next s    => .next (k { h with core := s })
  | .fault f   => .fault f
  | .refused r => .refused r

/-- One step of the host and its core. A host with no access at the port starts the operation of its line, or, past the
end of its program, lets the core run. A host that waits lets the core run until its access is answered. -/
def hostStep (prog : List HostOp) (h : HostState) : HostOutcome :=
  match prog[h.line]?, h.waiting with
  | none, _         => h.stepCore id
  | some op, none   => .next (h.issue op)
  | some op, some n => h.stepCore fun t =>
    match t.core.replies[n]? with
    | some r => t.take op r
    | none   => t

/-- A host program has ended (R305): the host has executed its last operation, and BUSY is 0 (R304: a state with BUSY = 1
is not a final state of any run). -/
def HostState.ended (prog : List HostOp) (h : HostState) : Bool :=
  prog[h.line]?.isNone && h.waiting.isNone && !h.core.busy

/-- What is observed of a host program that has ended (R305): OPA, OPB, RES and STATUS, and the host's own registers. -/
structure HostObservation where
  core : Word × Word × Word × Word
  regs : Vector Word 16
deriving DecidableEq, Repr

/-- The observed result of a host program, in a final state only (R305). -/
def HostState.result (prog : List HostOp) (h : HostState) : Option HostObservation :=
  if h.ended prog then some ⟨observed h.core, h.regs⟩ else none

/-- The observed result after `n` steps, if the program has ended by then. A run that meets a faulted access has no final
state (R79, R305), so no result. -/
def hostResult (prog : List HostOp) : Nat → HostState → Option HostObservation
  | 0,     h => h.result prog
  | n + 1, h =>
    match hostStep prog h with
    | .next t    => hostResult prog n t
    | .fault _   => none
    | .refused _ => none

end Sys2Proof.Machine
end

