-- ==== Sys2Proof/Laws/HostProgram.lean ====
section
/-!
SUPPORT. What a step of a host program can do, and what its result says (R99, R304, R305).
-/

namespace Sys2Proof.Machine

/-- What a step of the host and its core can do: start the operation of its line, or let the core make one step and, where
its answer has come, take it. -/
theorem hostStep_cases {prog : List HostOp} {h t : HostState} (hs : hostStep prog h = .next t) :
    (∃ op, prog[h.line]? = some op ∧ h.waiting = none ∧ t = h.issue op) ∨
    (∃ s, step h.core = .next s ∧ prog[h.line]? = none ∧ t = { h with core := s }) ∨
    (∃ s op n, step h.core = .next s ∧ prog[h.line]? = some op ∧ h.waiting = some n ∧
      ((∃ r, s.replies[n]? = some r ∧ t = HostState.take { h with core := s } op r) ∨
        (s.replies[n]? = none ∧ t = { h with core := s }))) := by
  unfold hostStep at hs
  split at hs
  · rename_i hp
    unfold HostState.stepCore at hs
    split at hs <;> cases hs
    exact .inr (.inl ⟨_, ‹_›, hp, rfl⟩)
  · rename_i op hp hw
    cases hs
    exact .inl ⟨op, hp, hw, rfl⟩
  · rename_i op n hp hw
    unfold HostState.stepCore at hs
    split at hs <;> cases hs
    rename_i s hst
    refine .inr (.inr ⟨s, op, n, hst, hp, hw, ?_⟩)
    cases hr : s.replies[n]? with
    | none   => exact .inr ⟨rfl, by simp [hr]⟩
    | some r => exact .inl ⟨r, rfl, by simp [hr]⟩

/-- A result is that of an ended program: its last operation executed, no access open, BUSY 0 (R304, R305). -/
theorem HostState.result_eq_some {prog : List HostOp} {h : HostState} {r : HostObservation} :
    h.result prog = some r ↔
      (prog[h.line]? = none ∧ h.waiting = none ∧ h.core.busy = false) ∧ r = ⟨observed h.core, h.regs⟩ := by
  simp [HostState.result, HostState.ended, and_assoc, eq_comm (a := r)]

/-- A run whose next step is a fault has no result (R79, R305). -/
theorem hostResult_fault {prog : List HostOp} {h : HostState} {f : Fault} (n : Nat) (hs : hostStep prog h = .fault f) :
    hostResult prog (n + 1) h = none := by simp [hostResult, hs]

end Sys2Proof.Machine
end

