-- ==== Sys2Proof/Laws/PerInstr.lean ====
section
/-!
SUPPORT. The statements about every command as syntax, one lemma per constructor.
-/

namespace Sys2Proof.Laws.CommandWord

/-- The command word of a command has its opcode in bits 7:0, one that the opcode map assigns to this command alone, and
0 in bits 63:8 (R90, R91). -/
def Statement (i : Instr) : Prop :=
  i.wf = true ∧ rsvField (encode i) = 0 ∧ opcField (encode i) = opcodeOf i ∧
    opcodeMap.filter (fun row => row.1 == opcodeOf i) = [(opcodeOf i, i)]

theorem add : Statement .add := by unfold Statement; decide
theorem sub : Statement .sub := by unfold Statement; decide
theorem neg : Statement .neg := by unfold Statement; decide
theorem fneg : Statement .fneg := by unfold Statement; decide
theorem abs : Statement .abs := by unfold Statement; decide
theorem fabs : Statement .fabs := by unfold Statement; decide
theorem inc : Statement .inc := by unfold Statement; decide
theorem dec : Statement .dec := by unfold Statement; decide
theorem sign : Statement .sign := by unfold Statement; decide
theorem floor : Statement .floor := by unfold Statement; decide
theorem ceil : Statement .ceil := by unfold Statement; decide
theorem round : Statement .round := by unfold Statement; decide
theorem shl : Statement .shl := by unfold Statement; decide
theorem shr : Statement .shr := by unfold Statement; decide
theorem fromint : Statement .fromint := by unfold Statement; decide
theorem toint : Statement .toint := by unfold Statement; decide
theorem cmplt : Statement .cmplt := by unfold Statement; decide
theorem cmple : Statement .cmple := by unfold Statement; decide
theorem cmpgt : Statement .cmpgt := by unfold Statement; decide
theorem cmpge : Statement .cmpge := by unfold Statement; decide
theorem cmpeq : Statement .cmpeq := by unfold Statement; decide
theorem cmpne : Statement .cmpne := by unfold Statement; decide
theorem mul : Statement .mul := by unfold Statement; decide
theorem div : Statement .div := by unfold Statement; decide
theorem mod : Statement .mod := by unfold Statement; decide
theorem sqrt : Statement .sqrt := by unfold Statement; decide
theorem sin : Statement .sin := by unfold Statement; decide
theorem cos : Statement .cos := by unfold Statement; decide
theorem tan : Statement .tan := by unfold Statement; decide
theorem sinp : Statement .sinp := by unfold Statement; decide
theorem fsin : Statement .fsin := by unfold Statement; decide
theorem fcos : Statement .fcos := by unfold Statement; decide
theorem atan2 : Statement .atan2 := by unfold Statement; decide
theorem atan : Statement .atan := by unfold Statement; decide
theorem asin : Statement .asin := by unfold Statement; decide
theorem acos : Statement .acos := by unfold Statement; decide
theorem log2 : Statement .log2 := by unfold Statement; decide
theorem ln : Statement .ln := by unfold Statement; decide
theorem pow2 : Statement .pow2 := by unfold Statement; decide
theorem pow : Statement .pow := by unfold Statement; decide

end Sys2Proof.Laws.CommandWord
end

