-- ==== Sys2Proof/Tests/Slice0.lean ====
section
/-!
SUPPORT. Small tests of the model, and for every statement with hypotheses a concrete case that meets them. Expected
values are the spec's: the words of R91's opcode map, the rows `V<n>` of 95_test_vectors.md, and the rules named.
-/

open Sys2Proof Sys2Proof.Machine

namespace Sys2Proof.Tests

set_option Elab.async false

/-- The parameters with R19's recommended table, which the vectors of 95_test_vectors.md are computed with. -/
def vectorConfig : Config := { Config.default with sineTable := .recommended }

/-- A state in which the command word `w` is in flight over `a` and `b`, its completion due. RES holds 0x1234. -/
def command (w a b : Word) : State :=
  { State.reset with
    opa := a
    opb := b
    res := 0x1234
    busy := true
    pend := some ⟨w, a, b⟩
    accessed := true
    cfg := vectorConfig }

/-- An idle state with OPA 5, OPB 7 and RES 9, with these inputs at the port. -/
def idle (inputs : List Input) : State := { State.reset with opa := 5, opb := 7, res := 9, inbox := inputs }

/-- The command word 0x10 (TOINT) in flight over OPA 5 and OPB 7, with no access after its CMD write yet, `n` cycles
from its completion, and with these inputs at the port. -/
def fresh (n : Nat) (inputs : List Input) : State :=
  { idle inputs with busy := true, pend := some ⟨0x10, 5, 7⟩, wait := n }

/-- The same, some access having come after the CMD write. -/
def flight (n : Nat) (inputs : List Input) : State := { fresh n inputs with accessed := true }

/-- Is the outcome this next state? -/
def goesTo (o : Outcome) (t : State) : Bool :=
  match o with
  | .next u => u == t
  | _       => false

theorem next_of_goesTo {o : Outcome} {t : State} (h : goesTo o t = true) : o = .next t := by
  cases o <;> simp_all [goesTo]

/-- Does the next step complete the command with this RES and ERR? -/
def answers (w a b r : Word) (e : BitVec 3) : Bool :=
  match step (command w a b) with
  | .next t => t.res == r && t.err == e && !t.busy && t.pend.isNone
  | _       => false

/-- Does the next step serve the input at the head of the port, with this reply and this reading of the state? -/
def replies (s : State) (r : Reply) (check : State → Bool) : Bool :=
  match step s with
  | .next t => t.replies == s.replies ++ [r] && t.inbox.isEmpty && check t
  | _       => false

/-- Does the next step stop with this fault? -/
def faults (s : State) (f : Fault) : Bool :=
  match step s with
  | .fault g => f == g
  | _        => false

/-! ### Well-formedness: an ill-formed term for each check -/

theorem test_wf_width : Input.wf (.read 0x00 4) = false := by decide
theorem test_wf_misaligned : Input.wf (.write 0x04 8 0) = false := by decide
theorem test_wf_unmapped : Input.wf (.read 0x30 8) = false := by decide
theorem test_wf_atomic : Input.wf (.atomic 0x00 8) = false := by decide
theorem test_wf_last_register : Input.wf (.read 0x28 8) = true := by decide
theorem test_wf_slots : Config.wf { Config.default with atanCacheSlots := 3 } = false := by decide
theorem test_wf_no_cache : Config.wf { Config.default with atanCacheSlots := 0 } = true := by decide
theorem test_wf_lut_shift : Config.wf { Config.default with lutShift := 33 } = false := by decide
theorem test_wf_default : Config.wf Config.default = true := by decide
theorem test_wf_reserved_bits : wordWf 0x0000000000000101#64 = false := by decide
theorem test_wf_unassigned : wordWf 0x00000000000000FF#64 = false := by decide
theorem test_wf_last_opcode : wordWf 0x0000000000000053#64 = true := by decide

/-! ### Decoding: every row of R91's map, its word written out -/

theorem test_decode_add_sub : decode 0x01#64 = .ok .add ∧ decode 0x02#64 = .ok .sub := by decide
theorem test_decode_signs : decode 0x03#64 = .ok .neg ∧ decode 0x04#64 = .ok .fneg ∧ decode 0x05#64 = .ok .abs ∧
    decode 0x06#64 = .ok .fabs ∧ decode 0x09#64 = .ok .sign := by decide
theorem test_decode_steps : decode 0x07#64 = .ok .inc ∧ decode 0x08#64 = .ok .dec := by decide
theorem test_decode_roundings : decode 0x0A#64 = .ok .floor ∧ decode 0x0B#64 = .ok .ceil ∧
    decode 0x0C#64 = .ok .round := by decide
theorem test_decode_shifts_and_casts : decode 0x0D#64 = .ok .shl ∧ decode 0x0E#64 = .ok .shr ∧
    decode 0x0F#64 = .ok .fromint ∧ decode 0x10#64 = .ok .toint := by decide
theorem test_decode_compares : decode 0x11#64 = .ok .cmplt ∧ decode 0x12#64 = .ok .cmple ∧
    decode 0x13#64 = .ok .cmpgt ∧ decode 0x14#64 = .ok .cmpge ∧ decode 0x15#64 = .ok .cmpeq ∧
    decode 0x16#64 = .ok .cmpne := by decide
theorem test_decode_mul_div : decode 0x20#64 = .ok .mul ∧ decode 0x28#64 = .ok .div ∧ decode 0x29#64 = .ok .mod := by
  decide
theorem test_decode_sqrt : decode 0x30#64 = .ok .sqrt := by decide
theorem test_decode_trig : decode 0x38#64 = .ok .sin ∧ decode 0x39#64 = .ok .cos ∧ decode 0x3A#64 = .ok .tan := by
  decide
theorem test_decode_fast_trig : decode 0x40#64 = .ok .sinp ∧ decode 0x41#64 = .ok .fsin ∧ decode 0x42#64 = .ok .fcos :=
  by decide
theorem test_decode_atan : decode 0x48#64 = .ok .atan2 ∧ decode 0x49#64 = .ok .atan ∧ decode 0x4A#64 = .ok .asin ∧
    decode 0x4B#64 = .ok .acos := by decide
theorem test_decode_log_pow : decode 0x50#64 = .ok .log2 ∧ decode 0x51#64 = .ok .ln ∧ decode 0x52#64 = .ok .pow2 ∧
    decode 0x53#64 = .ok .pow := by decide

/-- V257 to V261: illegal words. -/
theorem test_decode_illegal : decode 0x00#64 = .error .unassignedOpcode ∧ decode 0x17#64 = .error .unassignedOpcode ∧
    decode 0xFF#64 = .error .unassignedOpcode ∧ decode 0x101#64 = .error .reservedBits ∧
    decode 0x8000000000000001#64 = .error .reservedBits := by decide

/-- The bytes of POW's word, lowest address first (R67, R90), and the same bytes short of one. -/
theorem test_decode_bytes : decodeBytes [0x53, 0, 0, 0, 0, 0, 0, 0, 0xAA] = .ok (.pow, [0xAA]) ∧
    decodeBytes [0x53, 0, 0, 0, 0, 0, 0] = .error .truncated := by decide

theorem test_decode_table_word : decodeTableWord 64 0x29 = some .mod ∧ decodeTableWord 8 0x4B = some .acos ∧
    decodeTableWord 64 0x100 = none := by decide

/-! ### Commands: rows of 95_test_vectors.md, one step each -/

theorem test_add_v3 : answers 0x1 0x8000000000000000 0xFFFFFFFFFFFFFFFF 0x8000000000000000 0 = true := by decide +kernel
theorem test_add_v7 : answers 0x1 0x80000000 0x40000000 0xC0000000 0 = true := by decide +kernel
theorem test_sub_v8 : answers 0x2 0x300000000 0x500000000 0xFFFFFFFE00000000 0 = true := by decide +kernel
theorem test_sub_v11 : answers 0x2 0 0x8000000000000000 0x7FFFFFFFFFFFFFFF 0 = true := by decide +kernel
theorem test_neg_v15 : answers 0x3 0x8000000000000000 0xDEADBEEF 0x7FFFFFFFFFFFFFFF 0 = true := by decide +kernel
theorem test_neg_v17 : answers 0x3 0x7FFFFFFFFFFFFFFF 0xDEADBEEF 0x8000000000000001 0 = true := by decide +kernel
theorem test_fneg_v18 : answers 0x4 0x8000000000000000 0xDEADBEEF 0x8000000000000000 0 = true := by decide +kernel
theorem test_fneg_v19 : answers 0x4 0x300000000 0xDEADBEEF 0xFFFFFFFD00000000 0 = true := by decide +kernel
theorem test_abs_v20 : answers 0x5 0x8000000000000000 0xDEADBEEF 0x7FFFFFFFFFFFFFFF 0 = true := by decide +kernel
theorem test_abs_v21 : answers 0x5 0xFFFFFFFD00000000 0xDEADBEEF 0x300000000 0 = true := by decide +kernel
theorem test_fabs_v24 : answers 0x6 0x8000000000000000 0xDEADBEEF 0x8000000000000000 0 = true := by decide +kernel
theorem test_fabs_v25 : answers 0x6 0xFFFFFFFD00000000 0xDEADBEEF 0x300000000 0 = true := by decide +kernel
theorem test_inc_v26 : answers 0x7 0xFFFFFFFF80000000 0xDEADBEEF 0x80000000 0 = true := by decide +kernel
theorem test_inc_v28 : answers 0x7 0x7FFFFFFF00000000 0xDEADBEEF 0x7FFFFFFFFFFFFFFF 0 = true := by decide +kernel
theorem test_dec_v30 : answers 0x8 0 0xDEADBEEF 0xFFFFFFFF00000000 0 = true := by decide +kernel
theorem test_sign_v31 : answers 0x9 0x8000000000000000 0xDEADBEEF 0xFFFFFFFFFFFFFFFF 0 = true := by decide +kernel
theorem test_sign_v34 : answers 0x9 0x1 0xDEADBEEF 0x1 0 = true := by decide +kernel
theorem test_floor_v36 : answers 0xA 0xFFFFFFFE80000000 0xDEADBEEF 0xFFFFFFFE00000000 0 = true := by decide +kernel
theorem test_floor_v39 : answers 0xA 0x7FFFFFFFFFFFFFFF 0xDEADBEEF 0x7FFFFFFF00000000 0 = true := by decide +kernel
theorem test_ceil_v40 : answers 0xB 0xFFFFFFFE80000000 0xDEADBEEF 0xFFFFFFFF00000000 0 = true := by decide +kernel
theorem test_ceil_v43 : answers 0xB 0x7FFFFFFFFFFFFFFF 0xDEADBEEF 0x7FFFFFFFFFFFFFFF 0 = true := by decide +kernel
theorem test_round_v45 : answers 0xC 0x280000000 0xDEADBEEF 0x200000000 0 = true := by decide +kernel
theorem test_round_v47 : answers 0xC 0xFFFFFFFD80000000 0xDEADBEEF 0xFFFFFFFE00000000 0 = true := by decide +kernel
theorem test_shl_v51 : answers 0xD 0x300000000 0x1F 0x8000000000000000 0 = true := by decide +kernel
theorem test_shl_v52 : answers 0xD 0x140000000 0x40 0x140000000 0 = true := by decide +kernel
theorem test_shr_v54 : answers 0xE 0xFFFFFFFD00000000 0x1 0xFFFFFFFE80000000 0 = true := by decide +kernel
theorem test_shr_v56 : answers 0xE 0x600000000 0x41 0x300000000 0 = true := by decide +kernel
theorem test_fromint_v58 : answers 0xF 0xFFFFFFFFFFFFFFFF 0xDEADBEEF 0xFFFFFFFF00000000 0 = true := by decide +kernel
theorem test_fromint_v59 : answers 0xF 0x80000000 0xDEADBEEF 0x8000000000000000 0 = true := by decide +kernel
theorem test_toint_v61 : answers 0x10 0xFFFFFFFE80000000 0xDEADBEEF 0xFFFFFFFFFFFFFFFE 0 = true := by decide +kernel
theorem test_cmplt_v65 : answers 0x11 0xFFFFFFFF00000000 0x1 0x1 0 = true := by decide +kernel
theorem test_cmplt_v66 : answers 0x11 0x100000000 0x100000000 0 0 = true := by decide +kernel
theorem test_cmple_v69 : answers 0x12 0x100000000 0x100000000 0x1 0 = true := by decide +kernel
theorem test_cmple_v70 : answers 0x12 0x8000000000000000 0x7FFFFFFFFFFFFFFF 0x1 0 = true := by decide +kernel
theorem test_cmpgt_v71 : answers 0x13 0xFFFFFFFF00000000 0x1 0 0 = true := by decide +kernel
theorem test_cmpgt_v72 : answers 0x13 0x100000000 0x100000000 0 0 = true := by decide +kernel
theorem test_cmpge_v75 : answers 0x14 0x100000000 0x100000000 0x1 0 = true := by decide +kernel
theorem test_cmpge_v76 : answers 0x14 0x8000000000000000 0x7FFFFFFFFFFFFFFF 0 0 = true := by decide +kernel
theorem test_cmpeq_v77 : answers 0x15 0xFFFFFFFF00000000 0x1 0 0 = true := by decide +kernel
theorem test_cmpeq_v78 : answers 0x15 0x100000000 0x100000000 0x1 0 = true := by decide +kernel
theorem test_cmpne_v81 : answers 0x16 0x100000000 0x100000000 0 0 = true := by decide +kernel
theorem test_cmpne_v82 : answers 0x16 0x8000000000000000 0x7FFFFFFFFFFFFFFF 0x1 0 = true := by decide +kernel
theorem test_mul_v86 : answers 0x20 0xFFFFFFFFFFFFFFFF 0x80000000 0 0 = true := by decide +kernel
theorem test_mul_v97 : answers 0x20 0x7FFFFFFFFFFFFFFF 0x8000000000000001 0x8000000000000000 0 = true := by decide +kernel
theorem test_div_v99 : answers 0x28 0x100000000 0x300000000 0x55555555 0 = true := by decide +kernel
theorem test_div_v111 : answers 0x28 0 0 0x1234 1 = true := by decide +kernel
theorem test_mod_v113 : answers 0x29 0xFFFFFFFA80000000 0x200000000 0xFFFFFFFE80000000 0 = true := by decide +kernel
theorem test_mod_v118 : answers 0x29 0x100000000 0 0x1234 1 = true := by decide +kernel
theorem test_sqrt_v128 : answers 0x30 0x8000000000000000 0xDEADBEEF 0x1234 2 = true := by decide +kernel
theorem test_sin_v130 : answers 0x38 0x100000000 0xDEADBEEF 0xD76AA478 0 = true := by decide +kernel
theorem test_sin_v138 : answers 0x38 0x8000000000000000 0xDEADBEEF 0xF870C64C 0 = true := by decide +kernel
theorem test_cos_v140 : answers 0x39 0x100000000 0xDEADBEEF 0x8A51407D 0 = true := by decide +kernel
theorem test_cos_v143 : answers 0x39 0xFFFFFFFE6DE04ABC 0xDEADBEEF 0 0 = true := by decide +kernel
theorem test_tan_v146 : answers 0x3A 0x1921FB544 0xDEADBEEF 0x1234 1 = true := by decide +kernel
theorem test_tan_v150 : answers 0x3A 0xFFFFFFFF36F0255E 0xDEADBEEF 0xFFFFFFFF00000001 0 = true := by decide +kernel
theorem test_sinp_v155 : answers 0x40 0x1921FB544 0xDEADBEEF 0x100000001 0 = true := by decide +kernel
theorem test_sinp_v160 : answers 0x40 0x400000000 0xDEADBEEF 0xFFFFFFFE7C5CB3CC 0 = true := by decide +kernel
theorem test_fsin_v164 : answers 0x41 0x7487ED511 0xDEADBEEF 0xD7984DDE 0 = true := by decide +kernel
theorem test_fsin_v168 : answers 0x41 0x6487ED510 0xDEADBEEF 0xFFFFFFFFFFFFFFFF 0 = true := by decide +kernel
theorem test_fcos_v170 : answers 0x42 0x100000000 0xDEADBEEF 0x8A5D2467 0 = true := by decide +kernel
theorem test_fcos_v174 : answers 0x42 0x7FFFFFFFFFFFFFFF 0xDEADBEEF 0xFFFFFFFF078293EB 0 = true := by decide +kernel
theorem test_atan2_v188 : answers 0x48 0 0 0x1234 1 = true := by decide +kernel
theorem test_atan_v189 : answers 0x49 0x80000000 0xDEADBEEF 0x7726CD2A 0 = true := by decide +kernel
theorem test_atan_v194 : answers 0x49 0x8000000000000000 0xDEADBEEF 0xFFFFFFFE6DE04ABD 0 = true := by decide +kernel
theorem test_asin_v199 : answers 0x4A 0xFFFFFFFF 0xDEADBEEF 0x1921E98D6 0 = true := by decide +kernel
theorem test_acos_v203 : answers 0x4B 0x80000000 0xDEADBEEF 0x10B6F4BD9 0 = true := by decide +kernel
theorem test_acos_v208 : answers 0x4B 0x100000001 0xDEADBEEF 0x1234 3 = true := by decide +kernel
theorem test_log2_v215 : answers 0x50 0xFFFFFFFF 0xDEADBEEF 0xFFFFFFFFFFFFFFFE 0 = true := by decide +kernel
theorem test_log2_v218 : answers 0x50 0 0xDEADBEEF 0x1234 3 = true := by decide +kernel
theorem test_ln_v221 : answers 0x51 0x2B7E15162 0xDEADBEEF 0xFFFFFFFE 0 = true := by decide +kernel
theorem test_ln_v224 : answers 0x51 0x1 0xDEADBEEF 0xFFFFFFE9D1BD0120 0 = true := by decide +kernel
theorem test_pow2_v229 : answers 0x52 0xFFFFFFFE80000000 0xDEADBEEF 0x5A82799A 0 = true := by decide +kernel
theorem test_pow2_v230 : answers 0x52 0x1F00000000 0xDEADBEEF 0x7FFFFFFFFFFFFFFF 0 = true := by decide +kernel
theorem test_pow_v246 : answers 0x53 0x2B7E15162 0x100000000 0x2B7E15160 0 = true := by decide +kernel
theorem test_pow_v250 : answers 0x53 0 0xFFFFFFFF00000000 0x1234 1 = true := by decide +kernel

/-- V252, V254: ASIN under the RAISE policy. -/
theorem test_asin_raise_v252 :
    exec .asin { command 0x4A 0x100000001 0 with cfg := { vectorConfig with asinPolicy := .raise } } =
      .next (failed { command 0x4A 0x100000001 0 with cfg := { vectorConfig with asinPolicy := .raise } } 3#3) :=
  next_of_goesTo (by decide +kernel)

/-- V260, V257: an illegal word completes with ILLEGAL_OPCODE and leaves RES. -/
theorem test_illegal_v260 : answers 0x101 1 2 0x1234 4 = true := by decide
theorem test_illegal_v257 : answers 0x00 1 2 0x1234 4 = true := by decide

/-- R240: a miss fills the pair's slot. That a hit writes none: `witness_EveryStepKeepsTheInvariant`. -/
theorem test_atan2_fills : exec .atan2 (command 0x48 oneRaw oneRaw) = .next
    { completed (command 0x48 oneRaw oneRaw) piOver4Raw with cache := [(0, ⟨true, oneRaw, oneRaw, piOver4Raw⟩)] } :=
  next_of_goesTo (by decide +kernel)

/-- R241's examples of the default hash, at 4096 slots. -/
theorem test_hash : atanHash Config.default 0 0 = 0x000 ∧ atanHash Config.default 0 oneRaw = 0x100 ∧
    atanHash Config.default oneRaw oneRaw = 0x000 := by decide +kernel

/-- R196: where the two-pass form differs from R195 (log entry 9). -/
theorem test_sqrt_two_pass : sqrtRaw 8865992844111978193 = .ok 0xB17A4A8EBC86 ∧
    sqrtTwoPass 8865992844111978193 = 0xB17A4A8EBC85 := by decide +kernel

/-! ### The host port: V264 to V278 -/

theorem test_port_v264 : replies (idle [.read 0x00 8]) (.data 5) (·.opa == 5) = true := by decide
theorem test_port_v265 : replies (idle [.write 0x08 8 0x1234]) .done (·.opb == 0x1234) = true := by decide
theorem test_port_v266 : replies (idle [.read 0x10 8]) (.data 0) (fun _ => true) = true := by decide
theorem test_port_v267 : replies (idle [.write 0x18 8 0x77]) .done (·.res == 9) = true := by decide
theorem test_port_v268 : replies (idle [.write 0x20 8 0xF]) .done (statusWord · == 0) = true := by decide
theorem test_port_v269 : replies (idle [.read 0x28 8]) (.data 0) (fun _ => true) = true := by decide
theorem test_port_v270 : replies { idle [.write 0x28 8 0] with cache := [(3, ⟨true, 0, 1, 0⟩)] } .done
    (·.cache == [(3, ⟨true, 0, 1, 0⟩)]) = true := by decide
theorem test_port_cache_inv : replies { idle [.write 0x28 8 1] with cache := [(3, ⟨true, 0, 1, 0⟩), (5, ⟨true, 0, 0, 0⟩)] }
    .done (·.cache == [(3, ⟨false, 0, 1, 0⟩)]) = true := by decide
theorem test_port_v271 : faults (idle [.read 0x30 8]) (.busUnmapped 0x30) = true := by decide
theorem test_port_v272 : faults (idle [.write 0x38 8 1]) (.busUnmapped 0x38) = true := by decide
theorem test_port_v273 : faults (idle [.read 0x04 8]) (.busMisaligned 0x04) = true := by decide
theorem test_port_v274 : faults (idle [.read 0x00 4]) (.busWidth 0x00 4) = true := by decide
theorem test_port_v275 : faults (idle [.write 0x00 1 1]) (.busWidth 0x00 1) = true := by decide
theorem test_port_v276 : faults (idle [.atomic 0x00 8]) (.busAtomic 0x00) = true := by decide

/-- V277: the OPA write right after the CMD write is ignored, and the completion gives TOINT of 5. -/
theorem test_port_v277_write : replies (flight 1 [.write 0x00 8 0x700000000]) .done (fun t => t.opa == 5 && t.busy) = true :=
  by decide
theorem test_port_v277_result : exec .toint (flight 0 []) = .next (completed (flight 0 []) 0) :=
  next_of_goesTo (by decide +kernel)

/-- V278: the little-endian view of OPA. -/
theorem test_port_v278 : blockByte { idle [] with opa := 0x0102030405060708 } 0 = some 0x08 ∧
    blockByte { idle [] with opa := 0x0102030405060708 } 7 = some 0x01 := by decide

/-- R37: ERR 3 while BUSY reads as 7 in STATUS. -/
theorem test_status_word : statusWord { flight 1 [] with err := 3#3 } = 7 := by decide

/-! ### Reset: V279 and after -/

theorem test_reset_registers : State.reset.opa = 0 ∧ State.reset.opb = 0 ∧ State.reset.res = 0 ∧
    statusWord State.reset = 0 ∧ State.reset.pend = none := by decide
theorem test_reset_event : step { flight 3 [.reset] with err := 3#3, cache := [(3, ⟨true, 0, 1, 0⟩)] } =
    .next State.reset := next_of_goesTo (by decide +kernel)
theorem test_first_instruction : step (State.reset.withFetchWord 64 0x08) = .next
    { State.reset with res := -oneRaw, accessed := true } := next_of_goesTo (by decide +kernel)

/-! ### Latency and host programs -/

/-- R300: no completion before a first access comes; that access, of V277's kind, passes a cycle and is ignored. -/
theorem test_no_completion_before_an_access : step (fresh 0 []) = .next (fresh 0 []) ∧
    step (fresh 1 [.write 0x00 8 1]) = .next { flight 0 [] with replies := [.done] } :=
  ⟨next_of_goesTo (by decide +kernel), next_of_goesTo (by decide +kernel)⟩

/-- Program P1's lines 1 to 8: `fx MUL 3.0q, -2.5q -> r1` (R100). -/
theorem test_fx_expands_as_in_P1 :
    fx 0 0 .mul (.q 3) (some (.lit 0xFFFFFFFD80000000)) 1 =
      [.rd 0 .status, .bnz 0 1 0, .wr .opa (.lit 0x0000000300000000), .wr .opb (.lit 0xFFFFFFFD80000000),
        .wr .cmd (.lit 0x20), .rd 0 .status, .bnz 0 1 5, .rd 1 .res] := by decide

/-- R99, R305: a program that writes OPA and reads it back, behind another host's read of STATUS, and one that waits for
the command in flight (R100) and reads its result. -/
theorem test_host_reads_its_own_answer :
    hostResult [.wr .opa (.q 7), .rd 1 .opa] 6 (.start (idle [.read 0x20 8])) =
      some ⟨(0x0000000700000000, 7, 9, 0), (Vector.replicate 16 0).set 1 0x0000000700000000⟩ := by decide +kernel
theorem test_host_waits_for_busy :
    hostResult (fxwait 0 0 ++ [.rd 1 .res]) 20 (.start (fresh 2 [])) = some ⟨(5, 7, 0, 0), Vector.replicate 16 0⟩ := by
  decide +kernel

/-- R79, R304, R305: no final state after a faulted access, nor while BUSY is 1. -/
theorem test_host_has_no_result : hostResult [.rd 1 .res] 6 (.start (idle [.read 0x30 8])) = none ∧
    hostResult [] 6 (.start (fresh 2 [])) = none := by decide +kernel

/-! ### Witnesses: a concrete case that meets the hypotheses of each statement -/

theorem witness_DecodeFollowsTheOpcodeMap :
    (0x53#64).toNat / 2 ^ 8 = 0 ∧ (0x53#64).toNat % 2 ^ 8 = 0x53 ∧ (0x100#64).toNat / 2 ^ 8 ≠ 0 ∧
      ∀ i, (0x17#64).toNat % 2 ^ 8 ≠ opcodeOf i := by
  refine ⟨by decide, by decide, by decide, fun i => by cases i <;> decide⟩

theorem witness_DecodeAndEncodeAgree :
    decode 0x01#64 = .ok .add ∧ decodeBytes [0x01, 0, 0, 0, 0, 0, 0, 0, 0x77] = .ok (.add, [0x77]) := by decide

theorem witness_StepRunsTheCommandInFlight :
    (command 0x01 1 2).busy = true ∧ (command 0x01 1 2).pend = some ⟨0x01, 1, 2⟩ ∧ (command 0x01 1 2).accessed = true ∧
      (command 0x01 1 2).wait = 0 ∧ decode 0x01#64 = .ok .add := by decide

theorem witness_IllegalWordsCompleteWithIllegalOpcode :
    (0x100#64).toNat / 2 ^ 8 ≠ 0 ∧ (∀ i, (0x00#64).toNat % 2 ^ 8 ≠ opcodeOf i) ∧
      (idle [.write 0x10 8 0x100]).busy = false ∧ (idle [.write 0x10 8 0x100]).inbox = [.write 0x10 8 0x100] ∧
      (command 0x00 1 2).busy = true ∧ (command 0x00 1 2).pend = some ⟨0x00, 1, 2⟩ ∧ (command 0x00 1 2).accessed = true ∧
      (command 0x00 1 2).wait = 0 := by
  refine ⟨by decide, fun i => by cases i <;> decide, by decide, by decide, by decide, by decide, by decide, by decide⟩

theorem witness_ResetEventSetsTheResetState :
    portOpen (idle [.reset]) ∧ (idle [.reset]).inbox = [.reset] ∧ portOpen (flight 1 [.reset]) ∧
      (flight 1 [.reset]).inbox = [.reset] ∧ portOpen (fresh 0 [.reset]) ∧ (flight 0 [.reset]).busy = true ∧
      (flight 0 [.reset]).pend = some ⟨0x10, 5, 7⟩ ∧ (flight 0 [.reset]).accessed = true ∧
      (flight 0 [.reset]).wait = 0 ∧ (flight 0 [.reset]).inbox = [.reset] :=
  ⟨.inl rfl, rfl, .inr (.inr (by decide)), rfl, .inr (.inr (by decide)), rfl, rfl, rfl, rfl, rfl⟩

/-- A cache with one valid slot, sound by R236. -/
def oneSlot : Cache := [(0, ⟨true, oneRaw, oneRaw, piOver4Raw⟩)]

theorem oneSlot_sound : CacheSound oneSlot := by
  have hv : atan2Value oneRaw oneRaw = .ok piOver4Raw := by decide +kernel
  intro i h
  by_cases hi : i = 0
  · subst hi; exact hv
  · simp [oneSlot, cacheRead, hi, CacheSlot.blank] at h

/-- ATAN2 of (One, One) in flight over that cache. -/
def cachedCommand : State := { command 0x48 oneRaw oneRaw with cache := oneSlot }

theorem witness_EveryStepKeepsTheInvariant :
    Inv cachedCommand ∧ step cachedCommand = .next { completed cachedCommand piOver4Raw with cache := oneSlot } := by
  refine ⟨⟨⟨rfl, ?_⟩, by decide, ?_, oneSlot_sound, by decide⟩,
    next_of_goesTo (by decide +kernel)⟩
  · intro p hp; simp only [cachedCommand, command, Option.some.injEq] at hp; subst hp; exact ⟨rfl, rfl⟩
  · intro e he
    simp only [cachedCommand, oneSlot, List.mem_cons, List.not_mem_nil, or_false] at he
    subst he; decide

theorem witness_CacheServesOnlyRecomputableValues :
    cacheWf cachedCommand.cache = true ∧ CacheSound cachedCommand.cache ∧ ∃ t, step cachedCommand = .next t :=
  ⟨by decide, oneSlot_sound, _, witness_EveryStepKeepsTheInvariant.2⟩

theorem witness_CacheIsTransparent : CacheSound cachedCommand.cache := oneSlot_sound

theorem witness_ConfigurationNeverChanges : ∃ t, step (idle [.reset]) = .next t := ⟨_, rfl⟩

theorem witness_EveryCommandCompletes : cacheWf cachedCommand.cache = true := by decide

theorem witness_TwoPassRootDiffersSomewhere :
    (command 0x30 8865992844111978193 0).pend = some ⟨0x30, 8865992844111978193, 0⟩ := rfl

/-- The operands at the boundaries of R273's conditions. -/
theorem witness_CommandsRaiseExactlyTheListedErrors :
    cachedCommand.pend = some ⟨0x48, oneRaw, oneRaw⟩ ∧ CacheSound cachedCommand.cache ∧
      (command 0x28 1 0).pend = some ⟨0x28, 1, 0⟩ ∧ (command 0x30 (-1) 0).pend = some ⟨0x30, -1, 0⟩ ∧
      (-1 : Word).toInt < 0 ∧ cosRaw vectorConfig piOver2Raw = 0 ∧ (command 0x48 0 0).pend = some ⟨0x48, 0, 0⟩ ∧
      2 ^ 32 < (oneRaw + 1).toInt ∧ (-oneRaw - 1).toInt < -2 ^ 32 ∧ (0 : Word).toInt ≤ 0 ∧
      CacheSound (command 0x48 0 0).cache ∧ decode 0x17#64 = .error .unassignedOpcode := by
  refine ⟨by decide, oneSlot_sound, by decide, by decide, by decide, by decide +kernel, by decide, by decide, by decide,
    by decide, fun i h => ?_, by decide⟩
  exact absurd h (by simp [command, State.reset, CacheSlot.blank])

theorem witness_UnaryCommandsIgnoreOpb :
    ∀ i ∈ [Instr.neg, .pow2], i ∈ [Instr.neg, .fneg, .abs, .fabs, .inc, .dec, .sign, .floor, .ceil, .round, .fromint,
      .toint, .sqrt, .sin, .cos, .tan, .sinp, .fsin, .fcos, .atan, .asin, .acos, .log2, .ln, .pow2] := by decide

/-- MIN_RAW + MIN_RAW and MIN_RAW - MAX_RAW overflow; One + One and One - One do not. -/
theorem witness_AddAndSubSaturate :
    (command 0x01 minRaw minRaw).pend = some ⟨0x01, minRaw, minRaw⟩ ∧ addOverflows minRaw minRaw (minRaw + minRaw) = true ∧
      subOverflows minRaw maxRaw (minRaw - maxRaw) = true ∧ addOverflows oneRaw oneRaw (oneRaw + oneRaw) = false := by
  decide

theorem witness_NegateAndAbsoluteValue : (command 0x03 minRaw 0).pend = some ⟨0x03, minRaw, 0⟩ := by decide
theorem witness_IncrementAndDecrementSaturate : (command 0x07 maxRaw 0).pend = some ⟨0x07, maxRaw, 0⟩ := by decide
theorem witness_SignIsAPlainInteger : (command 0x09 minRaw 0).pend = some ⟨0x09, minRaw, 0⟩ := by decide
theorem witness_FloorCeilAndRound : (command 0x0C 0x180000000 0).pend = some ⟨0x0C, 0x180000000, 0⟩ := by decide
theorem witness_ShiftsUseTheLowSixBits : (command 0x0D 3 64).pend = some ⟨0x0D, 3, 64⟩ ∧ (64#64).toNat % 64 = 0 := by
  decide

/-- The two ends of the range of 32-bit integers. -/
theorem witness_IntegerConversionsRoundTrip :
    (command 0x0F 0x7FFFFFFF 0).pend = some ⟨0x0F, 0x7FFFFFFF, 0⟩ ∧ (0x7FFFFFFF#64).toInt = 2 ^ 31 - 1 ∧
      (command 0x0F 0xFFFFFFFF80000000 0).pend = some ⟨0x0F, 0xFFFFFFFF80000000, 0⟩ ∧
      (0xFFFFFFFF80000000#64).toInt = -2 ^ 31 ∧
      (command 0x0F 0x7FFFFFFF00000000 0).pend = some ⟨0x0F, fromintRaw 0x7FFFFFFF, 0⟩ := by decide

theorem witness_ComparisonsGiveOneOrZero : (command 0x11 minRaw maxRaw).pend = some ⟨0x11, minRaw, maxRaw⟩ := by decide
theorem witness_MulRoundsHalfUpAndSaturates : (command 0x20 1 0x80000000).pend = some ⟨0x20, 1, 0x80000000⟩ := by decide

/-- Products at and past the two ends of the range. -/
theorem witness_MulIsAccurateToHalfAnUlp :
    (command 0x20 maxRaw oneRaw).pend = some ⟨0x20, maxRaw, oneRaw⟩ ∧
      maxRaw.toInt * oneRaw.toInt = (2 ^ 63 - 1) * 2 ^ 32 ∧ minRaw.toInt * oneRaw.toInt = -2 ^ 95 ∧
      (2 ^ 63 - 1) * 2 ^ 32 < minRaw.toInt * (-oneRaw).toInt ∧ minRaw.toInt * (oneRaw + 1).toInt < -2 ^ 95 := by decide

theorem witness_DivRoundsToNearestAndSaturates :
    (command 0x28 1 0).pend = some ⟨0x28, 1, 0⟩ ∧ (command 0x28 1 1).pend = some ⟨0x28, 1, 1⟩ ∧ (1 : Word) ≠ 0 := by
  decide

/-- Quotients at and past the two ends of the range. -/
theorem witness_DivIsAccurateToHalfAnUlp :
    (command 0x28 maxRaw oneRaw).pend = some ⟨0x28, maxRaw, oneRaw⟩ ∧ oneRaw ≠ 0 ∧
      maxRaw.toInt * 2 ^ 32 * oneRaw.toInt.sign = (2 ^ 63 - 1) * oneRaw.toInt ∧
      minRaw.toInt * 2 ^ 32 * oneRaw.toInt.sign = -2 ^ 63 * oneRaw.toInt ∧
      (2 ^ 63 - 1) * oneRaw.toInt < minRaw.toInt * 2 ^ 32 * (-oneRaw).toInt.sign ∧
      minRaw.toInt * 2 ^ 32 * (oneRaw - 1).toInt.sign < -2 ^ 63 * (oneRaw - 1).toInt := by decide

theorem witness_RestoringDivisionGivesDiv : (1 : Word) ≠ 0 ∧ divDatapath minRaw 1 = minRaw := by decide +kernel

theorem witness_ModIsTheTruncatedRemainder :
    (command 0x29 1 0).pend = some ⟨0x29, 1, 0⟩ ∧ (command 0x29 minRaw (-1)).pend = some ⟨0x29, minRaw, -1⟩ ∧
      (-1 : Word) ≠ 0 := by decide

theorem witness_SqrtIsTheRoundedRoot :
    (command 0x30 (-1) 0).pend = some ⟨0x30, -1, 0⟩ ∧ (-1 : Word).toInt < 0 ∧
      (command 0x30 0 0).pend = some ⟨0x30, 0, 0⟩ ∧ 0 ≤ (0 : Word).toInt := by decide

theorem witness_SqrtIsMonotoneAndExactOnPowersOfFour :
    0 ≤ (0 : Word).toInt ∧ (0 : Word).toInt ≤ (1 : Word).toInt ∧ sqrtRaw 0 = .ok 0 ∧ sqrtRaw 1 = .ok 0x10000 := by
  decide +kernel

theorem witness_SinFoldsAndLooksUp : (command 0x38 piOver2Raw 0).pend = some ⟨0x38, piOver2Raw, 0⟩ := by decide

theorem witness_SineIsBoundedAndPeriodic :
    piTimes2Raw.toInt = (0 : Word).toInt + 26986075409 ∧
      maxRaw.toInt = (maxRaw - piTimes2Raw).toInt + 26986075409 := by decide

theorem witness_SineAndCosineExactValues : Config.default.lutShift = 0 := rfl

/-- At pi/2 the cosine is 0; at 0 it is not. -/
theorem witness_CosAndTanAreBuiltOnSin :
    (command 0x3A piOver2Raw 0).pend = some ⟨0x3A, piOver2Raw, 0⟩ ∧ cosRaw vectorConfig piOver2Raw = 0 ∧
      (command 0x3A 0 0).pend = some ⟨0x3A, 0, 0⟩ ∧ cosRaw vectorConfig 0 ≠ 0 := by decide +kernel

theorem witness_SinpEvaluatesTheParabola : (command 0x40 oneRaw 0).pend = some ⟨0x40, oneRaw, 0⟩ := by decide
theorem witness_FastSineAndCosineReduceToSinp : (command 0x41 (-1) 0).pend = some ⟨0x41, -1, 0⟩ := by decide

/-- A hit, a miss at (0, 0), a miss elsewhere, and a core with no cache. -/
theorem witness_Atan2HitsOrComputesAndFillsItsSlot :
    cachedCommand.pend = some ⟨0x48, oneRaw, oneRaw⟩ ∧ cachedCommand.cfg.atanCacheSlots ≠ 0 ∧
      cacheRead cachedCommand.cache (atanHash cachedCommand.cfg oneRaw oneRaw) = ⟨true, oneRaw, oneRaw, piOver4Raw⟩ ∧
      (command 0x48 0 0).pend = some ⟨0x48, 0, 0⟩ ∧
      (cacheRead (command 0x48 0 0).cache (atanHash (command 0x48 0 0).cfg 0 0)).valid = false ∧
      (command 0x48 0 1).pend = some ⟨0x48, 0, 1⟩ ∧ cacheWf (command 0x48 0 1).cache = true ∧
      (cacheRead (command 0x48 0 1).cache (atanHash (command 0x48 0 1).cfg 0 1)).valid = false ∧
      (withoutCache (command 0x48 0 1)).cfg.atanCacheSlots = 0 := by decide +kernel

theorem witness_Atan2ExactValues :
    CacheSound cachedCommand.cache ∧ cachedCommand.pend = some ⟨0x48, oneRaw, oneRaw⟩ := ⟨oneSlot_sound, rfl⟩

theorem witness_Atan2IsBoundedByPi :
    atan2Value 0 (-1) = .ok piRaw ∧ atan2Value (-1) 0 = .ok (-piOver2Raw) ∧ 0 ≤ (0 : Word).toInt ∧
      (-1 : Word).toInt < 0 := by decide +kernel

theorem witness_AtanIsAtan2OverOne : (command 0x49 0 0).pend = some ⟨0x49, 0, 0⟩ := by decide

/-- One raw unit outside, the two ends, and one raw unit inside, under each policy. -/
theorem witness_AsinFollowsItsPolicyAndFormula :
    (command 0x4A (oneRaw + 1) 0).pend = some ⟨0x4A, oneRaw + 1, 0⟩ ∧ 2 ^ 32 < (oneRaw + 1).toInt ∧
      (-oneRaw - 1).toInt < -2 ^ 32 ∧ (command 0x4A (oneRaw + 1) 0).cfg.asinPolicy = .zero ∧
      oneRaw.toInt = 2 ^ 32 ∧ (-oneRaw).toInt = -2 ^ 32 ∧ (oneRaw - 1).toInt < 2 ^ 32 ∧
      -2 ^ 32 < (-oneRaw + 1).toInt ∧ ({ vectorConfig with asinPolicy := .raise } : Config).asinPolicy = .raise := by
  decide

theorem witness_AcosIsTheComplementOfAsin :
    (command 0x4B (oneRaw + 1) 0).pend = some ⟨0x4B, oneRaw + 1, 0⟩ ∧ 2 ^ 32 < (oneRaw + 1).toInt ∧
      (-oneRaw - 1).toInt < -2 ^ 32 ∧ (command 0x4B oneRaw 0).pend = some ⟨0x4B, oneRaw, 0⟩ ∧ oneRaw.toInt ≤ 2 ^ 32 ∧
      -2 ^ 32 ≤ (-oneRaw).toInt := by decide

theorem witness_AtanHashStaysInRange :
    Config.default.atanCacheSlots ≠ 0 ∧ Config.default.atanHash = .xorFold ∧ Config.default.atanCacheSlots = 4096 := by
  decide

theorem witness_Log2ExtractsBitsBySquaring :
    (command 0x50 0 0).pend = some ⟨0x50, 0, 0⟩ ∧ (0 : Word).toInt ≤ 0 ∧ (command 0x50 1 0).pend = some ⟨0x50, 1, 0⟩ ∧
      0 < (1 : Word).toInt := by decide

theorem witness_LnIsLog2TimesLn2 :
    (command 0x51 0 0).pend = some ⟨0x51, 0, 0⟩ ∧ (0 : Word).toInt ≤ 0 ∧ (command 0x51 1 0).pend = some ⟨0x51, 1, 0⟩ ∧
      0 < (1 : Word).toInt := by decide

theorem witness_Pow2BuildsByRootsAndShifts :
    (command 0x52 0 0).pend = some ⟨0x52, 0, 0⟩ ∧ 0 ≤ (0 : Word).toInt / 2 ^ 32 ∧
      (command 0x52 (-1) 0).pend = some ⟨0x52, -1, 0⟩ ∧ (-1 : Word).toInt / 2 ^ 32 < 0 := by decide

/-- One operand pair for each of R253's cases. -/
theorem witness_PowFollowsItsCases :
    (command 0x53 0 0).pend = some ⟨0x53, 0, 0⟩ ∧ (command 0x53 (-1) 1).pend = some ⟨0x53, -1, 1⟩ ∧
      (1 : Word) ≠ 0 ∧ (-1 : Word).toInt < 0 ∧ (command 0x53 0 (-1)).pend = some ⟨0x53, 0, -1⟩ ∧
      (command 0x53 0 1).pend = some ⟨0x53, 0, 1⟩ ∧ 0 < (1 : Word).toInt ∧
      (command 0x53 1 1).pend = some ⟨0x53, 1, 1⟩ := by decide

theorem witness_LogAndPowExactValues : 0 ≤ 62 ∧ 62 ≤ 62 := by decide

theorem witness_CmdWriteIssuesACommand :
    (idle [.write 0x10 8 0x01]).busy = false ∧ (idle [.write 0x10 8 0x01]).inbox = [.write 0x10 8 0x01] := by decide

theorem witness_FirstAccessAfterCmdSeesBusy :
    (idle [.write 0x10 8 0x01]).busy = false ∧ (idle [.write 0x10 8 0x01]).inbox = [.write 0x10 8 0x01] ∧
      (idle [.write 0x10 8 0x01, .read 0x20 8]).inbox = [.write 0x10 8 0x01, .read 0x20 8] ∧
      Input.wf (.read 0x20 8) = true ∧ Input.wf (.read 0x18 8) = true ∧ Input.wf (.write 0x28 8 1) = true ∧
      Input.read 0x20 8 ≠ .reset := by decide

theorem witness_CommandsCompleteAfterTheirLatency :
    (flight 3 []).busy = true ∧ (flight 3 []).pend = some ⟨0x10, 5, 7⟩ ∧ (flight 3 []).accessed = true ∧
      (flight 3 []).inbox = [] := by decide

theorem witness_WritesWhileBusyAreIgnored :
    (flight 1 [.write 0x28 8 1]).busy = true ∧ (flight 1 [.write 0x28 8 1]).pend = some ⟨0x10, 5, 7⟩ ∧
      portOpen (flight 1 [.write 0x28 8 1]) ∧ portOpen (fresh 0 [.write 0x18 8 1]) ∧
      0x28 ∈ [0x00, 0x08, 0x10, 0x18, 0x20, 0x28] ∧ 0x18 ∈ [0x00, 0x08, 0x10, 0x18, 0x20, 0x28] ∧
      (flight 1 [.write 0x28 8 1]).inbox = [.write 0x28 8 1] ∧ (fresh 0 [.write 0x18 8 1]).busy = true ∧
      (fresh 0 [.write 0x18 8 1]).pend = some ⟨0x10, 5, 7⟩ ∧ (fresh 0 [.write 0x18 8 1]).inbox = [.write 0x18 8 1] :=
  ⟨rfl, rfl, .inr (.inr (by decide)), .inr (.inr (by decide)), by decide, by decide, rfl, rfl, rfl, rfl⟩

theorem witness_IdleWritesSetTheOperands :
    (idle []).busy = false ∧ (idle []).inbox = [] ∧ (idle [.write 0x00 8 1]).inbox = [.write 0x00 8 1] ∧
      (idle [.write 0x08 8 1]).inbox = [.write 0x08 8 1] ∧ (idle [.write 0x20 8 1]).inbox = [.write 0x20 8 1] ∧
      (idle [.write 0x28 8 2]).inbox = [.write 0x28 8 2] ∧ (2#64).getLsbD 0 = false := by decide

theorem witness_CacheInvClearsEveryValidBit :
    (idle [.write 0x28 8 1]).busy = false ∧ cacheWf (idle [.write 0x28 8 1]).cache = true ∧
      (idle [.write 0x28 8 1]).inbox = [.write 0x28 8 1] ∧ (1#64).getLsbD 0 = true := by decide

theorem witness_ReadsReturnTheRegisters :
    portOpen (idle [.read 0x20 8]) ∧ (idle [.read 0x20 8]).inbox = [.read 0x20 8] ∧ portOpen (flight 1 [.read 0x28 8]) ∧
      (flight 1 [.read 0x28 8]).inbox = [.read 0x28 8] ∧ portOpen (fresh 0 [.read 0x20 8]) :=
  ⟨.inl rfl, rfl, .inr (.inr (by decide)), rfl, .inr (.inr (by decide))⟩

theorem witness_RegisterBytesAreLittleEndian : 0 < 8 ∧ 7 < 8 ∧ blockByte (idle []) 0x18 = some 9 := by decide

end Sys2Proof.Tests
end

section
/-!
PROOFS. The statements about the step, the reset state and the invariants (10_state.md, R40 to R48). Two inversions carry
them: what `exec` can answer for any command (`exec_cases`), and that every step is a chain of elementary updates of the
state (`step_updates`), so that an invariant is checked once for each kind of update.
-/

namespace Sys2Proof.Machine

/-! ### The errors a command can raise (R271, R273) -/

/-- `r` raises none but the error codes 1 to 3: ILLEGAL_OPCODE belongs to the decoder alone (R96). -/
def RaisesListed {α : Type} (r : Except CommandError α) : Prop := ∀ e, r = .error e → e ≠ .illegalOpcode

theorem raisesListed_ok {α : Type} (v : α) : RaisesListed (.ok v) := by simp [RaisesListed]

theorem raisesListed_error {α : Type} {e : CommandError} (h : e ≠ .illegalOpcode) :
    RaisesListed (.error e : Except CommandError α) := by simpa [RaisesListed] using h

theorem RaisesListed.ne_illegal {α : Type} {r : Except CommandError α} {e : CommandError} (h : RaisesListed r)
    (he : r = .error e) : e ≠ .illegalOpcode := h e he

/-- An operand check that raises a listed error, and a result otherwise. -/
theorem raisesListed_guard {α : Type} {p : Prop} [Decidable p] {e : CommandError} (h : e ≠ .illegalOpcode) (v : α) :
    RaisesListed (if p then .error e else .ok v) := by
  split_ifs
  · exact raisesListed_error h
  · exact raisesListed_ok v

theorem code_mem_of_ne_illegal {e : CommandError} (h : e ≠ .illegalOpcode) : e.code ∈ [1#3, 2#3, 3#3] := by
  cases e
  case illegalOpcode => exact absurd rfl h
  all_goals simp

theorem divRaw_raisesListed (a b : Word) : RaisesListed (divRaw a b) := raisesListed_guard (by decide) _

theorem modRaw_raisesListed (a b : Word) : RaisesListed (modRaw a b) := raisesListed_guard (by decide) _

theorem sqrtRaw_raisesListed (a : Word) : RaisesListed (sqrtRaw a) := raisesListed_guard (by decide) _

/-- TAN raises what its DIV raises (R211). -/
theorem tanRaw_raisesListed (cfg : Config) (a : Word) : RaisesListed (tanRaw cfg a) := divRaw_raisesListed _ _

theorem atanRatio_raisesListed (y x : Word) : RaisesListed (atanRatio y x) := by
  unfold atanRatio
  split_ifs <;> exact divRaw_raisesListed _ _

theorem atan2Value_raisesListed (y x : Word) : RaisesListed (atan2Value y x) := by
  unfold atan2Value
  split
  next e he => exact raisesListed_error ((atanRatio_raisesListed y x).ne_illegal he)
  next => exact raisesListed_ok _

theorem log2Raw_raisesListed (a : Word) : RaisesListed (log2Raw a) := raisesListed_guard (by decide) _

/-- LN raises what its LOG2 raises (R251). -/
theorem lnRaw_raisesListed (a : Word) : RaisesListed (lnRaw a) := by
  unfold lnRaw
  split
  next => exact raisesListed_ok _
  next e he => exact raisesListed_error ((log2Raw_raisesListed a).ne_illegal he)

theorem pow2Loop_raisesListed (f n j : Nat) (z : Word) : RaisesListed (pow2Loop f n j z) := by
  induction n generalizing j z with
  | zero => exact raisesListed_ok z
  | succ n ih =>
    unfold pow2Loop
    split
    next => exact ih _ _
    next e he => exact raisesListed_error ((sqrtRaw_raisesListed _).ne_illegal he)

theorem pow2Raw_raisesListed (a : Word) : RaisesListed (pow2Raw a) := by
  unfold pow2Raw
  dsimp only
  split
  next => exact raisesListed_ok _
  next e he => exact raisesListed_error ((pow2Loop_raisesListed _ _ _ _).ne_illegal he)

theorem powRaw_raisesListed (bs e : Word) : RaisesListed (powRaw bs e) := by
  unfold powRaw
  split_ifs
  · exact raisesListed_ok _
  · exact raisesListed_error (by decide)
  · exact raisesListed_error (by decide)
  · exact raisesListed_ok _
  · split
    next => exact pow2Raw_raisesListed _
    next e he => exact raisesListed_error ((log2Raw_raisesListed bs).ne_illegal he)

/-! ### The commands that go through ATAN2 (R240, R244 to R246) -/

/-- What a command that goes through ATAN2 can answer: a result that leaves the cache, a result that fills the slot of a
pair of operands with its ATAN2_VALUE (R240), where `pair` says which pairs the command gives ATAN2, or an error. -/
inductive CachedAnswer (cfg : Config) (c : Cache) (pair : Word → Word → Prop) : Except CommandError (Word × Cache) → Prop
  | kept (v : Word) : CachedAnswer cfg c pair (.ok (v, c))
  | filled {y x u : Word} (hpair : pair y x) (hval : atan2Value y x = .ok u) (hslots : cfg.atanCacheSlots ≠ 0) (v : Word) :
      CachedAnswer cfg c pair (.ok (v, cacheWrite c (atanHash cfg y x) ⟨true, y, x, u⟩))
  | raised {e : CommandError} (h : e ≠ .illegalOpcode) : CachedAnswer cfg c pair (.error e)

theorem atan2Cached_answer (cfg : Config) (c : Cache) {pair : Word → Word → Prop} {y x : Word} (h : pair y x) :
    CachedAnswer cfg c pair (atan2Cached cfg c y x) := by
  rcases atan2Cached_cases cfg c y x with ⟨e, he, hr⟩ | ⟨v, -, -, hr⟩ | ⟨-, -, -, -, hr⟩ | ⟨v, hv, hslots, hr⟩ <;> rw [hr]
  · exact .raised ((atan2Value_raisesListed y x).ne_illegal he)
  · exact .kept v
  · exact .kept _
  · exact .filled h hv hslots v

/-- `y` is the operand that ASIN of `a` gives ATAN: the quotient of `a` by the rounded root of `1 - a * a` (R245). -/
def AsinArgument (a y : Word) : Prop :=
  ∃ r, y.toInt = divInt a.toInt r ∧ IsRoundedRoot (clamp (2 ^ 32 - mulInt a.toInt a.toInt) * 2 ^ 32) r

theorem sqrtRaw_isRoundedRoot {a r : Word} (h : sqrtRaw a = .ok r) : IsRoundedRoot (a.toInt * 2 ^ 32) r.toInt := by
  rcases lt_or_ge a.toInt 0 with hneg | hnonneg
  · simp [sqrtRaw_neg hneg] at h
  · obtain ⟨v, hv, hroot, -⟩ := sqrtRaw_ok hnonneg
    obtain rfl : v = r := by simpa [hv] using h
    exact hroot

theorem divRaw_eq_divInt {a b q : Word} (h : divRaw a b = .ok q) : q.toInt = divInt a.toInt b.toInt := by
  have hb : b ≠ 0 := by
    intro hb
    rw [hb, divRaw_zero] at h
    cases h
  obtain ⟨v, hv, hval⟩ := divRaw_ok a b hb
  obtain rfl : v = q := by simpa [hv] using h
  exact hval

theorem oneRaw_toInt : oneRaw.toInt = 2 ^ 32 := by decide

theorem asinArgument_of_ok {a r q : Word} (hr : sqrtRaw (subRaw oneRaw (mulRaw a a)) = .ok r) (hq : divRaw a r = .ok q) :
    AsinArgument a q := by
  refine ⟨r.toInt, divRaw_eq_divInt hq, ?_⟩
  simpa [subRaw_toInt, mulRaw_toInt, oneRaw_toInt] using sqrtRaw_isRoundedRoot hr

section
variable (cfg : Config) (c : Cache) {pair : Word → Word → Prop} {a : Word}

theorem asinInner_answer (h : ∀ y, AsinArgument a y → pair y oneRaw) :
    CachedAnswer cfg c pair (asinInner cfg c a) := by
  unfold asinInner
  split
  next e he => exact .raised ((sqrtRaw_raisesListed _).ne_illegal he)
  next r hr =>
    split
    next e he => exact .raised ((divRaw_raisesListed _ _).ne_illegal he)
    next q hq => exact atan2Cached_answer cfg c (h q (asinArgument_of_ok hr hq))

theorem asinCached_answer (h : ∀ y, AsinArgument a y → pair y oneRaw) :
    CachedAnswer cfg c pair (asinCached cfg c a) := by
  unfold asinCached
  split_ifs
  · cases cfg.asinPolicy
    · exact .kept _
    · exact .raised (by decide)
  · exact .kept _
  · exact .kept _
  · exact asinInner_answer cfg c h

/-- ACOS leaves the cache that its ASIN leaves (R246). -/
theorem acosCached_answer (h : ∀ y, AsinArgument a y → pair y oneRaw) :
    CachedAnswer cfg c pair (acosCached cfg c a) := by
  have hasin := asinCached_answer cfg c h
  unfold acosCached
  split_ifs
  · exact .raised (by decide)
  · generalize asinCached cfg c a = r at hasin
    cases hasin with
    | kept v => exact .kept _
    | filled hpair hval hslots v => exact .filled hpair hval hslots _
    | raised he => exact .raised he

end

/-! ### What any command can answer (R45, R272) -/

/-- (`y`, `x`) is a pair that the command `i` gives ATAN2 where its operands are `a` and `b` (R240, R244 to R246). -/
def Atan2Pair (i : Instr) (a b y x : Word) : Prop :=
  match i with
  | .atan2        => y = a ∧ x = b
  | .atan         => y = a ∧ x = oneRaw
  | .asin | .acos => AsinArgument a y ∧ x = oneRaw
  | _             => False

theorem mem_of_atan2Pair {i : Instr} {a b y x : Word} (h : Atan2Pair i a b y x) :
    i ∈ [Instr.atan2, .atan, .asin, .acos] := by
  cases i
  case atan2 | atan | asin | acos => decide
  all_goals exact h.elim

/-- Only ATAN2 itself chooses its second operand; the others give it One (R244, R245). -/
theorem eq_oneRaw_of_atan2Pair {i : Instr} {a b y x : Word} (h : Atan2Pair i a b y x) (hi : i ≠ .atan2) : x = oneRaw := by
  cases i
  case atan2 => exact absurd rfl hi
  case atan | asin | acos => exact h.2
  all_goals exact h.elim

/-- A command that does not go through ATAN2 ends in `finish`, with a result or a listed error. -/
theorem exec_eq_finish {i : Instr} (hi : i ∉ [Instr.atan2, .atan, .asin, .acos]) (s : State) :
    ∃ r, exec i s = finish s r ∧ RaisesListed r := by
  cases i
  case div => exact ⟨_, exec_div s, divRaw_raisesListed _ _⟩
  case mod => exact ⟨_, exec_mod s, modRaw_raisesListed _ _⟩
  case sqrt => exact ⟨_, exec_sqrt s, sqrtRaw_raisesListed _⟩
  case tan => exact ⟨_, exec_tan s, tanRaw_raisesListed _ _⟩
  case log2 => exact ⟨_, exec_log2 s, log2Raw_raisesListed _⟩
  case ln => exact ⟨_, exec_ln s, lnRaw_raisesListed _⟩
  case pow2 => exact ⟨_, exec_pow2 s, pow2Raw_raisesListed _⟩
  case pow => exact ⟨_, exec_pow s, powRaw_raisesListed _ _⟩
  case atan2 | atan | asin | acos => exact absurd (by decide) hi
  all_goals exact ⟨_, rfl, raisesListed_ok _⟩

/-- A command that goes through ATAN2 ends in `finishCached`. -/
theorem exec_eq_finishCached {i : Instr} (hi : i ∈ [Instr.atan2, .atan, .asin, .acos]) (s : State) :
    ∃ r, exec i s = finishCached s r ∧ CachedAnswer s.cfg s.cache (Atan2Pair i (operandA s) (operandB s)) r := by
  simp only [List.mem_cons, List.not_mem_nil, or_false] at hi
  rcases hi with rfl | rfl | rfl | rfl
  · exact ⟨_, exec_atan2 s, atan2Cached_answer _ _ ⟨rfl, rfl⟩⟩
  · exact ⟨_, exec_atan s, atan2Cached_answer _ _ ⟨rfl, rfl⟩⟩
  · exact ⟨_, exec_asin s, asinCached_answer _ _ fun y hy => ⟨hy, rfl⟩⟩
  · exact ⟨_, exec_acos s, acosCached_answer _ _ fun y hy => ⟨hy, rfl⟩⟩

/-- What any command can answer: a result that leaves the cache, a result that fills the slot of the pair it gave ATAN2,
or one of the errors with codes 1 to 3. -/
theorem exec_cases (i : Instr) (s : State) :
    (∃ v, exec i s = .next (completed s v)) ∨
    (∃ v y x u, Atan2Pair i (operandA s) (operandB s) y x ∧ atan2Value y x = .ok u ∧ s.cfg.atanCacheSlots ≠ 0 ∧
      exec i s = .next { completed s v with cache := cacheWrite s.cache (atanHash s.cfg y x) ⟨true, y, x, u⟩ }) ∨
    (∃ e, e ≠ CommandError.illegalOpcode ∧ exec i s = .next (failed s e.code)) := by
  by_cases hi : i ∈ [Instr.atan2, .atan, .asin, .acos]
  · obtain ⟨r, hr, ha⟩ := exec_eq_finishCached hi s
    rw [hr]
    cases ha with
    | kept v => exact .inl ⟨v, rfl⟩
    | filled hpair hval hslots v => exact .inr (.inl ⟨v, _, _, _, hpair, hval, hslots, rfl⟩)
    | raised he => exact .inr (.inr ⟨_, he, rfl⟩)
  · obtain ⟨r, hr, hraise⟩ := exec_eq_finish hi s
    rcases finish_cases s r with ⟨v, -, hf⟩ | ⟨e, he, hf⟩
    · exact .inl ⟨v, hr.trans hf⟩
    · exact .inr (.inr ⟨e, hraise.ne_illegal he, hr.trans hf⟩)

/-- Settles O13, by the three answers of `exec_cases`. -/
theorem everyCommandCompletes : Obligations.EveryCommandCompletes := by
  unfold Obligations.EveryCommandCompletes
  intro i s
  rcases exec_cases i s with ⟨v, hv⟩ | ⟨v, y, x, u, hpair, hval, hslots, hv⟩ | ⟨e, he, hv⟩
  · exact .inl ⟨v, s.cache, hv, fun _ => rfl, fun _ => .inl rfl⟩
  · refine .inl ⟨v, _, hv, fun hi => absurd (mem_of_atan2Pair hpair) hi, fun hwf => .inr ⟨y, x, u, hval, hslots, ?_⟩⟩
    refine ⟨?_, eq_oneRaw_of_atan2Pair hpair, ?_, ?_, ?_, fun j hj => ?_⟩
    · rintro rfl; exact hpair
    · rintro rfl; exact hpair.1
    · intro hi
      simp only [List.mem_cons, List.not_mem_nil, or_false] at hi
      rcases hi with rfl | rfl <;> exact hpair.1
    · rw [cacheRead_cacheWrite hwf, if_pos rfl]
    · rw [cacheRead_cacheWrite hwf, if_neg hj]
  · exact .inr ⟨e.code, code_mem_of_ne_illegal he, hv⟩

/-! ### Every step is a chain of elementary updates -/

/-- The elementary updates that steps are made of. -/
inductive Update (s : State) : State → Prop
  /-- A command ends with a result (R45). -/
  | complete (v : Word) : Update s (completed s v)
  /-- A command ends with an error (R45, R272). -/
  | fail (e : CommandError) : Update s (failed s e.code)
  /-- ATAN2 fills the slot of a pair of operands with its ATAN2_VALUE (R240). -/
  | fillSlot {y x u : Word} (hval : atan2Value y x = .ok u) (hslots : s.cfg.atanCacheSlots ≠ 0) :
      Update s { s with cache := cacheWrite s.cache (atanHash s.cfg y x) ⟨true, y, x, u⟩ }
  /-- An idle host write sets OPA (R62). -/
  | writeOpa (hidle : s.busy = false) (v : Word) : Update s { s with opa := v }
  /-- An idle host write sets OPB (R62). -/
  | writeOpb (hidle : s.busy = false) (v : Word) : Update s { s with opb := v }
  /-- An idle host write issues a command (R62). -/
  | accept (hidle : s.busy = false) (w : Word) : Update s (acceptCommand s w)
  /-- An idle host write clears every valid bit (R242). -/
  | invalidate (hidle : s.busy = false) : Update s { s with cache := cacheInvalidate s.cache }
  /-- The platform's reset event (R290). -/
  | reset : Update s (resetEvent s)
  /-- An input is taken from the port. -/
  | takeInput (rest : List Input) : Update s { s with inbox := rest }
  /-- The bus answers an access. -/
  | reply (r : Reply) : Update s (answer s r)
  /-- A cycle of the latency passes (R300). -/
  | passCycle (n : Nat) (b : Bool) : Update s { s with wait := n, accessed := b }

/-- `t` is reached from `s` by a chain of elementary updates. -/
abbrev Updates : State → State → Prop := Relation.ReflTransGen Update

/-- What every update keeps, every chain of updates keeps. -/
theorem Updates.keep {P : State → Prop} (hP : ∀ s t, Update s t → P s → P t) {s t : State} (h : Updates s t) (hs : P s) :
    P t := by
  induction h with
  | refl => exact hs
  | tail _ hu ih => exact hP _ _ hu ih

theorem exec_updates {i : Instr} {s t : State} (h : exec i s = .next t) : Updates s t := by
  rcases exec_cases i s with ⟨v, hv⟩ | ⟨v, y, x, u, -, hval, hslots, hv⟩ | ⟨e, -, hv⟩ <;>
    obtain rfl := Host.Outcome.next.inj (hv.symm.trans h)
  · exact .single (.complete v)
  · exact (Relation.ReflTransGen.single (.fillSlot hval hslots)).tail (.complete v)
  · exact .single (.fail e)

theorem completion_updates {w : Word} {s t : State} (h : completion s w = .next t) : Updates s t := by
  rcases completion_cases s w with ⟨i, -, hc⟩ | ⟨e, -, hc⟩
  · exact exec_updates (hc.symm.trans h)
  · obtain rfl := Host.Outcome.next.inj (hc.symm.trans h)
    exact .single (.fail .illegalOpcode)

theorem writeReg_updates (s : State) (r : Reg) (v : Word) : Updates s (writeReg s r v) := by
  rcases writeReg_cases s r v with h | ⟨hidle, h | h | h | h⟩ <;> rw [h]
  · exact .single (.writeOpa hidle v)
  · exact .single (.writeOpb hidle v)
  · exact .single (.accept hidle v)
  · exact .single (.invalidate hidle)

theorem serveInput_updates {i : Input} {s t : State} (h : serveInput s i = .next t) : Updates s t := by
  rcases serveInput_cases h with ⟨off, r, -, -, rfl⟩ | ⟨off, r, v, -, -, rfl⟩ | ⟨-, rfl⟩
  · exact .single (.reply _)
  · exact (writeReg_updates s r v).tail (.reply _)
  · exact .single .reset

theorem serve_updates {s t : State} (h : serve s = .next t) : Updates s t := by
  rcases serve_cases h with ⟨-, rfl⟩ | ⟨i, rest, -, hi⟩
  · exact .refl
  · exact (serveInput_updates hi).head (.takeInput rest)

theorem latencyCycle_updates {s t : State} (h : latencyCycle s = .next t) : Updates s t := by
  rcases latencyCycle_cases s with ⟨-, -, hl⟩ | ⟨-, hl⟩
  · obtain rfl := Host.Outcome.next.inj (hl.symm.trans h)
    exact .refl
  · exact (serve_updates (hl.symm.trans h)).head (.passCycle _ _)

/-- Every step is a chain of elementary updates: a completion, a cycle of the latency, or the service of the port. -/
theorem step_updates {s t : State} (h : step s = .next t) : Updates s t := by
  rcases step_cases s with ⟨p, -, -, -, hs⟩ | ⟨p, -, -, -, hs⟩ | ⟨-, hs⟩
  · exact completion_updates (hs.symm.trans h)
  · exact latencyCycle_updates (hs.symm.trans h)
  · exact serve_updates (hs.symm.trans h)

/-- What every update keeps, every step keeps. -/
theorem step_keeps {P : State → Prop} (hP : ∀ s t, Update s t → P s → P t) {s t : State} (h : step s = .next t)
    (hs : P s) : P t := (step_updates h).keep hP hs

/-! ### The configuration (R47, R48) -/

theorem Update.cfg_eq {s t : State} (h : Update s t) : t.cfg = s.cfg := by cases h <;> rfl

theorem step_cfg {s t : State} (h : step s = .next t) : t.cfg = s.cfg :=
  step_keeps (P := fun t => t.cfg = s.cfg) (fun _ _ hu hs => hu.cfg_eq.trans hs) h rfl

/-- Settles O12: no update changes the configuration, and the table is a part of it. -/
theorem configurationNeverChanges : Obligations.ConfigurationNeverChanges := by
  unfold Obligations.ConfigurationNeverChanges
  intro s t h
  exact ⟨step_cfg h, fun i => by rw [step_cfg h]⟩

/-! ### The atan cache (R42) -/

theorem cacheSound_nil : CacheSound [] := fun i h => absurd h (by simp [CacheSlot.blank])

/-- Filling a slot with the ATAN2_VALUE of its keys keeps the cache sound. -/
theorem cacheSound_cacheWrite {c : Cache} (hwf : cacheWf c = true) (hc : CacheSound c) {y x u : Word}
    (hval : atan2Value y x = .ok u) (i : Nat) : CacheSound (cacheWrite c i ⟨true, y, x, u⟩) := by
  intro j
  rw [cacheRead_cacheWrite hwf]
  split_ifs
  · exact fun _ => hval
  · exact hc j

/-- A cache with no valid slot is sound. -/
theorem cacheSound_cacheInvalidate {c : Cache} (hwf : cacheWf c = true) : CacheSound (cacheInvalidate c) := by
  intro j hvalid
  simp [cacheRead_cacheInvalidate hwf] at hvalid

/-- A cache in canonical form whose valid slots hold the ATAN2_VALUE of their keys. -/
def CacheGood (s : State) : Prop := cacheWf s.cache = true ∧ CacheSound s.cache

theorem Update.keeps_cacheGood {s t : State} (h : Update s t) (hs : CacheGood s) : CacheGood t := by
  obtain ⟨hwf, hsound⟩ := hs
  cases h with
  | fillSlot hval hslots => exact ⟨cacheWrite_wf _ _ hwf, cacheSound_cacheWrite hwf hsound hval _⟩
  | invalidate _ => exact ⟨cacheInvalidate_wf hwf, cacheSound_cacheInvalidate hwf⟩
  | reset => exact ⟨reset_cache_wf, cacheSound_nil⟩
  | complete | fail | writeOpa | writeOpb | accept | takeInput | reply | passCycle => exact ⟨hwf, hsound⟩

/-- With a sound cache ATAN2 answers as ATAN2_VALUE does, whatever the cache holds: the same value or the same error. -/
theorem atan2Cached_of_sound (cfg : Config) {c : Cache} (hc : CacheSound c) (y x : Word) :
    (∃ v c', atan2Value y x = .ok v ∧ atan2Cached cfg c y x = .ok (v, c')) ∨
    (∃ e, atan2Value y x = .error e ∧ atan2Cached cfg c y x = .error e) := by
  rcases atan2Cached_cases cfg c y x with h | ⟨v, hv, -, hr⟩ | ⟨-, hvalid, hy, hx, hr⟩ | ⟨v, hv, -, hr⟩
  · exact .inr h
  · exact .inl ⟨v, _, hv, hr⟩
  · have hit := hc _ hvalid
    rw [hy, hx] at hit
    exact .inl ⟨_, _, hit, hr⟩
  · exact .inl ⟨v, _, hv, hr⟩

/-- Settles O10: every update keeps the cache canonical and sound, and a sound cache serves what ATAN2_VALUE gives. -/
theorem cacheServesOnlyRecomputableValues : Obligations.CacheServesOnlyRecomputableValues := by
  unfold Obligations.CacheServesOnlyRecomputableValues
  refine ⟨cacheSound_nil, fun s t hwf hsound h => ?_, fun cfg c y x hc => ?_⟩
  · exact (step_keeps (fun _ _ hu => hu.keeps_cacheGood) h ⟨hwf, hsound⟩).2
  · rcases atan2Cached_of_sound cfg hc y x with ⟨v, c', hv, hr⟩ | ⟨e, he, hr⟩
    · simp [hv, hr]
    · simp [he, hr]

/-! ### The slot index (R60, R241) -/

/-- The XOR-fold stays below the number of slots: every chunk is below `2^k`, and XOR keeps that bound. -/
theorem xorFold_lt (k : Nat) (y x : Word) : xorFold k y x < 2 ^ k := by
  unfold xorFold
  refine List.foldlRecOn (motive := fun h => h < 2 ^ k) _ _ (Nat.two_pow_pos k) fun h hh j _ => ?_
  split_ifs
  · exact Nat.xor_lt_two_pow hh (Nat.mod_lt _ (Nat.two_pow_pos k))
  · exact hh

theorem atanHash_lt {cfg : Config} (h : cfg.atanCacheSlots ≠ 0) (y x : Word) : atanHash cfg y x < cfg.atanCacheSlots := by
  unfold atanHash
  split
  · exact (xorFold_lt _ y x).trans_le (Nat.log2_self_le h)
  · exact Nat.mod_lt _ (Nat.pos_of_ne_zero h)

/-! ### The invariant (R40 to R42, R271) -/

/-- A core that is not busy has no pending command (R40). -/
theorem FlightConsistent.pend_eq_none {s : State} (h : FlightConsistent s) (hidle : s.busy = false) : s.pend = none := by
  simpa [hidle] using h.1.symm

theorem flightConsistent_of_idle {s : State} (hidle : s.busy = false) (hp : s.pend = none) : FlightConsistent s :=
  ⟨by rw [hidle, hp]; rfl, by simp [hp]⟩

theorem Update.keeps_flightConsistent {s t : State} (h : Update s t) (hs : FlightConsistent s) : FlightConsistent t := by
  cases h with
  | complete | fail | reset => exact flightConsistent_of_idle rfl rfl
  | writeOpa hidle | writeOpb hidle => exact flightConsistent_of_idle hidle (hs.pend_eq_none hidle)
  | accept hidle w => exact ⟨rfl, by simp⟩
  | fillSlot | invalidate | takeInput | reply | passCycle => exact hs

theorem Update.keeps_cacheInRange {s t : State} (h : Update s t) (hs : CacheInRange s) : CacheInRange t := by
  cases h with
  | fillSlot hval hslots =>
    intro e he
    rcases mem_cacheWrite he with rfl | he
    · exact atanHash_lt hslots _ _
    · exact hs e he
  | invalidate hidle =>
    intro e he
    obtain ⟨f, hf, rfl⟩ := mem_cacheInvalidate he
    exact hs f hf
  | reset => exact fun e he => absurd he List.not_mem_nil
  | complete | fail | writeOpa | writeOpb | accept | takeInput | reply | passCycle => exact hs

theorem Update.keeps_errCode {s t : State} (h : Update s t) (hs : s.err.toNat ≤ 4) : t.err.toNat ≤ 4 := by
  cases h with
  | complete | reset => simp
  | fail e => exact code_le_four e
  | fillSlot | writeOpa | writeOpb | accept | invalidate | takeInput | reply | passCycle => exact hs

theorem Update.keeps_inv {s t : State} (h : Update s t) (hs : Inv s) : Inv t :=
  have hcache := h.keeps_cacheGood ⟨hs.canonical, hs.sound⟩
  { flight    := h.keeps_flightConsistent hs.flight
    canonical := hcache.1
    inRange   := h.keeps_cacheInRange hs.inRange
    sound     := hcache.2
    errCode   := h.keeps_errCode hs.errCode }

/-- Settles O9: every update keeps each part of the invariant, and a step is a chain of updates. -/
theorem everyStepKeepsTheInvariant : Obligations.EveryStepKeepsTheInvariant := by
  unfold Obligations.EveryStepKeepsTheInvariant
  intro s t hs h
  exact step_keeps (fun _ _ hu => hu.keeps_inv) h hs

/-- Settles O8: at reset nothing is in flight and the cache is empty. -/
theorem invariantHoldsAtReset : Obligations.InvariantHoldsAtReset where
  flight    := flightConsistent_of_idle rfl rfl
  canonical := reset_cache_wf
  inRange   := fun e he => absurd he List.not_mem_nil
  sound     := cacheSound_nil
  errCode   := by decide

/-! ### The completion step (R45, R300) -/

theorem step_of_due {s : State} {p : Pending} (hbusy : s.busy = true) (hpend : s.pend = some p) (hdue : due s = true) :
    step s = completion s p.w := by
  simp [step, coreStep, inFlight_of_busy hbusy, hpend, hdue]

theorem completion_of_decode {w : Word} {i : Instr} (h : decode w = .ok i) (s : State) : completion s w = exec i s := by
  simp [completion, h]

/-- Settles O4: the completion that is due comes first, and it runs the command decoded. -/
theorem stepRunsTheCommandInFlight : Obligations.StepRunsTheCommandInFlight := by
  unfold Obligations.StepRunsTheCommandInFlight
  intro s w a b i hbusy hpend haccessed hwait hdecode
  rw [step_of_due hbusy hpend ((due_iff s).2 ⟨haccessed, hwait⟩), completion_of_decode hdecode]

end Sys2Proof.Machine
end

section
/-!
PROOFS. The statements about the host register block (20_memory.md, R60 to R79). An input at an open port is served in the
state `cycled s rest`, in which one cycle of a command in flight has passed (`step_of_input`); every statement is then about one
access in that state: which register it reaches, what a read returns, what a write does, and which accesses get a bus
error.
-/

namespace Sys2Proof.Machine

/-! ### The register map (R61, R65, R66) -/

/-- The registers stand at the aligned offsets below 0x30 and nowhere else. -/
theorem exists_regAt_iff {off : Nat} : (∃ r, regAt off = some r) ↔ off % 8 = 0 ∧ off < 0x30 := by
  constructor
  · rintro ⟨r, hr⟩
    unfold regAt at hr
    split at hr
    case h_7 => cases hr
    all_goals decide
  · rintro ⟨halign, hlt⟩
    obtain rfl | rfl | rfl | rfl | rfl | rfl :
        off = 0x00 ∨ off = 0x08 ∨ off = 0x10 ∨ off = 0x18 ∨ off = 0x20 ∨ off = 0x28 := by omega
    all_goals exact ⟨_, rfl⟩

theorem accessReg_of_regAt {off : Nat} {r : Reg} (hr : regAt off = some r) : accessReg off 8 = .ok r := by
  simp [accessReg, hr, (exists_regAt_iff.1 ⟨r, hr⟩).1]

theorem accessReg_error_iff {off width : Nat} :
    (∃ f, accessReg off width = .error f) ↔ width ≠ 8 ∨ off % 8 ≠ 0 ∨ 0x30 ≤ off := by
  constructor
  · rintro ⟨f, hf⟩
    by_contra! hlegal
    obtain ⟨rfl, hoff⟩ := hlegal
    obtain ⟨r, hr⟩ := exists_regAt_iff.2 hoff
    simp [accessReg_of_regAt hr] at hf
  · intro hillegal
    cases h : accessReg off width with
    | error f => exact ⟨f, rfl⟩
    | ok r =>
      obtain ⟨rfl, hr⟩ := accessReg_ok h
      obtain ⟨halign, hlt⟩ := exists_regAt_iff.1 ⟨r, hr⟩
      omega

/-! ### What the host reads (R35, R61, R64, R67) -/

/-- STATUS as a number (R35): BUSY in bit 0, ERR above it; four bits, so sixteen values. -/
theorem statusWord_eq_ofNat (s : State) : statusWord s = BitVec.ofNat 64 (2 * s.err.toNat + s.busy.toNat) := by
  have hbits : ∀ (err : BitVec 3) (busy : Bool),
      (0#60 ++ (err ++ BitVec.ofBool busy) : Word) = BitVec.ofNat 64 (2 * err.toNat + busy.toNat) := by decide
  exact hbits s.err s.busy

/-- Each row of the register map is a register's offset with what a host read of it returns (R61, R64). -/
theorem exists_reg_of_row {s : State} {row : Nat × Word}
    (h : row ∈ [(0x00, s.opa), (0x08, s.opb), (0x10, 0), (0x18, s.res), (0x20, statusWord s), (0x28, 0)]) :
    ∃ r, regAt row.1 = some r ∧ row.2 = readReg s r := by
  simp only [List.mem_cons, List.not_mem_nil, or_false] at h
  rcases h with rfl | rfl | rfl | rfl | rfl | rfl
  all_goals exact ⟨_, rfl, rfl⟩

theorem blockByte_of_regAt {off k : Nat} {r : Reg} (hr : regAt off = some r) (hk : k < 8) (s : State) :
    blockByte s (off + k) = some ((readReg s r).extractLsb' (8 * k) 8) := by
  obtain ⟨halign, -⟩ := exists_regAt_iff.1 ⟨r, hr⟩
  have hreg : (off + k) / 8 * 8 = off := by omega
  have hbyte : (off + k) % 8 = k := by omega
  simp [blockByte, hreg, hbyte, hr]

/-- Settles O60: `extractLsb'` at bit `8k` is the quotient by `2^(8k)`. -/
theorem registerBytesAreLittleEndian : Obligations.RegisterBytesAreLittleEndian := by
  unfold Obligations.RegisterBytesAreLittleEndian
  intro s k hk row hrow
  obtain ⟨r, hr, hread⟩ := exists_reg_of_row hrow
  rw [blockByte_of_regAt hr hk, hread, BitVec.extractLsb', Nat.shiftRight_eq_div_pow]

/-! ### What a host write does (R61 to R64, R242) -/

theorem writeReg_of_busy {s : State} (hbusy : s.busy = true) (r : Reg) (v : Word) : writeReg s r v = s := by
  simp [writeReg, hbusy]

section
variable {s : State} (hidle : s.busy = false) (v : Word)
include hidle

theorem writeReg_opa : writeReg s .opa v = { s with opa := v } := by simp [writeReg, hidle]

theorem writeReg_opb : writeReg s .opb v = { s with opb := v } := by simp [writeReg, hidle]

theorem writeReg_cmd : writeReg s .cmd v = acceptCommand s v := by simp [writeReg, hidle]

theorem writeReg_ctrl_of_clear (hclear : v.getLsbD 0 = false) : writeReg s .ctrl v = s := by
  simp only [writeReg, hidle, writeCtrl, hclear, Bool.false_eq_true, if_false]

end

theorem writeReg_res (s : State) (v : Word) : writeReg s .res v = s := by simp [writeReg]

theorem writeReg_status (s : State) (v : Word) : writeReg s .status v = s := by simp [writeReg]

/-- A latency is at least one cycle (R300). -/
theorem one_le_latency (s : State) (w : Word) : 1 ≤ latency s w := Nat.le_add_right 1 _

/-! ### One input at the port (R65, R66, R69, R77) -/

theorem serveInput_read {off : Nat} {r : Reg} (hr : regAt off = some r) (s : State) :
    serveInput s (.read off 8) = .next (answer s (.data (readReg s r))) := by
  simp [serveInput, accessReg_of_regAt hr]

theorem serveInput_write {off : Nat} {r : Reg} (hr : regAt off = some r) (s : State) (v : Word) :
    serveInput s (.write off 8 v) = .next (answer (writeReg s r v) .done) := by
  simp [serveInput, accessReg_of_regAt hr]

/-- A read, and likewise a write, faults exactly when it reaches no register. -/
theorem serveInput_read_fault_iff {s : State} {off width : Nat} :
    (∃ f, serveInput s (.read off width) = .fault f) ↔ ∃ f, accessReg off width = .error f := by
  simp only [serveInput]
  cases accessReg off width <;> simp

theorem serveInput_write_fault_iff {s : State} {off width : Nat} {v : Word} :
    (∃ f, serveInput s (.write off width v) = .fault f) ↔ ∃ f, accessReg off width = .error f := by
  simp only [serveInput]
  cases accessReg off width <;> simp

theorem serveInput_ne_refused (s : State) (i : Input) (r : Refusal) : serveInput s i ≠ .refused r := by
  cases i with
  | read off width | write off width v => simp only [serveInput]; cases accessReg off width <;> simp
  | atomic | reset => simp [serveInput]

theorem serve_nil {s : State} (h : s.inbox = []) : serve s = .next s := by simp [serve, h]

theorem serve_cons {s : State} {i : Input} {rest : List Input} (h : s.inbox = i :: rest) :
    serve s = serveInput { s with inbox := rest } i := by simp [serve, h]

/-! ### The step at an open port (R69, R300) -/

/-- The state in which an input at an open port is served: it is off the inbox, and a cycle of a command in flight has
passed (R300). -/
def cycled (s : State) (rest : List Input) : State :=
  { s with
    wait := s.wait - (s.busy && s.pend.isSome).toNat
    accessed := s.accessed || (s.busy && s.pend.isSome)
    inbox := rest }

theorem readReg_cycled (s : State) (rest : List Input) (r : Reg) : readReg (cycled s rest) r = readReg s r := by
  cases r <;> rfl

theorem cycled_busy (s : State) (rest : List Input) : (cycled s rest).busy = s.busy := rfl

theorem cycled_of_idle {s : State} (hidle : s.busy = false) (rest : List Input) :
    cycled s rest = { s with inbox := rest } := by
  simp [cycled, hidle]

theorem cycled_of_flight {s : State} {p : Pending} (hbusy : s.busy = true) (hpend : s.pend = some p) (rest : List Input) :
    cycled s rest = { s with wait := s.wait - 1, accessed := true, inbox := rest } := by
  simp [cycled, hbusy, hpend]

theorem step_of_input {s : State} {i : Input} {rest : List Input} (hopen : portOpen s) (h : s.inbox = i :: rest) :
    step s = serveInput (cycled s rest) i := by
  rw [step_of_portOpen hopen (by simp [h])]
  exact serve_cons h

/-- A read at an open port. -/
theorem step_read {s : State} {off : Nat} {r : Reg} {rest : List Input} (hr : regAt off = some r) (hopen : portOpen s)
    (h : s.inbox = .read off 8 :: rest) : step s = .next (answer (cycled s rest) (.data (readReg s r))) := by
  rw [step_of_input hopen h, serveInput_read hr, readReg_cycled]

/-- A write at an open port. -/
theorem step_write {s : State} {off : Nat} {r : Reg} {v : Word} {rest : List Input} (hr : regAt off = some r)
    (hopen : portOpen s) (h : s.inbox = .write off 8 v :: rest) :
    step s = .next (answer (writeReg (cycled s rest) r v) .done) := by
  rw [step_of_input hopen h, serveInput_write hr]

/-- A write while idle, whose effect on the register block is known. -/
theorem step_write_of_idle {s t : State} {off : Nat} {r : Reg} {v : Word} {rest : List Input} (hr : regAt off = some r)
    (hidle : s.busy = false) (hwrite : writeReg { s with inbox := rest } r v = t) (h : s.inbox = .write off 8 v :: rest) :
    step s = .next (answer t .done) := by
  rw [step_write hr (.inl hidle) h, cycled_of_idle hidle, hwrite]

theorem step_of_idle_of_silent {s : State} (hidle : s.busy = false) (hsilent : s.inbox = []) : step s = .next s := by
  simp [step, coreStep, inFlight_of_idle hidle, serve_nil hsilent]

/-- Settles O58: a read answers with the register and changes nothing but the cycle that it passes. -/
theorem readsReturnTheRegisters : Obligations.ReadsReturnTheRegisters := by
  unfold Obligations.ReadsReturnTheRegisters
  rintro s off rest hopen hinbox row hrow rfl
  rw [← statusWord_eq_ofNat] at hrow
  obtain ⟨r, hr, hread⟩ := exists_reg_of_row hrow
  rw [hread]
  exact step_read hr hopen hinbox

/-- Settles O52: the write reaches CMD, and the core accepts the command with the latency it draws. -/
theorem cmdWriteIssuesACommand : Obligations.CmdWriteIssuesACommand := by
  unfold Obligations.CmdWriteIssuesACommand
  intro s w rest hidle hinbox
  have hidle' : { s with inbox := rest }.busy = false := hidle
  exact ⟨latency s w, one_le_latency s w, step_write_of_idle (r := .cmd) rfl hidle (writeReg_cmd hidle' w) hinbox⟩

/-- Settles O55: while busy a write leaves the state in which it is served as it is. -/
theorem writesWhileBusyAreIgnored : Obligations.WritesWhileBusyAreIgnored := by
  unfold Obligations.WritesWhileBusyAreIgnored
  intro s p off v rest hbusy hpend hopen hoff hinbox
  simp only [List.mem_cons, List.not_mem_nil, or_false] at hoff
  obtain ⟨r, hr⟩ := exists_regAt_iff.2 (show off % 8 = 0 ∧ off < 0x30 by omega)
  rw [step_write hr hopen hinbox, writeReg_of_busy ((cycled_busy s rest).trans hbusy), cycled_of_flight hbusy hpend]
  rfl

/-- Settles O56: a silent port, then the write of each register that does not issue a command. -/
theorem idleWritesSetTheOperands : Obligations.IdleWritesSetTheOperands := by
  unfold Obligations.IdleWritesSetTheOperands
  intro s v rest hidle
  have hidle' : { s with inbox := rest }.busy = false := hidle
  refine ⟨step_of_idle_of_silent hidle, ?opa, ?opb, ?ignored, ?ctrl⟩
  case opa => exact step_write_of_idle (r := .opa) rfl hidle (writeReg_opa hidle' v)
  case opb => exact step_write_of_idle (r := .opb) rfl hidle (writeReg_opb hidle' v)
  case ignored =>
    intro off hoff
    simp only [List.mem_cons, List.not_mem_nil, or_false] at hoff
    rcases hoff with rfl | rfl
    · exact step_write_of_idle (r := .res) rfl hidle (writeReg_res _ v)
    · exact step_write_of_idle (r := .status) rfl hidle (writeReg_status _ v)
  case ctrl =>
    intro hinbox hclear
    exact step_write_of_idle (r := .ctrl) rfl hidle (writeReg_ctrl_of_clear hidle' v hclear) hinbox

/-! ### Bus errors (R65, R66, R77, R79) -/

/-- The completion step never stops the core (R45, R272). -/
theorem completion_eq_next (s : State) (w : Word) : ∃ t, completion s w = .next t := by
  rcases completion_cases s w with ⟨i, -, hc⟩ | ⟨-, -, hc⟩
  · rw [hc]
    rcases exec_cases i s with ⟨_, h⟩ | ⟨_, _, _, _, -, -, -, h⟩ | ⟨_, -, h⟩ <;> exact ⟨_, h⟩
  · exact ⟨_, hc⟩

/-- A step with nothing at the port goes on: it completes a command, passes a cycle, or holds the state. -/
theorem step_next_of_silent {s : State} (hsilent : s.inbox = []) : ∃ t, step s = .next t := by
  rcases step_cases s with ⟨p, -, -, -, hs⟩ | ⟨p, -, -, -, hs⟩ | ⟨-, hs⟩
  · exact hs ▸ completion_eq_next s p.w
  · rcases latencyCycle_cases s with ⟨-, -, hl⟩ | ⟨-, hl⟩
    · exact ⟨_, hs.trans hl⟩
    · exact ⟨_, (hs.trans hl).trans (serve_nil hsilent)⟩
  · exact ⟨_, hs.trans (serve_nil hsilent)⟩

/-- A step goes on, unless it serves an input at an open port: only that input can stop it. -/
theorem step_next_or_serves (s : State) :
    (∃ t, step s = .next t) ∨
    (portOpen s ∧ ∃ i rest, s.inbox = i :: rest ∧ step s = serveInput (cycled s rest) i) := by
  cases hinbox : s.inbox with
  | nil => exact .inl (step_next_of_silent hinbox)
  | cons i rest =>
    rcases step_cases s with ⟨p, -, -, -, hs⟩ | ⟨p, -, -, hdue, -⟩ | ⟨hnone, -⟩
    · exact .inl (hs ▸ completion_eq_next s p.w)
    · have hopen : portOpen s := .inr (.inr hdue)
      exact .inr ⟨hopen, i, rest, rfl, step_of_input hopen hinbox⟩
    · have hopen : portOpen s := hnone.imp_right .inl
      exact .inr ⟨hopen, i, rest, rfl, step_of_input hopen hinbox⟩

/-- A step faults exactly when the input it serves does. -/
theorem step_fault_iff (s : State) :
    (∃ f, step s = .fault f) ↔
      portOpen s ∧ ∃ i rest, s.inbox = i :: rest ∧ ∃ f, serveInput (cycled s rest) i = .fault f := by
  constructor
  · rintro ⟨f, hf⟩
    rcases step_next_or_serves s with ⟨t, ht⟩ | ⟨hopen, i, rest, hinbox, hs⟩
    · cases ht.symm.trans hf
    · exact ⟨hopen, i, rest, hinbox, f, hs.symm.trans hf⟩
  · rintro ⟨hopen, i, rest, hinbox, f, hf⟩
    exact ⟨f, (step_of_input hopen hinbox).trans hf⟩

theorem step_ne_refused (s : State) (r : Refusal) : step s ≠ .refused r := by
  rcases step_next_or_serves s with ⟨t, ht⟩ | ⟨-, i, rest, -, hs⟩
  · simp [ht]
  · exact hs ▸ serveInput_ne_refused _ i r

/-- Settles O59: a step faults as the input it serves does, and an access as its offset and width do. -/
theorem busErrorsAreExactlyTheIllegalAccesses : Obligations.BusErrorsAreExactlyTheIllegalAccesses := by
  unfold Obligations.BusErrorsAreExactlyTheIllegalAccesses
  refine ⟨fun s => (step_fault_iff s).trans ?_, step_ne_refused⟩
  refine and_congr_right fun _ => exists_congr fun i => exists_congr fun rest => and_congr_right fun _ => ?_
  cases i with
  | read off width => exact serveInput_read_fault_iff.trans accessReg_error_iff
  | write off width v => exact serveInput_write_fault_iff.trans accessReg_error_iff
  | atomic off width => simp [serveInput]
  | reset => simp [serveInput]

end Sys2Proof.Machine
end

section
/-!
PROOFS. The statements about the encoding (30_encoding.md, R90 to R97). The opcode map is the graph of `opcodeOf`
(`opcodeMap_lookup_iff`), so decoding answers a command exactly on the word with that opcode and no reserved bit
(`decode_ok_iff`), and `encode` is that word (`eq_encode_iff`); on bytes, the little-endian word and its bytes determine
each other. That unary commands ignore OPB follows from the form of their meanings (`DependsOnA`).
-/

namespace Sys2Proof.Machine

/-! ### The opcode map (R91) -/

theorem opcodeMap_row {row : Nat × Instr} (h : row ∈ opcodeMap) : row.1 = opcodeOf row.2 := by
  have hrows : ∀ row ∈ opcodeMap, row.1 = opcodeOf row.2 := by decide
  exact hrows row h

theorem opcodeMap_lookup_opcodeOf (i : Instr) : opcodeMap.lookup (opcodeOf i) = some i := by cases i <;> rfl

/-- The opcode map assigns an opcode to a command exactly when it is that command's opcode. -/
theorem opcodeMap_lookup_iff {n : Nat} {i : Instr} : opcodeMap.lookup n = some i ↔ n = opcodeOf i := by
  constructor
  · intro h
    obtain ⟨l₁, l₂, hmap, -⟩ := List.lookup_eq_some_iff.1 h
    exact opcodeMap_row (row := (n, i)) (by simp [hmap])
  · rintro rfl
    exact opcodeMap_lookup_opcodeOf i

/-- Every command has its row in the opcode map. -/
theorem opcodeOf_mem_opcodeMap (i : Instr) : (opcodeOf i, i) ∈ opcodeMap := by
  obtain ⟨l₁, l₂, hmap, -⟩ := List.lookup_eq_some_iff.1 (opcodeMap_lookup_opcodeOf i)
  simp [hmap]

/-! ### Decoding of words (R95 to R97) -/

/-- A word decodes to a command exactly when its reserved bits are 0 and its opcode is the command's. -/
theorem decode_ok_iff {w : Word} {i : Instr} : decode w = .ok i ↔ rsvField w = 0 ∧ opcField w = opcodeOf i := by
  unfold decode
  split_ifs with hrsv
  · rw [← opcodeMap_lookup_iff]
    cases opcodeMap.lookup (opcField w) <;> simp [hrsv]
  · simp [hrsv]

/-- A word is illegal exactly when a reserved bit is set (R96) or its opcode is no command's (R95). -/
theorem decode_error_iff {w : Word} :
    (∃ e, decode w = .error e) ↔ rsvField w ≠ 0 ∨ ∀ i, opcField w ≠ opcodeOf i := by
  constructor
  · rintro ⟨e, he⟩
    by_contra! hlegal
    obtain ⟨hrsv, i, hopc⟩ := hlegal
    simp [decode_ok_iff.2 ⟨hrsv, hopc⟩] at he
  · intro hillegal
    cases h : decode w with
    | error e => exact ⟨e, rfl⟩
    | ok i =>
      obtain ⟨hrsv, hopc⟩ := decode_ok_iff.1 h
      exact absurd hillegal (by simp [hrsv, hopc])

/-- Settles O1: the table written out is the opcode map, whose rows are the commands with their opcodes. -/
theorem decodeFollowsTheOpcodeMap : Obligations.DecodeFollowsTheOpcodeMap := by
  unfold Obligations.DecodeFollowsTheOpcodeMap
  intro rows w
  have hrows : rows = opcodeMap := rfl
  rw [hrows]
  refine ⟨fun row hrow hrsv hopc => ?_, fun hillegal => ?_⟩
  · exact decode_ok_iff.2 ⟨hrsv, hopc.trans (opcodeMap_row hrow)⟩
  · exact decode_error_iff.2 (hillegal.imp_right fun hopc i => hopc _ (opcodeOf_mem_opcodeMap i))

/-! ### The command word (R90) -/

/-- Every opcode fits the OPC field. -/
theorem opcodeOf_lt (i : Instr) : opcodeOf i < 0x100 := by cases i <;> decide

theorem encode_toNat (i : Instr) : (encode i).toNat = opcodeOf i := by
  have hlt := opcodeOf_lt i
  rw [encode, BitVec.toNat_ofNat]
  omega

/-- The command word is the one word with the command's opcode and no reserved bit. -/
theorem eq_encode_iff {w : Word} {i : Instr} : w = encode i ↔ rsvField w = 0 ∧ opcField w = opcodeOf i := by
  have hlt := opcodeOf_lt i
  rw [← BitVec.toNat_inj, encode_toNat, rsvField, opcField]
  omega

theorem decode_eq_ok_iff_eq_encode {w : Word} {i : Instr} : decode w = .ok i ↔ w = encode i :=
  decode_ok_iff.trans eq_encode_iff.symm

theorem decode_encode (i : Instr) : decode (encode i) = .ok i := decode_eq_ok_iff_eq_encode.2 rfl

/-- Settles O3: each legal word is the command word of its command. -/
theorem writtenOutWordsDecode : Obligations.WrittenOutWordsDecode := by
  unfold Obligations.WrittenOutWordsDecode
  refine ⟨decode_encode .add, decode_encode .cmpne, decode_encode .mul, decode_encode .mod, decode_encode .sqrt,
    decode_encode .tan, decode_encode .fcos, decode_encode .acos, decode_encode .pow, ?_⟩
  decide

/-! ### Bytes (R67) -/

theorem wordOfBytes_lt (bs : List Byte) : wordOfBytes bs < 0x100 ^ bs.length := by
  induction bs with
  | nil => simp [wordOfBytes]
  | cons b bs ih =>
    have hb : b.toNat < 0x100 := b.isLt
    rw [wordOfBytes, List.length_cons, pow_succ]
    omega

@[simp] theorem bytesOfNat_length (n v : Nat) : (bytesOfNat n v).length = n := by
  induction n generalizing v with
  | zero => rfl
  | succ n ih => rw [bytesOfNat, List.length_cons, ih]

/-- The bytes of a number that fits in them give it back. -/
theorem wordOfBytes_bytesOfNat {n v : Nat} (h : v < 0x100 ^ n) : wordOfBytes (bytesOfNat n v) = v := by
  induction n generalizing v with
  | zero =>
    obtain rfl : v = 0 := by simpa using h
    rfl
  | succ n ih =>
    have hquot : v / 0x100 < 0x100 ^ n := Nat.div_lt_of_lt_mul (by rwa [pow_succ, mul_comm] at h)
    rw [bytesOfNat, wordOfBytes, ih hquot, BitVec.toNat_ofNat]
    omega

/-- Bytes are those of their little-endian word. -/
theorem bytesOfNat_wordOfBytes (bs : List Byte) : bytesOfNat bs.length (wordOfBytes bs) = bs := by
  induction bs with
  | nil => rfl
  | cons b bs ih =>
    have hb : b.toNat < 0x100 := b.isLt
    have hlow : BitVec.ofNat 8 (b.toNat + 0x100 * wordOfBytes bs) = b := by
      apply BitVec.eq_of_toNat_eq
      rw [BitVec.toNat_ofNat]
      omega
    have hhigh : (b.toNat + 0x100 * wordOfBytes bs) / 0x100 = wordOfBytes bs := by omega
    rw [wordOfBytes, List.length_cons, bytesOfNat, hlow, hhigh, ih]

/-- Eight bytes whose word is `w` are the bytes of `w`. -/
theorem eq_bytesOfNat_of_word {bs : List Byte} (hlen : bs.length = 8) {w : Word}
    (h : BitVec.ofNat 64 (wordOfBytes bs) = w) : bs = bytesOfNat 8 w.toNat := by
  have hlt : wordOfBytes bs < 2 ^ 64 := by simpa [hlen] using wordOfBytes_lt bs
  have hbytes := bytesOfNat_wordOfBytes bs
  rw [hlen] at hbytes
  rw [← h, BitVec.toNat_ofNat, Nat.mod_eq_of_lt hlt, hbytes]

theorem encodeBytes_length (i : Instr) : (encodeBytes i).length = 8 := bytesOfNat_length 8 _

theorem ofNat_wordOfBytes_encodeBytes (i : Instr) : BitVec.ofNat 64 (wordOfBytes (encodeBytes i)) = encode i := by
  have hlt : (encode i).toNat < 0x100 ^ 8 := (encode i).isLt
  rw [encodeBytes, wordOfBytes_bytesOfNat hlt, BitVec.ofNat_toNat, BitVec.setWidth_eq]

/-- Bytes decode to a command exactly when there are eight of them, their word decodes to it, and the rest is left. -/
theorem decodeBytes_ok_iff {bs rest : List Byte} {i : Instr} :
    decodeBytes bs = .ok (i, rest) ↔
      8 ≤ bs.length ∧ decode (BitVec.ofNat 64 (wordOfBytes (bs.take 8))) = .ok i ∧ bs.drop 8 = rest := by
  unfold decodeBytes
  split_ifs with hlen
  · simp [hlen]
  · cases decode (BitVec.ofNat 64 (wordOfBytes (bs.take 8))) <;> simp [Nat.le_of_not_lt hlen]

theorem decodeBytes_encodeBytes_append (i : Instr) (rest : List Byte) :
    decodeBytes (encodeBytes i ++ rest) = .ok (i, rest) := by
  have htake : (encodeBytes i ++ rest).take 8 = encodeBytes i := List.take_left' (encodeBytes_length i)
  have hdrop : (encodeBytes i ++ rest).drop 8 = rest := List.drop_left' (encodeBytes_length i)
  refine decodeBytes_ok_iff.2 ⟨?_, ?_, hdrop⟩
  · simp [encodeBytes_length]
  · rw [htake, ofNat_wordOfBytes_encodeBytes, decode_encode]

theorem eq_encodeBytes_append_of_decodeBytes {bs rest : List Byte} {i : Instr} (h : decodeBytes bs = .ok (i, rest)) :
    bs = encodeBytes i ++ rest := by
  obtain ⟨hlen, hdecode, hdrop⟩ := decodeBytes_ok_iff.1 h
  have htake : bs.take 8 = encodeBytes i :=
    eq_bytesOfNat_of_word (List.length_take_of_le hlen) (decode_eq_ok_iff_eq_encode.1 hdecode)
  rw [← htake, ← hdrop, List.take_append_drop]

/-- Settles O2: on words both are the opcode map, and on bytes the word of eight bytes determines them. -/
theorem decodeAndEncodeAgree : Obligations.DecodeAndEncodeAgree := by
  unfold Obligations.DecodeAndEncodeAgree
  exact ⟨fun _ _ => decode_eq_ok_iff_eq_encode, decodeBytes_encodeBytes_append,
    fun _ _ _ => eq_encodeBytes_append_of_decodeBytes⟩

/-! ### Illegal words (R96) -/

theorem completion_of_decode_error {w : Word} {e : DecodeError} (h : decode w = .error e) (s : State) :
    completion s w = .next (failed s 4#3) := by
  simp [completion, h]

/-- Settles O5: acceptance does not look at the word, and the completion finds that it decodes to no command. -/
theorem illegalWordsCompleteWithIllegalOpcode : Obligations.IllegalWordsCompleteWithIllegalOpcode := by
  unfold Obligations.IllegalWordsCompleteWithIllegalOpcode
  intro s w hillegal
  refine ⟨fun rest hidle hinbox => ?_, fun a b hbusy hpend haccessed hwait => ?_⟩
  · obtain ⟨n, -, hstep⟩ := cmdWriteIssuesACommand s w rest hidle hinbox
    exact ⟨_, hstep, rfl, rfl⟩
  · obtain ⟨e, he⟩ := decode_error_iff.2 hillegal
    rw [step_of_due hbusy hpend ((due_iff s).2 ⟨haccessed, hwait⟩), completion_of_decode_error he]

/-! ### Unary commands (R93) -/

/-- The meaning of the command `i` is a function of the configuration, the cache and the first operand. -/
def DependsOnA (i : Instr) : Prop :=
  ∃ f : Config → Cache → Word → Except CommandError (Word × Cache),
    ∀ s, exec i s = finishCached s (f s.cfg s.cache (operandA s))

/-- A command that does not touch the cache ends as one that leaves it as it is. -/
theorem finish_eq_finishCached (s : State) (r : Except CommandError Word) :
    finish s r = finishCached s (r.map fun v => (v, s.cache)) := by
  cases r <;> rfl

theorem dependsOnA_of_finish {i : Instr} (f : Config → Word → Except CommandError Word)
    (h : ∀ s, exec i s = finish s (f s.cfg (operandA s))) : DependsOnA i :=
  ⟨fun cfg c a => (f cfg a).map fun v => (v, c), fun s => (h s).trans (finish_eq_finishCached s _)⟩

/-- A command whose result is always a value of its first operand. -/
theorem dependsOnA_of_finish_ok {i : Instr} (f : Word → Word)
    (h : ∀ s, exec i s = finish s (.ok (f (operandA s)))) : DependsOnA i :=
  dependsOnA_of_finish (fun _ a => .ok (f a)) h

theorem dependsOnA_of_unary {i : Instr}
    (hi : i ∈ [Instr.neg, .fneg, .abs, .fabs, .inc, .dec, .sign, .floor, .ceil, .round, .fromint, .toint, .sqrt, .sin,
      .cos, .tan, .sinp, .fsin, .fcos, .atan, .asin, .acos, .log2, .ln, .pow2]) : DependsOnA i := by
  cases i
  case neg => exact dependsOnA_of_finish_ok negRaw exec_neg
  case fneg => exact dependsOnA_of_finish_ok fnegRaw exec_fneg
  case abs => exact dependsOnA_of_finish_ok absRaw exec_abs
  case fabs => exact dependsOnA_of_finish_ok fabsRaw exec_fabs
  case inc => exact dependsOnA_of_finish_ok incRaw exec_inc
  case dec => exact dependsOnA_of_finish_ok decRaw exec_dec
  case sign => exact dependsOnA_of_finish_ok signRaw exec_sign
  case floor => exact dependsOnA_of_finish_ok floorRaw exec_floor
  case ceil => exact dependsOnA_of_finish_ok ceilRaw exec_ceil
  case round => exact dependsOnA_of_finish_ok roundRaw exec_round
  case fromint => exact dependsOnA_of_finish_ok fromintRaw exec_fromint
  case toint => exact dependsOnA_of_finish_ok tointRaw exec_toint
  case sinp => exact dependsOnA_of_finish_ok sinpRaw exec_sinp
  case fsin => exact dependsOnA_of_finish_ok fsinRaw exec_fsin
  case fcos => exact dependsOnA_of_finish_ok fcosRaw exec_fcos
  case sin => exact dependsOnA_of_finish (fun cfg a => .ok (sinRaw cfg a)) exec_sin
  case cos => exact dependsOnA_of_finish (fun cfg a => .ok (cosRaw cfg a)) exec_cos
  case tan => exact dependsOnA_of_finish tanRaw exec_tan
  case sqrt => exact dependsOnA_of_finish (fun _ => sqrtRaw) exec_sqrt
  case log2 => exact dependsOnA_of_finish (fun _ => log2Raw) exec_log2
  case ln => exact dependsOnA_of_finish (fun _ => lnRaw) exec_ln
  case pow2 => exact dependsOnA_of_finish (fun _ => pow2Raw) exec_pow2
  case atan => exact ⟨atanCached, exec_atan⟩
  case asin => exact ⟨asinCached, exec_asin⟩
  case acos => exact ⟨acosCached, exec_acos⟩
  all_goals exact absurd hi (by decide)

/-- Ending a command drops its snapshots and leaves OPB as it stands. -/
theorem finishCached_ignores_opb (s : State) (p p' : Option Pending) (opb' : Word)
    (r : Except CommandError (Word × Cache)) :
    ∃ t, finishCached { s with pend := p } r = .next t ∧
      finishCached { s with opb := opb', pend := p' } r = .next { t with opb := opb' } := by
  rcases r with e | ⟨v, c⟩ <;> exact ⟨_, rfl, rfl⟩

/-- Settles O15: a unary command ends with the same result or error whatever OPB and its snapshot are. -/
theorem unaryCommandsIgnoreOpb : Obligations.UnaryCommandsIgnoreOpb := by
  unfold Obligations.UnaryCommandsIgnoreOpb
  intro i hi s w a b b' opb'
  obtain ⟨f, hf⟩ := dependsOnA_of_unary hi
  rw [hf, hf]
  exact finishCached_ignores_opb s _ _ opb' (f s.cfg s.cache a)

end Sys2Proof.Machine
end

section
/-!
PROOFS. The statements about the ALU family (40_alu.md, R110 to R134). An ALU command always ends with a result, a
function of its snapshots (`exec_eq_completed_unary`, `exec_eq_completed_binary`, `exec_eq_completed_comparison`); so
each statement is that function's value as an integer.
-/

namespace Sys2Proof.Machine

/-! ### The end of an ALU command (R40, R45) -/

section
variable {s : State} {w a b : Word} {i : Instr}

/-- A command whose result is a function of its first operand ends with that function of the first snapshot. -/
theorem exec_eq_completed_unary {f : Word → Word} (hexec : ∀ s, exec i s = finish s (.ok (f (operandA s))))
    (hpend : s.pend = some ⟨w, a, b⟩) : exec i s = .next (completed s (f a)) := by
  rw [hexec, operandA_of_pend hpend, finish_ok]

/-- A command whose result is a function of its operands ends with that function of the snapshots. -/
theorem exec_eq_completed_binary {f : Word → Word → Word}
    (hexec : ∀ s, exec i s = finish s (.ok (f (operandA s) (operandB s)))) (hpend : s.pend = some ⟨w, a, b⟩) :
    exec i s = .next (completed s (f a b)) := by
  rw [hexec, operandA_of_pend hpend, operandB_of_pend hpend, finish_ok]

/-- A comparison ends with the plain integer 1 or 0 (R128). -/
theorem exec_eq_completed_comparison (r : Int → Int → Prop) [∀ x y, Decidable (r x y)]
    (hexec : ∀ s, exec i s = finish s (.ok (boolRaw (decide (r (operandA s).toInt (operandB s).toInt)))))
    (hpend : s.pend = some ⟨w, a, b⟩) : exec i s = .next (completed s (if r a.toInt b.toInt then 1 else 0)) := by
  rw [exec_eq_completed_binary (f := fun a b => boolRaw (decide (r a.toInt b.toInt))) hexec hpend]
  simp only [boolRaw, decide_eq_true_eq]

end

/-! ### Saturation and wrapping (R16) -/

/-- Saturation keeps the sign. -/
theorem clamp_neg_iff (n : Int) : clamp n < 0 ↔ n < 0 := by
  simp only [clamp]; omega

/-- A value in range is not changed by wrapping. -/
theorem bmod_of_mem {n : Int} (h₁ : -2 ^ 63 ≤ n) (h₂ : n ≤ 2 ^ 63 - 1) : n.bmod (2 ^ 64) = n :=
  Int.bmod_eq_of_le (by omega) (by omega)

/-! ### The operations on raw values, as integers -/

theorem fnegRaw_toInt (a : Word) : (fnegRaw a).toInt = (-a.toInt).bmod (2 ^ 64) := wrapWord_toInt _

theorem incRaw_toInt (a : Word) : (incRaw a).toInt = clamp (a.toInt + 2 ^ 32) := by
  rw [incRaw, addRaw_toInt, oneRaw_toInt]

theorem decRaw_toInt (a : Word) : (decRaw a).toInt = clamp (a.toInt - 2 ^ 32) := by
  rw [decRaw, subRaw_toInt, oneRaw_toInt]

theorem signRaw_toInt (a : Word) : (signRaw a).toInt = a.toInt.sign := by
  unfold signRaw
  split_ifs with hneg hpos
  · rw [Int.sign_eq_neg_one_of_neg hneg]; rfl
  · rw [Int.sign_eq_one_of_pos hpos]; rfl
  · rw [show a.toInt = 0 by omega]; rfl

theorem shlRaw_toInt (a b : Word) : (shlRaw a b).toInt = (a.toInt * 2 ^ (b.toNat % 64)).bmod (2 ^ 64) := by
  rw [shlRaw, wrapWord_toInt, shiftCount_eq]

theorem shrRaw_toInt (a b : Word) : (shrRaw a b).toInt = a.toInt / 2 ^ (b.toNat % 64) := by
  rw [shrRaw, sshiftRight_toInt, shiftCount_eq]

theorem fromintRaw_toInt (a : Word) : (fromintRaw a).toInt = (a.toInt * 2 ^ 32).bmod (2 ^ 64) := by
  rw [fromintRaw, wrapWord_toInt, oneRaw_toInt]

theorem tointRaw_toInt (a : Word) : (tointRaw a).toInt = a.toInt / 2 ^ 32 := sshiftRight_toInt a 32

/-- R134 (7): TOINT gives a 32-bit integer back from its FROMINT, which does not wrap. -/
theorem tointRaw_fromintRaw {a : Word} (h₁ : -2 ^ 31 ≤ a.toInt) (h₂ : a.toInt ≤ 2 ^ 31 - 1) :
    tointRaw (fromintRaw a) = a := by
  apply word_ext
  rw [tointRaw_toInt, fromintRaw_toInt, bmod_of_mem (by omega) (by omega)]
  exact Int.mul_ediv_cancel _ (by decide)

/-! ### The sign on overflow (R113) -/

/-- On overflow of the sum, the saturated sum has the sign of each operand (R113). -/
theorem addRaw_neg_iff_of_overflow {a b : Word} (h : addOverflows a b (a + b) = true) :
    ((addRaw a b).toInt < 0 ↔ a.toInt < 0) ∧ ((addRaw a b).toInt < 0 ↔ b.toInt < 0) := by
  have ha := toInt_range a
  have hb := toInt_range b
  have hout := (addOverflows_iff a b).1 h
  rw [addRaw_toInt, clamp_neg_iff]
  omega

/-- On overflow of the difference, the saturated difference has the sign of the minuend (R113). -/
theorem subRaw_neg_iff_of_overflow {a b : Word} (h : subOverflows a b (a - b) = true) :
    (subRaw a b).toInt < 0 ↔ a.toInt < 0 := by
  have ha := toInt_range a
  have hb := toInt_range b
  have hout := (subOverflows_iff a b).1 h
  rw [subRaw_toInt, clamp_neg_iff]
  omega

/-! ### The roundings to an integer value (R121 to R123) -/

/-- The mask of FLOOR is a shift to the right and back (R121). -/
theorem floorRaw_eq_shifts (a : Word) : floorRaw a = a.sshiftRight 32 <<< 32 := by
  ext k hk
  have hmask : (0xFFFFFFFF00000000#64)[k] = decide (32 ≤ k) := by
    decide +revert
  rw [floorRaw, BitVec.getElem_and, hmask, BitVec.getElem_shiftLeft]
  by_cases h : 32 ≤ k
  · have hback : 32 + (k - 32) = k := by omega
    simp [h, hk, hback, BitVec.getElem_sshiftRight]
  · simp [h, show k < 32 by omega]

theorem floorRaw_toInt (a : Word) : (floorRaw a).toInt = a.toInt / 2 ^ 32 * 2 ^ 32 := by
  have ha := toInt_range a
  rw [floorRaw_eq_shifts, BitVec.shiftLeft_eq_mul_twoPow, BitVec.toInt_mul, sshiftRight_toInt,
    show (BitVec.twoPow 64 32).toInt = 2 ^ 32 by decide]
  exact bmod_of_mem (by omega) (by omega)

/-- FLOOR never saturates. -/
theorem floorRaw_toInt_eq_clamp (a : Word) : (floorRaw a).toInt = clamp (a.toInt / 2 ^ 32 * 2 ^ 32) := by
  obtain ⟨h₁, h₂⟩ := toInt_range (floorRaw a)
  rw [floorRaw_toInt] at h₁ h₂ ⊢
  exact (clamp_of_mem h₁ h₂).symm

/-- The next integer value above FLOOR, saturated (R122, R123). -/
theorem addRaw_floorRaw_oneRaw_toInt (a : Word) :
    (addRaw (floorRaw a) oneRaw).toInt = clamp ((a.toInt / 2 ^ 32 + 1) * 2 ^ 32) := by
  rw [addRaw_toInt, floorRaw_toInt, oneRaw_toInt, add_one_mul]

/-- CEIL is the negated floor of the negated value, saturated (R122). -/
theorem ceilRaw_toInt (a : Word) : (ceilRaw a).toInt = clamp (-(-a.toInt / 2 ^ 32) * 2 ^ 32) := by
  have hfrac := fracPart_eq a
  unfold ceilRaw
  split_ifs with h
  · have hceil : -(-a.toInt / 2 ^ 32) = a.toInt / 2 ^ 32 + 1 := by omega
    rw [addRaw_floorRaw_oneRaw_toInt, hceil]
  · have hceil : -(-a.toInt / 2 ^ 32) * 2 ^ 32 = a.toInt := by omega
    obtain ⟨h₁, h₂⟩ := toInt_range a
    rw [hceil, clamp_of_mem h₁ h₂]

/-- Bit 32 of FLOOR says whether the integer part is odd (R123). -/
theorem floorRaw_getLsbD_32 (a : Word) : (floorRaw a).getLsbD 32 = false ↔ a.toInt / 2 ^ 32 % 2 = 0 := by
  have hfloor := floorRaw_toInt a
  rw [BitVec.toInt_eq_toNat_cond] at hfloor
  rw [BitVec.getLsbD, Nat.testBit_eq_decide_div_mod_eq, decide_eq_false_iff_not]
  split_ifs at hfloor <;> omega

/-- ROUND is to nearest, ties to even, saturated (R123). -/
theorem roundRaw_toInt (a : Word) :
    (roundRaw a).toInt = clamp ((if a.toInt % 2 ^ 32 < 2 ^ 31 then a.toInt / 2 ^ 32
      else if 2 ^ 31 < a.toInt % 2 ^ 32 then a.toInt / 2 ^ 32 + 1
      else if a.toInt / 2 ^ 32 % 2 = 0 then a.toInt / 2 ^ 32 else a.toInt / 2 ^ 32 + 1) * 2 ^ 32) := by
  have hfrac := fracPart_eq a
  have hbelow : fracPart a < 0x80000000 ↔ a.toInt % 2 ^ 32 < 2 ^ 31 := by omega
  have habove : fracPart a > 0x80000000 ↔ 2 ^ 31 < a.toInt % 2 ^ 32 := by omega
  simp only [roundRaw, hbelow, habove, floorRaw_getLsbD_32]
  split_ifs
  · exact floorRaw_toInt_eq_clamp a
  · exact addRaw_floorRaw_oneRaw_toInt a
  · exact floorRaw_toInt_eq_clamp a
  · exact addRaw_floorRaw_oneRaw_toInt a

/-! ### The statements -/

/-- Settles O16: the exact results clamped, and the sign tests, which saturation agrees with in sign. -/
theorem addAndSubSaturate : Obligations.AddAndSubSaturate := by
  unfold Obligations.AddAndSubSaturate
  intro s w a b hpend
  refine ⟨⟨addRaw a b, ?_, addRaw_toInt a b, addRaw_neg_iff_of_overflow⟩,
    ⟨subRaw a b, ?_, subRaw_toInt a b, subRaw_neg_iff_of_overflow⟩, addOverflows_iff a b, subOverflows_iff a b⟩
  · exact exec_eq_completed_binary exec_add hpend
  · exact exec_eq_completed_binary exec_sub hpend

/-- Settles O17: each command ends with its operation on the first snapshot. -/
theorem negateAndAbsoluteValue : Obligations.NegateAndAbsoluteValue := by
  unfold Obligations.NegateAndAbsoluteValue
  refine ⟨⟨decode_encode .neg, decode_encode .fneg, decode_encode .abs, decode_encode .fabs⟩, ?_⟩
  intro s w a b hpend
  exact ⟨⟨negRaw a, exec_eq_completed_unary exec_neg hpend, negRaw_toInt a⟩,
    ⟨fnegRaw a, exec_eq_completed_unary exec_fneg hpend, fnegRaw_toInt a⟩,
    ⟨absRaw a, exec_eq_completed_unary exec_abs hpend, absRaw_toInt a⟩,
    ⟨fabsRaw a, exec_eq_completed_unary exec_fabs hpend, fabsRaw_toInt a⟩⟩

/-- Settles O18: INC and DEC are ADD and SUB of One. -/
theorem incrementAndDecrementSaturate : Obligations.IncrementAndDecrementSaturate := by
  unfold Obligations.IncrementAndDecrementSaturate
  refine ⟨⟨decode_encode .inc, decode_encode .dec⟩, ?_⟩
  intro s w a b hpend
  exact ⟨⟨incRaw a, exec_eq_completed_unary exec_inc hpend, incRaw_toInt a⟩,
    ⟨decRaw a, exec_eq_completed_unary exec_dec hpend, decRaw_toInt a⟩⟩

/-- Settles O19: the three branches of SIGN are those of the integer sign. -/
theorem signIsAPlainInteger : Obligations.SignIsAPlainInteger := by
  unfold Obligations.SignIsAPlainInteger
  refine ⟨decode_encode .sign, ?_⟩
  intro s w a b hpend
  exact ⟨signRaw a, exec_eq_completed_unary exec_sign hpend, signRaw_toInt a⟩

/-- Settles O20: FLOOR clears the fraction, and CEIL and ROUND go from it to the next integer value where they must. -/
theorem floorCeilAndRound : Obligations.FloorCeilAndRound := by
  unfold Obligations.FloorCeilAndRound
  refine ⟨⟨decode_encode .floor, decode_encode .ceil, decode_encode .round⟩, ?_⟩
  intro s w a b hpend
  exact ⟨⟨floorRaw a, exec_eq_completed_unary exec_floor hpend, floorRaw_toInt a⟩,
    ⟨ceilRaw a, exec_eq_completed_unary exec_ceil hpend, ceilRaw_toInt a⟩,
    ⟨roundRaw a, exec_eq_completed_unary exec_round hpend, roundRaw_toInt a⟩⟩

/-- Settles O21: both shifts are by the count modulo 64; to the left wraps, to the right is the floor division. -/
theorem shiftsUseTheLowSixBits : Obligations.ShiftsUseTheLowSixBits := by
  unfold Obligations.ShiftsUseTheLowSixBits
  refine ⟨⟨decode_encode .shl, decode_encode .shr⟩, ?_⟩
  intro s w a b hpend
  exact ⟨⟨shlRaw a b, exec_eq_completed_binary exec_shl hpend, shlRaw_toInt a b⟩,
    ⟨shrRaw a b, exec_eq_completed_binary exec_shr hpend, shrRaw_toInt a b⟩⟩

/-- Settles O22: the casts' values, and `tointRaw_fromintRaw` for the round trip. -/
theorem integerConversionsRoundTrip : Obligations.IntegerConversionsRoundTrip := by
  unfold Obligations.IntegerConversionsRoundTrip
  refine ⟨⟨decode_encode .fromint, decode_encode .toint⟩, ?_⟩
  intro s w a b hpend
  refine ⟨⟨fromintRaw a, exec_eq_completed_unary exec_fromint hpend, fromintRaw_toInt a, ?_⟩,
    ⟨tointRaw a, exec_eq_completed_unary exec_toint hpend, tointRaw_toInt a⟩⟩
  rintro ⟨hlow, hhigh⟩ s' hpend'
  rw [exec_eq_completed_unary exec_toint hpend', tointRaw_fromintRaw hlow hhigh]

/-- Settles O23: the signed order of the snapshots; equal words are the words of equal value. -/
theorem comparisonsGiveOneOrZero : Obligations.ComparisonsGiveOneOrZero := by
  unfold Obligations.ComparisonsGiveOneOrZero
  refine ⟨⟨decode_encode .cmplt, decode_encode .cmple, decode_encode .cmpgt, decode_encode .cmpge,
    decode_encode .cmpeq, decode_encode .cmpne⟩, ?_⟩
  intro s w a b hpend
  refine ⟨exec_eq_completed_comparison (· < ·) exec_cmplt hpend, exec_eq_completed_comparison (· ≤ ·) exec_cmple hpend,
    exec_eq_completed_comparison (· > ·) exec_cmpgt hpend, exec_eq_completed_comparison (· ≥ ·) exec_cmpge hpend, ?_, ?_⟩
  · simpa only [BitVec.toInt_inj] using exec_eq_completed_comparison (· = ·) exec_cmpeq hpend
  · simpa only [BitVec.toInt_inj, ne_eq, ite_not] using exec_eq_completed_comparison (· ≠ ·) exec_cmpne hpend

end Sys2Proof.Machine
end

section
/-!
PROOFS. The statements about the multiplier (41_multiplier.md, R170 to R172). MUL ends with `mulRaw` of its snapshots
(`exec_mul_eq_completed`), whose value is the clamped quotient `(P + 2^31) / 2^32` of the exact product `P`
(`mulRaw_toInt`). So the accuracy law is about that quotient (`two_mul_abs_halfUp_sub_le`), and the datapath of partial
products gives MUL because its sum is that quotient (`mulPartialSum_eq_halfUp`).
-/

namespace Sys2Proof.Machine

/-- MUL always ends with a result (R170). -/
theorem exec_mul_eq_completed {s : State} {w a b : Word} (hpend : s.pend = some ⟨w, a, b⟩) :
    exec .mul s = .next (completed s (mulRaw a b)) :=
  exec_eq_completed_binary exec_mul hpend

/-! ### Saturation and rounding (R16, R172) -/

/-- Rounding half up at bit 32 moves a value by at most half a unit. -/
theorem two_mul_abs_halfUp_sub_le (p : Int) : 2 * |(p + 2 ^ 31) / 2 ^ 32 * 2 ^ 32 - p| ≤ 2 ^ 32 := by
  have hdist : |(p + 2 ^ 31) / 2 ^ 32 * 2 ^ 32 - p| ≤ 2 ^ 31 := abs_le.2 ⟨by omega, by omega⟩
  omega

/-- A product in range rounds to a value in range. -/
theorem clamp_halfUp_of_mem {p : Int} (h₁ : -2 ^ 95 ≤ p) (h₂ : p ≤ (2 ^ 63 - 1) * 2 ^ 32) :
    clamp ((p + 2 ^ 31) / 2 ^ 32) = (p + 2 ^ 31) / 2 ^ 32 :=
  clamp_of_mem (by omega) (by omega)

/-- A product above the range saturates, also where it rounds down to the bound. -/
theorem clamp_halfUp_of_gt {p : Int} (h : (2 ^ 63 - 1) * 2 ^ 32 < p) : clamp ((p + 2 ^ 31) / 2 ^ 32) = 2 ^ 63 - 1 := by
  simp only [clamp]; omega

/-- A product below the range saturates, also where it rounds up to the bound. -/
theorem clamp_halfUp_of_lt {p : Int} (h : p < -2 ^ 95) : clamp ((p + 2 ^ 31) / 2 ^ 32) = -2 ^ 63 := by
  simp only [clamp]; omega

/-! ### The halves of an operand and their products (R171) -/

/-- The low half of a register is its value modulo 2^32, whether read without or with a sign. -/
theorem toNat_emod_eq_toInt_emod (a : Word) : (a.toNat : Int) % 2 ^ 32 = a.toInt % 2 ^ 32 := by
  rw [BitVec.toInt_eq_toNat_cond]
  split_ifs <;> omega

theorem abs_lowHalf_le (x : Int) : |x % 2 ^ 32| ≤ 2 ^ 32 - 1 := abs_le.2 ⟨by omega, by omega⟩

theorem abs_highHalf_le (a : Word) : |a.toInt / 2 ^ 32| ≤ 2 ^ 31 := by
  have ha := toInt_range a
  exact abs_le.2 ⟨by omega, by omega⟩

theorem lowHalf_mul_lowHalf_mem (x y : Int) :
    0 ≤ x % 2 ^ 32 * (y % 2 ^ 32) ∧ x % 2 ^ 32 * (y % 2 ^ 32) < 2 ^ 64 := by
  have hx : 0 ≤ x % 2 ^ 32 := by omega
  have hy : 0 ≤ y % 2 ^ 32 := by omega
  refine ⟨mul_nonneg hx hy, ?_⟩
  calc x % 2 ^ 32 * (y % 2 ^ 32) < 2 ^ 32 * 2 ^ 32 := mul_lt_mul'' (by omega) (by omega) hx hy
    _ = 2 ^ 64 := by norm_num

theorem abs_lowHalf_mul_highHalf_lt (x : Int) (b : Word) : |x % 2 ^ 32 * (b.toInt / 2 ^ 32)| < 2 ^ 63 := by
  rw [abs_mul]
  calc |x % 2 ^ 32| * |b.toInt / 2 ^ 32| ≤ (2 ^ 32 - 1) * 2 ^ 31 :=
        mul_le_mul (abs_lowHalf_le x) (abs_highHalf_le b) (abs_nonneg _) (by norm_num)
    _ < 2 ^ 63 := by norm_num

theorem abs_highHalf_mul_highHalf_le (a b : Word) : |a.toInt / 2 ^ 32 * (b.toInt / 2 ^ 32)| ≤ 2 ^ 62 := by
  rw [abs_mul]
  calc |a.toInt / 2 ^ 32| * |b.toInt / 2 ^ 32| ≤ 2 ^ 31 * 2 ^ 31 :=
        mul_le_mul (abs_highHalf_le a) (abs_highHalf_le b) (abs_nonneg _) (by norm_num)
    _ = 2 ^ 62 := by norm_num

/-- A product is made up of the four products of the halves. -/
theorem mul_eq_partialProducts (x y : Int) :
    x * y = x / 2 ^ 32 * (y / 2 ^ 32) * 2 ^ 64 + (x % 2 ^ 32 * (y / 2 ^ 32) + x / 2 ^ 32 * (y % 2 ^ 32)) * 2 ^ 32 +
      x % 2 ^ 32 * (y % 2 ^ 32) := by
  calc x * y = (x / 2 ^ 32 * 2 ^ 32 + x % 2 ^ 32) * (y / 2 ^ 32 * 2 ^ 32 + y % 2 ^ 32) := by
        rw [Int.ediv_mul_add_emod, Int.ediv_mul_add_emod]
    _ = _ := by ring

/-- Only the lowest partial product has bits below bit 32, so its bit 31 is the one that rounds. -/
theorem halfUp_of_partialProducts (hi mid lo : Int) :
    (hi * 2 ^ 64 + mid * 2 ^ 32 + lo + 2 ^ 31) / 2 ^ 32 = hi * 2 ^ 32 + mid + lo / 2 ^ 32 + lo / 2 ^ 31 % 2 := by
  omega

/-! ### The datapath (R171) -/

theorem mulPartialSum_eq_partialProducts (a b : Word) :
    mulPartialSum a b = a.toInt / 2 ^ 32 * (b.toInt / 2 ^ 32) * 2 ^ 32 + a.toInt % 2 ^ 32 * (b.toInt / 2 ^ 32) +
      a.toInt / 2 ^ 32 * (b.toInt % 2 ^ 32) + a.toInt % 2 ^ 32 * (b.toInt % 2 ^ 32) / 2 ^ 32 +
      a.toInt % 2 ^ 32 * (b.toInt % 2 ^ 32) / 2 ^ 31 % 2 := by
  simp only [mulPartialSum, fracPart_eq, intPart_eq, shiftRightFloor_eq]

/-- The datapath's `q` is the exact product rounded half up at bit 32. -/
theorem mulPartialSum_eq_halfUp (a b : Word) : mulPartialSum a b = (a.toInt * b.toInt + 2 ^ 31) / 2 ^ 32 := by
  rw [mulPartialSum_eq_partialProducts, mul_eq_partialProducts a.toInt b.toInt, halfUp_of_partialProducts, ← add_assoc]

theorem mulDatapath_eq_mulRaw (a b : Word) : mulDatapath a b = mulRaw a b := by
  rw [mulDatapath, mulRaw, mulPartialSum_eq_halfUp, shiftRightFloor_eq]

/-! ### The statements -/

/-- Settles O24: MUL's value as an integer is its rule. -/
theorem mulRoundsHalfUpAndSaturates : Obligations.MulRoundsHalfUpAndSaturates := by
  unfold Obligations.MulRoundsHalfUpAndSaturates
  refine ⟨decode_encode .mul, ?_⟩
  intro s w a b hpend
  exact ⟨mulRaw a b, exec_mul_eq_completed hpend, mulRaw_toInt a b⟩

/-- Settles O25: in range nothing is clamped and rounding alone moves the product; out of range the clamp gives the
bound. -/
theorem mulIsAccurateToHalfAnUlp : Obligations.MulIsAccurateToHalfAnUlp := by
  unfold Obligations.MulIsAccurateToHalfAnUlp
  intro s w a b hpend
  refine ⟨mulRaw a b, exec_mul_eq_completed hpend, ?_⟩
  rw [mulRaw_toInt, mulInt]
  refine ⟨fun ⟨hlow, hhigh⟩ => ?_, clamp_halfUp_of_gt, clamp_halfUp_of_lt⟩
  rw [clamp_halfUp_of_mem hlow hhigh]
  exact two_mul_abs_halfUp_sub_le _

/-- Settles O26: each part is a lemma about the halves, once the low halves are read as values modulo 2^32. -/
theorem mulPartialProductsGiveTheProduct : Obligations.MulPartialProductsGiveTheProduct := by
  unfold Obligations.MulPartialProductsGiveTheProduct
  intro a b xlo xhi ylo yhi
  have hxlo : xlo = a.toInt % 2 ^ 32 := toNat_emod_eq_toInt_emod a
  have hylo : ylo = b.toInt % 2 ^ 32 := toNat_emod_eq_toInt_emod b
  rw [hxlo, hylo]
  refine ⟨lowHalf_mul_lowHalf_mem _ _, abs_lowHalf_mul_highHalf_lt _ b, ?_, abs_highHalf_mul_highHalf_le a b,
    mul_eq_partialProducts _ _, mulPartialSum_eq_partialProducts a b, mulPartialSum_eq_halfUp a b,
    mulDatapath_eq_mulRaw a b⟩
  rw [mul_comm]
  exact abs_lowHalf_mul_highHalf_lt _ a

end Sys2Proof.Machine
end

section
/-!
PROOFS. The statements about the divider (42_divider.md, R180 to R184). DIV and MOD end with DIV_BY_ZERO for a divisor
of 0, and else with `divInt` and the truncated remainder of their snapshots. The accuracy law follows from the error of the
quotient before it saturates (`two_mul_abs_roundedQuotient_sub_le`). The restoring loop holds, before it brings down bit
`i`, the quotient and the remainder of the dividend's bits above it (`restoringLoop_eq`), so its digits are those of the
quotient, and it stops early only where the magnitude saturates.
-/

namespace Sys2Proof.Machine

theorem toInt_ne_zero {b : Word} (hb : b ≠ 0) : b.toInt ≠ 0 := fun h => hb (word_ext h)

/-! ### The end of a command that can raise an error (R45, R272) -/

section
variable {s : State} {w a b : Word} {i : Instr}

/-- A command whose outcome is a function of its operands ends with that function of the snapshots. -/
theorem exec_eq_finish_binary {f : Word → Word → Except CommandError Word}
    (hexec : ∀ s, exec i s = finish s (f (operandA s) (operandB s))) (hpend : s.pend = some ⟨w, a, b⟩) :
    exec i s = finish s (f a b) := by
  rw [hexec, operandA_of_pend hpend, operandB_of_pend hpend]

/-- A divisor of 0 ends DIV with DIV_BY_ZERO, whatever the dividend (R180). -/
theorem exec_div_eq_failed (hpend : s.pend = some ⟨w, a, b⟩) (hb : b = 0) : exec .div s = .next (failed s 1#3) := by
  rw [exec_eq_finish_binary exec_div hpend, hb, divRaw_zero, finish_error, code_divByZero]

/-- Any other divisor ends DIV with the saturated quotient (R180). -/
theorem exec_div_eq_completed (hpend : s.pend = some ⟨w, a, b⟩) (hb : b ≠ 0) :
    ∃ v, exec .div s = .next (completed s v) ∧ v.toInt = divInt a.toInt b.toInt := by
  obtain ⟨v, hv, hval⟩ := divRaw_ok a b hb
  exact ⟨v, by rw [exec_eq_finish_binary exec_div hpend, hv, finish_ok], hval⟩

/-- A divisor of 0 ends MOD with DIV_BY_ZERO, whatever the dividend (R183). -/
theorem exec_mod_eq_failed (hpend : s.pend = some ⟨w, a, b⟩) (hb : b = 0) : exec .mod s = .next (failed s 1#3) := by
  rw [exec_eq_finish_binary exec_mod hpend, hb, modRaw_zero, finish_error, code_divByZero]

/-- Any other divisor ends MOD with the truncated remainder, which needs no saturation (R183). -/
theorem exec_mod_eq_completed (hpend : s.pend = some ⟨w, a, b⟩) (hb : b ≠ 0) :
    ∃ v, exec .mod s = .next (completed s v) ∧ v.toInt = a.toInt.tmod b.toInt := by
  obtain ⟨v, hv, hval⟩ := modRaw_ok a b hb
  exact ⟨v, by rw [exec_eq_finish_binary exec_mod hpend, hv, finish_ok], hval⟩

end

/-! ### The rounded quotient (R180, R182) -/

/-- The sign of a quotient, as a factor. -/
def quotientSign (x y : Int) : Int := if x < 0 ↔ y < 0 then 1 else -1

/-- The quotient of two raw values in raw units, rounded as R180 says, before it saturates. -/
def roundedQuotient (x y : Int) : Int := quotientSign x y * ((x.natAbs * 2 ^ 33 / y.natAbs + 1) / 2 : Nat)

theorem divInt_eq_clamp_roundedQuotient (x y : Int) : divInt x y = clamp (roundedQuotient x y) := rfl

theorem roundedQuotient_eq_ite (x y : Int) :
    roundedQuotient x y = if x < 0 ↔ y < 0 then (((x.natAbs * 2 ^ 33 / y.natAbs + 1) / 2 : Nat) : Int)
      else -(((x.natAbs * 2 ^ 33 / y.natAbs + 1) / 2 : Nat) : Int) := by
  rw [roundedQuotient, quotientSign, ite_mul, one_mul, neg_one_mul]

theorem abs_quotientSign (x y : Int) : |quotientSign x y| = 1 := by
  rw [quotientSign]; split_ifs <;> rfl

/-- The quotient's sign with the dividend's magnitude is the dividend with the divisor's sign. -/
theorem quotientSign_mul_natAbs (x : Int) {y : Int} (hy : y ≠ 0) : quotientSign x y * x.natAbs = x * y.sign := by
  rw [quotientSign]
  rcases lt_or_gt_of_ne hy with h | h
  · rw [Int.sign_eq_neg_one_of_neg h]; split_ifs <;> omega
  · rw [Int.sign_eq_one_of_pos h]; split_ifs <;> omega

/-- A quotient with one bit more than is kept, incremented and halved, is within half a unit of the true quotient. -/
theorem two_mul_abs_halfUpQuotient_sub_le (n : Nat) {d : Nat} (hd : 0 < d) :
    2 * |(((n * 2 / d + 1) / 2 : Nat) : Int) * d - n| ≤ d := by
  have hround : (n * 2 / d + 1) / 2 = (n * 2 + d) / (d * 2) := by
    rw [← Nat.add_div_right _ hd, Nat.div_div_eq_div_mul]
  have hlow := Nat.div_mul_le_self (n * 2 + d) (d * 2)
  have hhigh := Nat.lt_mul_div_succ (n * 2 + d) (show 0 < d * 2 by omega)
  rw [← hround] at hlow hhigh
  generalize (n * 2 / d + 1) / 2 = q at hlow hhigh ⊢
  zify at hlow hhigh
  rw [← abs_two, ← abs_mul, abs_le]
  exact ⟨by linarith, by linarith⟩

/-- The rounded quotient is within half a raw unit of the true one, with both multiplied by the divisor's magnitude. -/
theorem two_mul_abs_roundedQuotient_sub_le (x : Int) {y : Int} (hy : y ≠ 0) :
    2 * |roundedQuotient x y * |y| - x * 2 ^ 32 * y.sign| ≤ |y| := by
  have hmag := two_mul_abs_halfUpQuotient_sub_le (x.natAbs * 2 ^ 32) (Int.natAbs_pos.2 hy)
  have hextra : x.natAbs * 2 ^ 32 * 2 = x.natAbs * 2 ^ 33 := by omega
  have hdividend : x * 2 ^ 32 * y.sign = quotientSign x y * (x.natAbs * 2 ^ 32 : Nat) := by
    rw [mul_right_comm, ← quotientSign_mul_natAbs x hy, mul_assoc]; push_cast; rfl
  rw [hextra] at hmag
  rw [roundedQuotient, Int.abs_eq_natAbs y, hdividend, mul_assoc, ← mul_sub, abs_mul, abs_quotientSign, one_mul]
  exact hmag

section
variable {q n d k : Int} (hd : 0 < d) (herr : 2 * |q * d - n| ≤ d)
include hd herr

/-- Rounding to nearest does not pass an integer from below. -/
theorem rounded_le_of_le (hn : n ≤ k * d) : q ≤ k := by
  have hdist := le_abs_self (q * d - n)
  by_contra hpast
  have hstep : (k + 1) * d ≤ q * d := mul_le_mul_of_nonneg_right (by omega) hd.le
  linarith

/-- Rounding to nearest does not pass an integer from above. -/
theorem le_rounded_of_le (hn : k * d ≤ n) : k ≤ q := by
  have hdist := neg_abs_le (q * d - n)
  by_contra hpast
  have hstep : (q + 1) * d ≤ k * d := mul_le_mul_of_nonneg_right (by omega) hd.le
  linarith

/-- A value in range rounds to a value in range, so saturation keeps its accuracy. -/
theorem two_mul_abs_clamp_sub_le (hn : -2 ^ 63 * d ≤ n ∧ n ≤ (2 ^ 63 - 1) * d) : 2 * |clamp q * d - n| ≤ d := by
  rwa [clamp_of_mem (le_rounded_of_le hd herr hn.1) (rounded_le_of_le hd herr hn.2)]

/-- A value above the range saturates, also where it rounds down to the bound. -/
theorem clamp_rounded_of_gt (hn : (2 ^ 63 - 1) * d < n) : clamp q = 2 ^ 63 - 1 := by
  have hq := le_rounded_of_le hd herr hn.le
  simp only [clamp]; omega

/-- A value below the range saturates, also where it rounds up to the bound. -/
theorem clamp_rounded_of_lt (hn : n < -2 ^ 63 * d) : clamp q = -2 ^ 63 := by
  have hq := rounded_le_of_le hd herr hn.le
  simp only [clamp]; omega

end

/-! ### The restoring loop (R181) -/

/-- The quotient's digits from bit `i` up: the quotient of the dividend's bits from `i` up, in its place. -/
def quotientFrom (n d i : Nat) : Nat := n / 2 ^ i / d * 2 ^ i

/-- The remainder of the dividend's bits from `i` up. -/
def remainderFrom (n d i : Nat) : Nat := n / 2 ^ i % d

@[simp] theorem quotientFrom_zero (n d : Nat) : quotientFrom n d 0 = n / d := by simp [quotientFrom]

/-- No digit stands above the dividend's highest bit. -/
theorem quotientFrom_eq_zero {n i : Nat} (h : n < 2 ^ i) (d : Nat) : quotientFrom n d i = 0 := by
  rw [quotientFrom, Nat.div_eq_of_lt h, Nat.zero_div, zero_mul]

theorem remainderFrom_eq_zero {n i : Nat} (h : n < 2 ^ i) (d : Nat) : remainderFrom n d i = 0 := by
  rw [remainderFrom, Nat.div_eq_of_lt h, Nat.zero_mod]

/-- The digits from bit `i` up are at most the quotient. -/
theorem quotientFrom_le (n d i : Nat) : quotientFrom n d i ≤ n / d := by
  rw [quotientFrom, Nat.div_right_comm]
  exact Nat.div_mul_le_self _ _

/-- Bringing down bit `i`. -/
theorem div_two_pow_eq_snoc (n i : Nat) : n / 2 ^ i = 2 * (n / 2 ^ (i + 1)) + (n.testBit i).toNat := by
  rw [Nat.toNat_testBit, pow_succ, ← Nat.div_div_eq_div_mul, Nat.div_add_mod]

section
variable {n d i : Nat} (hd : 0 < d)
include hd

/-- Where the divisor fits, the digit is 1 and the divisor is subtracted. -/
theorem digits_of_fits (h : d ≤ 2 * remainderFrom n d (i + 1) + (n.testBit i).toNat) :
    quotientFrom n d i = quotientFrom n d (i + 1) + 2 ^ i ∧
      remainderFrom n d i = 2 * remainderFrom n d (i + 1) + (n.testBit i).toNat - d := by
  have hmod := Nat.mod_lt (n / 2 ^ (i + 1)) hd
  have hbit := Bool.toNat_le (n.testBit i)
  have hsplit := Nat.div_add_mod (n / 2 ^ (i + 1)) d
  rw [remainderFrom] at h
  have hstep : n / 2 ^ i / d = 2 * (n / 2 ^ (i + 1) / d) + 1 ∧
      n / 2 ^ i % d = 2 * (n / 2 ^ (i + 1) % d) + (n.testBit i).toNat - d := by
    rw [Nat.div_mod_unique hd, div_two_pow_eq_snoc n i]
    exact ⟨by rw [mul_add, mul_left_comm]; omega, by omega⟩
  refine ⟨?_, hstep.2⟩
  rw [quotientFrom, quotientFrom, hstep.1]; ring

/-- Where the divisor does not fit, the digit is 0 and the remainder stays. -/
theorem digits_of_not_fits (h : 2 * remainderFrom n d (i + 1) + (n.testBit i).toNat < d) :
    quotientFrom n d i = quotientFrom n d (i + 1) ∧
      remainderFrom n d i = 2 * remainderFrom n d (i + 1) + (n.testBit i).toNat := by
  have hsplit := Nat.div_add_mod (n / 2 ^ (i + 1)) d
  rw [remainderFrom] at h
  have hstep : n / 2 ^ i / d = 2 * (n / 2 ^ (i + 1) / d) ∧
      n / 2 ^ i % d = 2 * (n / 2 ^ (i + 1) % d) + (n.testBit i).toNat := by
    rw [Nat.div_mod_unique hd, div_two_pow_eq_snoc n i]
    exact ⟨by rw [mul_left_comm]; omega, h⟩
  refine ⟨?_, hstep.2⟩
  rw [quotientFrom, quotientFrom, hstep.1]; ring

/-- One round of the loop goes from the digits above bit `i` to the digits from `i` up. -/
theorem restoringLoop_succ : restoringLoop n d (i + 1) (remainderFrom n d (i + 1)) (quotientFrom n d (i + 1)) =
    if 2 ^ 64 ≤ quotientFrom n d i then none
    else restoringLoop n d i (remainderFrom n d i) (quotientFrom n d i) := by
  rw [restoringLoop]
  rcases le_or_gt d (2 * remainderFrom n d (i + 1) + (n.testBit i).toNat) with h | h
  · obtain ⟨hq, hr⟩ := digits_of_fits hd h
    simp only [if_pos h, hq, hr]
  · obtain ⟨hq, hr⟩ := digits_of_not_fits hd h
    simp only [if_neg h.not_ge, hq, hr]

/-- From the digits above, the loop ends with the quotient if it fits below 2^64, and stops early else. -/
theorem restoringLoop_eq (i : Nat) (hfit : quotientFrom n d i < 2 ^ 64) :
    restoringLoop n d i (remainderFrom n d i) (quotientFrom n d i) =
      if n / d < 2 ^ 64 then some (n / d) else none := by
  induction i with
  | zero =>
    rw [quotientFrom_zero] at hfit ⊢
    rw [restoringLoop, if_pos hfit]
  | succ i ih =>
    rw [restoringLoop_succ hd]
    split_ifs with hstop hquot
    · exact absurd ((quotientFrom_le n d i).trans_lt hquot) hstop.not_gt
    · rfl
    · rw [ih (not_le.1 hstop), if_pos ‹_›]
    · rw [ih (not_le.1 hstop), if_neg ‹_›]

/-- Started with nothing brought down, the loop of R181 divides. -/
theorem restoringLoop_zero_zero (h : n < 2 ^ i) :
    restoringLoop n d i 0 0 = if n / d < 2 ^ 64 then some (n / d) else none := by
  have hloop := restoringLoop_eq (n := n) hd i (by rw [quotientFrom_eq_zero h]; norm_num)
  rwa [quotientFrom_eq_zero h, remainderFrom_eq_zero h] at hloop

end

/-! ### The datapath (R181) -/

/-- A quotient of two magnitudes is never 2^64 - 1: the one magnitude that MAX_RAW does not hold and the early
saturation does not catch. -/
theorem quotient_ne_allOnes {x y : Nat} (hx : x ≤ 2 ^ 63) (hy : 0 < y) : x * 2 ^ 33 / y ≠ 2 ^ 64 - 1 := by
  intro h
  have hlow := Nat.div_mul_le_self (x * 2 ^ 33) y
  have hhigh := Nat.lt_mul_div_succ (x * 2 ^ 33) hy
  rw [h] at hlow hhigh
  omega

/-- A magnitude of 2^63 or more saturates to the bound of its sign. -/
theorem satWord_signed_of_ge (neg : Bool) {mag : Nat} (h : 2 ^ 63 ≤ mag) :
    satWord (signed neg mag) = if neg then minRaw else maxRaw := by
  apply word_ext
  rw [satWord_toInt]
  cases neg
  · rw [if_neg Bool.false_ne_true, maxRaw_toInt, signed, if_neg Bool.false_ne_true, clamp]; omega
  · rw [if_pos rfl, minRaw_toInt, signed, if_pos rfl, clamp]; omega

/-- A magnitude below 2^63 does not saturate. -/
theorem satWord_signed_of_lt (neg : Bool) {mag : Nat} (h : mag < 2 ^ 63) :
    satWord (signed neg mag) = BitVec.ofInt 64 (signed neg mag) := by
  have hmem : -2 ^ 63 ≤ signed neg mag ∧ signed neg mag ≤ 2 ^ 63 - 1 := by
    cases neg <;> simp only [signed, if_true, if_neg Bool.false_ne_true] <;> omega
  rw [satWord, sat64_eq_clamp, clamp_of_mem hmem.1 hmem.2]

/-- The datapath's word is the signed rounded magnitude, saturated. -/
theorem divDatapath_eq_satWord (a : Word) {b : Word} (hb : b ≠ 0) :
    divDatapath a b =
      satWord (signed (quotientNeg a b) ((a.toInt.natAbs * 2 ^ 33 / b.toInt.natAbs + 1) / 2)) := by
  have ha : a.toInt.natAbs ≤ 2 ^ 63 := by have := toInt_range a; omega
  have hpos : 0 < b.toInt.natAbs := Int.natAbs_pos.2 (toInt_ne_zero hb)
  have hne := quotient_ne_allOnes ha hpos
  rw [divDatapath, restoringLoop_zero_zero hpos (by omega)]
  by_cases hfit : a.toInt.natAbs * 2 ^ 33 / b.toInt.natAbs < 2 ^ 64
  · rw [if_pos hfit, satWord_signed_of_lt _ (by omega)]
  · rw [if_neg hfit, satWord_signed_of_ge _ (by omega)]

theorem divRaw_eq_divDatapath (a : Word) {b : Word} (hb : b ≠ 0) : divRaw a b = .ok (divDatapath a b) := by
  rw [divRaw, if_neg hb, divDatapath_eq_satWord a hb]

/-! ### The truncated remainder (R183, R184) -/

theorem abs_tmod_lt (x : Int) {y : Int} (hy : y ≠ 0) : |x.tmod y| < |y| := by
  rw [Int.abs_eq_natAbs, Int.abs_eq_natAbs, Int.natAbs_tmod]
  exact_mod_cast Nat.mod_lt _ (Int.natAbs_pos.2 hy)

/-- A remainder of the truncated quotient is 0 or has the dividend's sign. -/
theorem tmod_eq_zero_or_sign_eq (x y : Int) : x.tmod y = 0 ∨ (x.tmod y).sign = x.sign := by
  rw [Int.sign_tmod]
  split_ifs with hdvd
  · exact .inl (Int.tmod_eq_zero_of_dvd hdvd)
  · exact .inr rfl

/-! ### The statements -/

/-- Settles O27: the test of the two signs in DIV's rule chooses the sign of the magnitude. -/
theorem divRoundsToNearestAndSaturates : Obligations.DivRoundsToNearestAndSaturates := by
  unfold Obligations.DivRoundsToNearestAndSaturates
  refine ⟨decode_encode .div, ?_⟩
  intro s w a b hpend
  refine ⟨exec_div_eq_failed hpend, fun hb => ?_⟩
  obtain ⟨v, hexec, hval⟩ := exec_div_eq_completed hpend hb
  refine ⟨v, hexec, ?_⟩
  rw [hval, divInt_eq_clamp_roundedQuotient, roundedQuotient_eq_ite, clamp]

/-- Settles O28: the quotient before saturation is within half a unit, in range and out of it. -/
theorem divIsAccurateToHalfAnUlp : Obligations.DivIsAccurateToHalfAnUlp := by
  unfold Obligations.DivIsAccurateToHalfAnUlp
  intro s w a b hpend hb
  obtain ⟨v, hexec, hval⟩ := exec_div_eq_completed hpend hb
  have hy : b.toInt ≠ 0 := toInt_ne_zero hb
  have herr := two_mul_abs_roundedQuotient_sub_le a.toInt hy
  refine ⟨v, hexec, ?_⟩
  rw [hval, divInt_eq_clamp_roundedQuotient]
  have hd : 0 < |b.toInt| := abs_pos.2 hy
  exact ⟨two_mul_abs_clamp_sub_le hd herr, clamp_rounded_of_gt hd herr, clamp_rounded_of_lt hd herr⟩

/-- Settles O29: the loop's early stop and DIV's saturation part the quotients alike. -/
theorem restoringDivisionGivesDiv : Obligations.RestoringDivisionGivesDiv := by
  unfold Obligations.RestoringDivisionGivesDiv
  intro a b hb
  exact divRaw_eq_divDatapath a hb

/-- Settles O30: MOD's value is the truncated remainder, whose laws are those of the integers. -/
theorem modIsTheTruncatedRemainder : Obligations.ModIsTheTruncatedRemainder := by
  unfold Obligations.ModIsTheTruncatedRemainder
  refine ⟨decode_encode .mod, ?_⟩
  intro s w a b hpend
  refine ⟨exec_mod_eq_failed hpend, fun hb => ?_⟩
  obtain ⟨v, hexec, hval⟩ := exec_mod_eq_completed hpend hb
  refine ⟨v, hexec, ?_⟩
  rw [hval]
  exact ⟨Int.tmod_def _ _, (Int.mul_tdiv_add_tmod _ _).symm, abs_tmod_lt _ (toInt_ne_zero hb),
    tmod_eq_zero_or_sign_eq _ _⟩

end Sys2Proof.Machine
end

section
/-!
PROOFS. The statements about the square root (43_sqrt.md, R195 to R197). The rounded root of `n` is the least `k` with
`n <= k * (k + 1)` (`IsRoundedRoot.le_iff`). So it is unique, grows with `n`, and is bounded by one product; and
a word whose value is the rounded root is SQRT's result (`sqrtRaw_eq_of_isRoundedRoot`).
-/

namespace Sys2Proof.Machine

/-! ### The rounded root (R195) -/

/-- Rounding to nearest passes from `k` to `k + 1` above `k * (k + 1)`, the last integer below the square of
`k + 1/2`. -/
theorem IsRoundedRoot.le_iff {n v k : Int} (h : IsRoundedRoot n v) (hk : 0 ≤ k) : v ≤ k ↔ n ≤ k * (k + 1) := by
  obtain ⟨r, hr, hlow, hhigh, rfl⟩ := h
  rcases lt_trichotomy k r with hlt | rfl | hgt
  · have hroot : k * (k + 1) < r * r := mul_lt_mul hlt (by omega) (by omega) hr
    exact iff_of_false (by split_ifs <;> omega) (by omega)
  · split_ifs <;> constructor <;> intro <;> linarith
  · have hroot : (r + 1) * (r + 1) ≤ k * (k + 1) := mul_le_mul hgt (by omega) (by omega) hk
    exact iff_of_true (by split_ifs <;> omega) (by omega)

theorem IsRoundedRoot.nonneg {n v : Int} (h : IsRoundedRoot n v) : 0 ≤ v := by
  obtain ⟨r, hr, -, -, rfl⟩ := h
  split_ifs <;> omega

/-- The rounded root grows with its radicand (R197 (1)). -/
theorem IsRoundedRoot.mono {m n u v : Int} (hu : IsRoundedRoot m u) (hv : IsRoundedRoot n v) (hmn : m ≤ n) : u ≤ v :=
  (hu.le_iff hv.nonneg).2 (hmn.trans ((hv.le_iff hv.nonneg).1 le_rfl))

theorem IsRoundedRoot.unique {n u v : Int} (hu : IsRoundedRoot n u) (hv : IsRoundedRoot n v) : u = v :=
  le_antisymm (hu.mono hv le_rfl) (hv.mono hu le_rfl)

/-- The root of a square is exact. -/
theorem isRoundedRoot_mul_self {k : Int} (hk : 0 ≤ k) : IsRoundedRoot (k * k) k :=
  ⟨k, hk, le_rfl, by nlinarith, by rw [sub_self, if_neg hk.not_gt]⟩

/-! ### SQRT's result is the rounded root -/

/-- A word with the value of the rounded root is SQRT's result. -/
theorem sqrtRaw_eq_of_isRoundedRoot {a v : Word} (ha : 0 ≤ a.toInt) (h : IsRoundedRoot (a.toInt * 2 ^ 32) v.toInt) :
    sqrtRaw a = .ok v := by
  obtain ⟨r, hr, hroot, -⟩ := sqrtRaw_ok ha
  rw [hr, word_ext (hroot.unique h)]

/-- No root exceeds the root of MAX_RAW (R195). -/
theorem sqrtRaw_le_root_maxRaw {a v : Word} (h : sqrtRaw a = .ok v) : v.toInt ≤ 0x0000B504F333F9DE := by
  have ha := toInt_range a
  rw [(sqrtRaw_isRoundedRoot h).le_iff (by norm_num)]
  omega

/-- A number below 2^63 reads back from its word. -/
theorem toInt_ofNat_of_lt {n : Nat} (h : n < 2 ^ 63) : (BitVec.ofNat 64 n).toInt = n := by
  rw [BitVec.toInt_ofNat', bmod_of_mem (by omega) (by omega)]

/-- The root of `4^k` is `2^k`, as long as the operand is in range (R197 (2)). -/
theorem sqrtRaw_four_pow {k : Nat} (hk : k ≤ 15) :
    sqrtRaw (BitVec.ofNat 64 (4 ^ k * 2 ^ 32)) = .ok (BitVec.ofNat 64 (2 ^ k * 2 ^ 32)) := by
  have hfour : 4 ^ k ≤ 4 ^ 15 := Nat.pow_le_pow_right (by norm_num) hk
  have htwo : 2 ^ k ≤ 2 ^ 15 := Nat.pow_le_pow_right (by norm_num) hk
  have ha : (BitVec.ofNat 64 (4 ^ k * 2 ^ 32)).toInt = (4 ^ k * 2 ^ 32 : Nat) := toInt_ofNat_of_lt (by omega)
  have hv : (BitVec.ofNat 64 (2 ^ k * 2 ^ 32)).toInt = (2 ^ k * 2 ^ 32 : Nat) := toInt_ofNat_of_lt (by omega)
  have hsquare : ((4 ^ k * 2 ^ 32 : Nat) : Int) * 2 ^ 32 = (2 ^ k * 2 ^ 32 : Nat) * (2 ^ k * 2 ^ 32 : Nat) := by
    have hpow : (4 : Int) ^ k = 2 ^ k * 2 ^ k := by rw [← mul_pow]; norm_num
    push_cast
    rw [hpow]; ring
  apply sqrtRaw_eq_of_isRoundedRoot
  · rw [ha]; exact Int.natCast_nonneg _
  · rw [ha, hv, hsquare]; exact isRoundedRoot_mul_self (Int.natCast_nonneg _)

/-! ### The end of a SQRT command (R45, R272) -/

section
variable {s : State} {w a b : Word}

/-- A command whose outcome is a function of its first operand ends with that function of the first snapshot. -/
theorem exec_eq_finish_unary {i : Instr} {f : Word → Except CommandError Word}
    (hexec : ∀ s, exec i s = finish s (f (operandA s))) (hpend : s.pend = some ⟨w, a, b⟩) :
    exec i s = finish s (f a) :=
  exec_eq_finish_binary (f := fun a _ => f a) hexec hpend

/-- A negative operand ends SQRT with NEG_SQRT_ARG (R195). -/
theorem exec_sqrt_eq_failed (hpend : s.pend = some ⟨w, a, b⟩) (ha : a.toInt < 0) :
    exec .sqrt s = .next (failed s 2#3) := by
  rw [exec_eq_finish_unary exec_sqrt hpend, sqrtRaw_neg ha, finish_error, code_negSqrtArg]

theorem exec_sqrt_eq_completed {v : Word} (hpend : s.pend = some ⟨w, a, b⟩) (hv : sqrtRaw a = .ok v) :
    exec .sqrt s = .next (completed s v) := by
  rw [exec_eq_finish_unary exec_sqrt hpend, hv, finish_ok]

end

/-! ### The operand at which the two-pass form differs (R196) -/

/-- The remainder at this operand exceeds the integer root 0xB17A4A8EBC85, so the root is rounded up. -/
theorem isRoundedRoot_twoPassOperand : IsRoundedRoot (8865992844111978193 * 2 ^ 32) 0xB17A4A8EBC86 :=
  ⟨0xB17A4A8EBC85, by norm_num, by norm_num, by norm_num, by norm_num⟩

/-- The digits of both passes, evaluated. -/
theorem sqrtTwoPass_twoPassOperand : sqrtTwoPass 8865992844111978193 = 0xB17A4A8EBC85 := by decide +kernel

/-! ### The statements -/

/-- Settles O31: the result is the rounded root, which its monotonicity bounds by the root of MAX_RAW. -/
theorem sqrtIsTheRoundedRoot : Obligations.SqrtIsTheRoundedRoot := by
  unfold Obligations.SqrtIsTheRoundedRoot
  refine ⟨decode_encode .sqrt, ?_⟩
  intro s w a b hpend
  refine ⟨exec_sqrt_eq_failed hpend, fun ha => ?_⟩
  obtain ⟨v, hv, hroot, hnonneg, -⟩ := sqrtRaw_ok ha
  exact ⟨v, exec_sqrt_eq_completed hpend hv, hroot, hnonneg, sqrtRaw_le_root_maxRaw hv⟩

/-- Settles O32: the rounded root is monotone, and `4^k` in raw units times 2^32 is the square of `2^k` in raw units. -/
theorem sqrtIsMonotoneAndExactOnPowersOfFour : Obligations.SqrtIsMonotoneAndExactOnPowersOfFour := by
  unfold Obligations.SqrtIsMonotoneAndExactOnPowersOfFour
  refine ⟨fun a b u v _ hab hu hv => ?_, fun k hk => sqrtRaw_four_pow hk⟩
  exact (sqrtRaw_isRoundedRoot hu).mono (sqrtRaw_isRoundedRoot hv) (by omega)

/-- Settles O33: the rounded root is unique, so SQRT gives it, and the two-pass form's value is not one. -/
theorem twoPassRootDiffersSomewhere : Obligations.TwoPassRootDiffersSomewhere := by
  unfold Obligations.TwoPassRootDiffersSomewhere
  refine ⟨fun s w b hpend => ?_, isRoundedRoot_twoPassOperand, fun hroot => ?_, sqrtTwoPass_twoPassOperand⟩
  · exact exec_sqrt_eq_completed hpend (sqrtRaw_eq_of_isRoundedRoot (by decide) isRoundedRoot_twoPassOperand)
  · exact absurd (hroot.unique isRoundedRoot_twoPassOperand) (by decide)

end Sys2Proof.Machine
end

section
/-!
PROOFS. The statements about the table sine (44_trig_lut.md, R205 to R212). SIN depends on its operand only through the
reduced angle (`sinRaw_congr`), so it has the period of the reduction; its value is the signed table value at the folded
angle (`sinRaw_toInt`), which R19 bounds by One. The exact values are those at the two ends of the fold: the folded
angle 0 reads the entry 0, and pi/2 lies at the table's end. COS and TAN are compositions of SIN with ADD and DIV.
-/

namespace Sys2Proof.Machine

/-! ### The constants of the reduction (R13) -/

theorem piTimes2Raw_toInt : piTimes2Raw.toInt = 26986075409 := by decide

theorem piRaw_toNat : piRaw.toNat = 13493037704 := by decide

theorem piOver2Raw_toNat : piOver2Raw.toNat = 6746518852 := by decide

theorem piOver2Raw_toInt : piOver2Raw.toInt = 6746518852 := by decide

theorem oneRaw_toNat : oneRaw.toNat = 2 ^ 32 := by decide

/-! ### The reduced and the folded angle (R205, R206) -/

theorem reduceAngle_eq_emod (a : Word) : (reduceAngle a : Int) = a.toInt % 26986075409 := by
  rw [reduceAngle, piTimes2Raw_toInt, Int.toNat_of_nonneg (Int.emod_nonneg _ (by decide))]

theorem reduceAngle_lt (a : Word) : reduceAngle a < 26986075409 := by
  have h := reduceAngle_eq_emod a
  omega

/-- Angles a whole turn apart reduce to the same one (R205). -/
theorem reduceAngle_of_turn {a b : Word} (h : b.toInt = a.toInt + 26986075409) : reduceAngle b = reduceAngle a := by
  have ha := reduceAngle_eq_emod a
  have hb := reduceAngle_eq_emod b
  rw [h, Int.add_emod_right, ← ha] at hb
  exact_mod_cast hb

theorem foldNeg_eq_true_iff (t : Nat) : foldNeg t = true ↔ 13493037704 ≤ t := by
  rw [foldNeg, decide_eq_true_eq, piRaw_toNat]

/-- The fold in integer arithmetic: for a reduced angle, the half turn taken off does not exceed pi, so the natural
subtraction of the mirror does not truncate (R206). -/
theorem foldAngle_eq {t : Nat} (ht : t < 26986075409) :
    (foldAngle t : Int) =
      let h : Int := if 13493037704 ≤ (t : Int) then t - 13493037704 else t
      if 6746518852 < h then 13493037704 - h else h := by
  simp only [foldAngle, foldNeg_eq_true_iff, piRaw_toNat, piOver2Raw_toNat]
  split_ifs <;> omega

/-- The folded angle lies in the first quadrant, both ends included (R206). -/
theorem foldAngle_le {t : Nat} (ht : t < 26986075409) : foldAngle t ≤ 6746518852 := by
  have h := foldAngle_eq ht
  dsimp only at h
  split_ifs at h <;> omega

/-! ### The table (R19, R208) -/

theorem lutLen_eq (cfg : Config) : lutLen cfg = 6746518852 / 2 ^ cfg.lutShift := by
  rw [lutLen, piOver2Raw_toNat, Nat.shiftRight_eq_div_pow]

theorem sineEntry_zero (cfg : Config) : sineEntry cfg 0 = 0 := by rw [sineEntry, if_pos rfl]

/-- R19's bound on an entry, whichever table the configuration names. -/
theorem sineEntry_le (cfg : Config) (i : Nat) : sineEntry cfg i ≤ 2 ^ 32 := by
  unfold sineEntry
  split_ifs
  · exact Nat.zero_le _
  · cases cfg.sineTable with
    | external id => exact Nat.le_of_lt_succ (Config.externalSine id cfg.lutShift i).isLt
    | recommended => exact (min_le_right _ _).trans oneRaw_toNat.le

theorem lookupSine_of_ge {cfg : Config} {i : Nat} (h : lutLen cfg ≤ i) : lookupSine cfg i = 2 ^ 32 := by
  rw [lookupSine, if_pos h, oneRaw_toNat]

theorem lookupSine_of_lt {cfg : Config} {i : Nat} (h : i < lutLen cfg) : lookupSine cfg i = sineEntry cfg i := by
  rw [lookupSine, if_neg h.not_ge]

theorem lookupSine_le (cfg : Config) (i : Nat) : lookupSine cfg i ≤ 2 ^ 32 := by
  rcases le_or_gt (lutLen cfg) i with h | h
  · exact (lookupSine_of_ge h).le
  · exact (lookupSine_of_lt h).trans_le (sineEntry_le cfg i)

/-! ### SIN (R209) -/

theorem signed_eq_ite (neg : Bool) (mag : Nat) : signed neg mag = if neg then -(mag : Int) else mag := rfl

theorem signed_zero (neg : Bool) : signed neg 0 = 0 := by cases neg <;> rfl

theorem abs_signed (neg : Bool) (mag : Nat) : |signed neg mag| = mag := by
  cases neg
  · exact Nat.abs_cast mag
  · exact (abs_neg _).trans (Nat.abs_cast mag)

/-- A signed magnitude that fits a register reads back from it. -/
theorem toInt_ofInt_signed (neg : Bool) {mag : Nat} (h : mag < 2 ^ 63) :
    (BitVec.ofInt 64 (signed neg mag)).toInt = signed neg mag := by
  obtain ⟨hlow, hhigh⟩ := abs_le.1 (abs_signed neg mag).le
  exact toInt_ofInt_of_mem (by omega) (by omega)

/-- SIN's value is the signed table value at the folded angle; no table value is too large for a register (R209). -/
theorem sinRaw_toInt (cfg : Config) (a : Word) :
    (sinRaw cfg a).toInt =
      signed (foldNeg (reduceAngle a)) (lookupSine cfg (foldAngle (reduceAngle a) / 2 ^ cfg.lutShift)) := by
  rw [sinRaw, Nat.shiftRight_eq_div_pow]
  exact toInt_ofInt_signed _ ((lookupSine_le cfg _).trans_lt (by decide))

/-- SIN depends on its operand only through the reduced angle. -/
theorem sinRaw_congr (cfg : Config) {a b : Word} (h : reduceAngle b = reduceAngle a) : sinRaw cfg b = sinRaw cfg a := by
  rw [sinRaw, sinRaw, h]

/-- FSIN, too, depends on its operand only through the reduced angle (R221). -/
theorem fsinRaw_congr {a b : Word} (h : reduceAngle b = reduceAngle a) : fsinRaw b = fsinRaw a := by
  rw [fsinRaw, fsinRaw, h]

/-- SIN is bounded by One (R212 (1)). -/
theorem abs_sinRaw_le (cfg : Config) (a : Word) : |(sinRaw cfg a).toInt| ≤ 2 ^ 32 := by
  rw [sinRaw_toInt, abs_signed]
  exact_mod_cast lookupSine_le cfg _

/-- An angle that folds to 0 has the sine 0, as the table is not empty and its entry 0 is 0 (R19). -/
theorem sinRaw_of_foldAngle_eq_zero {cfg : Config} {a : Word} (hshift : cfg.lutShift = 0)
    (hfold : foldAngle (reduceAngle a) = 0) : sinRaw cfg a = 0 := by
  have hlookup : lookupSine cfg 0 = 0 := by
    rw [lookupSine_of_lt (by rw [lutLen_eq, hshift]; decide), sineEntry_zero]
  apply word_ext
  rw [sinRaw_toInt, hfold, Nat.zero_div, hlookup, signed_zero]; rfl

/-- An angle that folds to pi/2 has the sine One or minus One: whatever LUT_SHIFT is, its index is the table's length,
where the lookup clamps (R208). -/
theorem sinRaw_of_foldAngle_eq_piOver2 {cfg : Config} {a : Word} (hfold : foldAngle (reduceAngle a) = 6746518852) :
    sinRaw cfg a = if foldNeg (reduceAngle a) then -oneRaw else oneRaw := by
  have hlookup : lookupSine cfg (6746518852 / 2 ^ cfg.lutShift) = 2 ^ 32 := lookupSine_of_ge (lutLen_eq cfg).le
  apply word_ext
  rw [sinRaw_toInt, hfold, hlookup]
  cases foldNeg (reduceAngle a) <;> decide

/-! ### COS and TAN (R210, R211) -/

/-- COS at an angle is SIN at the angle that ADD gives a quarter turn later. -/
theorem cosRaw_eq_sinRaw (cfg : Config) {a c : Word} (h : addRaw a piOver2Raw = c) : cosRaw cfg a = sinRaw cfg c := by
  rw [cosRaw, h]

theorem abs_cosRaw_le (cfg : Config) (a : Word) : |(cosRaw cfg a).toInt| ≤ 2 ^ 32 := abs_sinRaw_le cfg _

section
variable {s : State} {w a b : Word} {i : Instr}

/-- A command whose outcome is a function of the configuration and its first operand ends with that function of the
first snapshot. -/
theorem exec_eq_finish_config {f : Config → Word → Except CommandError Word}
    (hexec : ∀ s, exec i s = finish s (f s.cfg (operandA s))) (hpend : s.pend = some ⟨w, a, b⟩) :
    exec i s = finish s (f s.cfg a) := by
  rw [hexec, operandA_of_pend hpend]

theorem exec_sin_eq_completed (hpend : s.pend = some ⟨w, a, b⟩) :
    exec .sin s = .next (completed s (sinRaw s.cfg a)) :=
  exec_eq_finish_config (f := fun cfg a => .ok (sinRaw cfg a)) exec_sin hpend

theorem exec_cos_eq_completed (hpend : s.pend = some ⟨w, a, b⟩) :
    exec .cos s = .next (completed s (cosRaw s.cfg a)) :=
  exec_eq_finish_config (f := fun cfg a => .ok (cosRaw cfg a)) exec_cos hpend

/-- COS ends as SIN does with the saturating sum in place of the operand (R210). -/
theorem exec_cos_eq_exec_sin (hpend : s.pend = some ⟨w, a, b⟩) :
    exec .cos s = exec .sin { s with pend := some ⟨w, addRaw a piOver2Raw, b⟩ } := by
  rw [exec_cos_eq_completed hpend, exec_sin_eq_completed (s := { s with pend := _ }) rfl]
  rfl

/-- TAN ends as DIV does with SIN and COS in place of the operands (R211). -/
theorem exec_tan_eq_exec_div (hpend : s.pend = some ⟨w, a, b⟩) :
    exec .tan s = exec .div { s with pend := some ⟨w, sinRaw s.cfg a, cosRaw s.cfg a⟩ } := by
  rw [exec_eq_finish_config exec_tan hpend, exec_eq_finish_binary (s := { s with pend := _ }) exec_div rfl]
  exact (finish_with_pend s _ _).symm

end

/-! ### The statements -/

/-- Settles O34: each step of SIN is its rule in integer arithmetic. -/
theorem sinFoldsAndLooksUp : Obligations.SinFoldsAndLooksUp := by
  unfold Obligations.SinFoldsAndLooksUp
  refine ⟨decode_encode .sin, ?_⟩
  intro s w a b hpend
  refine ⟨sinRaw s.cfg a, exec_sin_eq_completed hpend, ?_⟩
  intro t h f idx m
  have ht : t = reduceAngle a := (reduceAngle_eq_emod a).symm
  have hf : f = foldAngle (reduceAngle a) := by
    rw [foldAngle_eq (reduceAngle_lt a), ← ht]
  have hidx : idx = foldAngle (reduceAngle a) / 2 ^ s.cfg.lutShift := by
    simp only [idx, hf, Int.toNat_natCast]
  have hm : m = lookupSine s.cfg idx := by
    simp only [m, lookupSine, lutLen_eq, oneRaw_toNat]
    split_ifs <;> rfl
  have hsign : 13493037704 ≤ t ↔ foldNeg (reduceAngle a) = true := by
    rw [foldNeg_eq_true_iff]; omega
  have hle := foldAngle_le (reduceAngle_lt a)
  refine ⟨by omega, ?_⟩
  simp only [hsign]
  rw [hm, hidx, sinRaw_toInt, signed_eq_ite]

/-- Settles O35: the entries are bounded by R19, and equal reduced angles give equal results. -/
theorem sineIsBoundedAndPeriodic : Obligations.SineIsBoundedAndPeriodic := by
  unfold Obligations.SineIsBoundedAndPeriodic
  refine ⟨fun cfg i => ⟨sineEntry_le cfg i, sineEntry_zero cfg⟩,
    fun cfg a => ⟨abs_sinRaw_le cfg a, abs_cosRaw_le cfg a⟩, fun cfg a b h => ?_⟩
  have hreduce := reduceAngle_of_turn h
  exact ⟨sinRaw_congr cfg hreduce, fsinRaw_congr hreduce⟩

/-- Settles O36: each angle folds to 0 or to pi/2, and COS is SIN a quarter turn later. -/
theorem sineAndCosineExactValues : Obligations.SineAndCosineExactValues := by
  unfold Obligations.SineAndCosineExactValues
  intro cfg hshift
  have hzero : sinRaw cfg 0 = 0 := sinRaw_of_foldAngle_eq_zero hshift (by decide)
  have hquarter : sinRaw cfg piOver2Raw = oneRaw := sinRaw_of_foldAngle_eq_piOver2 (by decide)
  have hhalf : sinRaw cfg piRaw = 0 := sinRaw_of_foldAngle_eq_zero hshift (by decide)
  have hthree : sinRaw cfg (piRaw + piOver2Raw) = -oneRaw := sinRaw_of_foldAngle_eq_piOver2 (by decide)
  have hturn : sinRaw cfg piTimes2Raw = 0 := sinRaw_of_foldAngle_eq_zero hshift (by decide)
  have hminus : sinRaw cfg (-1) = 0 := sinRaw_of_foldAngle_eq_zero hshift (by decide)
  refine ⟨hzero, hquarter, hhalf, hthree, hturn, hminus, ?_, ?_, ?_, ?_⟩
  · exact (cosRaw_eq_sinRaw cfg (by decide)).trans hquarter
  · exact (cosRaw_eq_sinRaw cfg (by decide)).trans hthree
  · exact (cosRaw_eq_sinRaw cfg (by decide)).trans hhalf
  · exact (cosRaw_eq_sinRaw cfg (by decide)).trans hzero

/-- Settles O37: DIV's own two cases, at the pair of SIN and COS, are TAN's. -/
theorem cosAndTanAreBuiltOnSin : Obligations.CosAndTanAreBuiltOnSin := by
  unfold Obligations.CosAndTanAreBuiltOnSin
  refine ⟨⟨decode_encode .cos, decode_encode .tan⟩, ?_⟩
  intro s w a b hpend
  have hsum : (addRaw a piOver2Raw).toInt = clamp (a.toInt + 6746518852) := by rw [addRaw_toInt, piOver2Raw_toInt]
  have htan := exec_tan_eq_exec_div hpend
  refine ⟨⟨_, _, hsum, exec_cos_eq_completed hpend, exec_cos_eq_exec_sin hpend⟩,
    _, _, exec_sin_eq_completed hpend, exec_cos_eq_completed hpend, htan, fun hcos => ?_, fun hcos => ?_⟩
  · exact htan.trans (exec_div_eq_failed rfl hcos)
  · rw [htan]
    exact exec_div_eq_completed (s := { s with pend := _ }) rfl hcos

end Sys2Proof.Machine
end

section
/-!
PROOFS. The statements about the fast trigonometry (45_fast_trig.md, R220 to R222). SINP is a chain of MUL, SUB and ADD,
each of which is its integer rule on every operand, so the whole formula is (`sinpRaw_toInt`). FSIN and FCOS each end as
another command does with the first operand replaced (`exec_eq_exec_with_operand`): FSIN as SINP at the centred angle,
FCOS as FSIN at the saturating sum with pi/2.
-/

namespace Sys2Proof.Machine

/-! ### SINP (R220) -/

theorem sinpBRaw_toInt : sinpBRaw.toInt = 5468522204 := by decide

theorem sinpCRaw_toInt : sinpCRaw.toInt = 1740684680 := by decide

theorem sinpKRaw_toInt : sinpKRaw.toInt = 966367641 := by decide

/-- The parabola estimate `r` of SINP: `p - q` (R220). -/
def sinpParabola (x : Int) : Int := clamp (mulInt 5468522204 x - mulInt (mulInt 1740684680 x) (absInt x))

/-- SINP's correction of an estimate `r`: a fraction of `r*|r| - r` added to it (R220). -/
def sinpCorrect (r : Int) : Int := clamp (mulInt 966367641 (clamp (mulInt r (absInt r) - r)) + r)

/-- SINP is the corrected parabola, whatever the operand: every step saturates as its rule does. -/
theorem sinpRaw_toInt (a : Word) : (sinpRaw a).toInt = sinpCorrect (sinpParabola a.toInt) := by
  simp only [sinpRaw, addRaw_toInt, subRaw_toInt, mulRaw_toInt, absRaw_toInt, sinpBRaw_toInt, sinpCRaw_toInt,
    sinpKRaw_toInt, sinpParabola, sinpCorrect]

/-! ### FSIN's angle (R221) -/

/-- The operand that FSIN gives SINP: the angle reduced and shifted into half a turn on either side of 0 (R221). -/
def centredAngle (a : Word) : Word := BitVec.ofInt 64 (centreAngle (reduceAngle a))

theorem fsinRaw_eq_sinpRaw (a : Word) : fsinRaw a = sinpRaw (centredAngle a) := rfl

theorem centreAngle_eq (t : Nat) :
    centreAngle t = if 13493037704 < (t : Int) then (t : Int) - 26986075409 else t := by
  rw [centreAngle, piRaw_toNat, piTimes2Raw_toInt]
  split_ifs <;> omega

/-- An angle less than a whole turn is centred into [-pi, pi]; the turn is odd, so its upper half begins at pi + 1. -/
theorem abs_centreAngle_le {t : Nat} (ht : t < 26986075409) : |centreAngle t| ≤ 13493037704 := by
  rw [centreAngle_eq, abs_le]
  split_ifs <;> omega

/-- The centred angle fits a register. -/
theorem centredAngle_toInt (a : Word) : (centredAngle a).toInt = centreAngle (reduceAngle a) := by
  obtain ⟨hlow, hhigh⟩ := abs_le.1 (abs_centreAngle_le (reduceAngle_lt a))
  exact toInt_ofInt_of_mem (by omega) (by omega)

theorem centredAngle_toInt_eq_ite (a : Word) :
    (centredAngle a).toInt =
      if 13493037704 < a.toInt % 26986075409 then a.toInt % 26986075409 - 26986075409 else a.toInt % 26986075409 := by
  rw [centredAngle_toInt, centreAngle_eq, reduceAngle_eq_emod]

theorem abs_centredAngle_le (a : Word) : |(centredAngle a).toInt| ≤ 13493037704 := by
  rw [centredAngle_toInt]
  exact abs_centreAngle_le (reduceAngle_lt a)

/-! ### Commands that end as another command does -/

/-- A command whose function is another command's at the operand `c` ends as that command does in the same state with
`c` as its first snapshot. -/
theorem exec_eq_exec_with_operand {i j : Instr} {f g : Word → Word} {s : State} {w a b c : Word}
    (hi : ∀ s, exec i s = finish s (.ok (f (operandA s)))) (hj : ∀ s, exec j s = finish s (.ok (g (operandA s))))
    (hpend : s.pend = some ⟨w, a, b⟩) (hfg : f a = g c) :
    exec i s = exec j { s with pend := some ⟨w, c, b⟩ } := by
  rw [exec_eq_completed_unary hi hpend, exec_eq_completed_unary (s := { s with pend := _ }) hj rfl, hfg]
  rfl

/-! ### The statements -/

/-- Settles O38: each step of SINP is its rule in integer arithmetic. -/
theorem sinpEvaluatesTheParabola : Obligations.SinpEvaluatesTheParabola := by
  unfold Obligations.SinpEvaluatesTheParabola
  refine ⟨decode_encode .sinp, ?_⟩
  intro s w a b hpend
  exact ⟨sinpRaw a, exec_eq_completed_unary exec_sinp hpend, sinpRaw_toInt a⟩

/-- Settles O39: the operand of SINP is the centred angle, the operand of FSIN the saturating sum. -/
theorem fastSineAndCosineReduceToSinp : Obligations.FastSineAndCosineReduceToSinp := by
  unfold Obligations.FastSineAndCosineReduceToSinp
  refine ⟨⟨decode_encode .fsin, decode_encode .fcos⟩, ?_⟩
  intro s w a b hpend
  have hsum : (addRaw a piOver2Raw).toInt = clamp (a.toInt + 6746518852) := by rw [addRaw_toInt, piOver2Raw_toInt]
  refine ⟨⟨centredAngle a, fsinRaw a, centredAngle_toInt_eq_ite a, abs_centredAngle_le a, ?_, ?_⟩,
    ⟨addRaw a piOver2Raw, fcosRaw a, hsum, ?_, ?_⟩⟩
  · exact exec_eq_completed_unary exec_fsin hpend
  · exact exec_eq_exec_with_operand exec_fsin exec_sinp hpend (fsinRaw_eq_sinpRaw a)
  · exact exec_eq_completed_unary exec_fcos hpend
  · exact exec_eq_exec_with_operand exec_fcos exec_fsin hpend rfl

end Sys2Proof.Machine
end

section
/-!
PROOFS. The statements about the atan family and its cache (46_atan.md, R230 to R247; R242 is the port's). ATAN2_VALUE is
`atan2Int` of its pair (`atan2Value_of_ne_zero`), whose ratio is at most One and whose cubic therefore lies between the
lines that give its bounds (`mulInt_cube_mem`). ATAN2 serves that value from its slot or computes it and fills the slot
(`CacheHit`), ATAN, ASIN and ACOS are compositions on top of it, and none of the four results depends on a sound cache
(`SameResult`).
-/

namespace Sys2Proof.Machine

/-! ### The slot index (R241) -/

/-- Where `n` chunks of `k` bits cover the word and the last of them still begins in it, the XOR-fold is the XOR of these
chunks: R241's guard skips all the others. -/
theorem xorFold_eq_foldl {k n : Nat} (hbegin : ∀ j < n, j * k < 64) (hcover : 64 ≤ n * k) (hn : n ≤ 64) (y x : Word) :
    xorFold k y x = (List.range n).foldl (fun h j => h ^^^ ((y ^^^ x).toNat >>> (j * k)) % 2 ^ k) 0 := by
  obtain ⟨m, hm⟩ := Nat.exists_eq_add_of_le hn
  have hrange : List.range 64 = List.range n ++ (List.range m).map (n + ·) := by rw [hm, List.range_add]
  have hskip : ∀ j, ¬(n + j) * k < 64 := fun j => (hcover.trans (Nat.mul_le_mul_right k (Nat.le_add_right n j))).not_gt
  rw [xorFold, hrange, List.foldl_append, List.foldl_map]
  simp only [hskip, if_false, List.foldl_fixed]
  refine List.foldl_ext _ _ _ fun h j hj => ?_
  rw [if_pos (hbegin j (List.mem_range.1 hj))]

/-- The six chunks of 12 bits, the last of which is the word's upper four bits. -/
theorem xorFold_twelve (y x : Word) :
    xorFold 12 y x =
      let u := (y ^^^ x).toNat
      u % 2 ^ 12 ^^^ u / 2 ^ 12 % 2 ^ 12 ^^^ u / 2 ^ 24 % 2 ^ 12 ^^^ u / 2 ^ 36 % 2 ^ 12 ^^^ u / 2 ^ 48 % 2 ^ 12 ^^^
        u / 2 ^ 60 := by
  have hlast : (y ^^^ x).toNat / 2 ^ 60 < 2 ^ 12 := by have := (y ^^^ x).isLt; omega
  rw [xorFold_eq_foldl (n := 6) (by omega) (by omega) (by omega)]
  simp only [List.range_succ, List.range_zero, List.nil_append, List.foldl_append, List.foldl_cons, List.foldl_nil,
    Nat.shiftRight_eq_div_pow, Nat.zero_mul, Nat.pow_zero, Nat.div_one, Nat.zero_xor, Nat.one_mul, Nat.reduceMul,
    Nat.mod_eq_of_lt hlast]

/-- Settles O46: the bound for either kind of hash, and the fold at twelve bits. -/
theorem atanHashStaysInRange : Obligations.AtanHashStaysInRange := by
  unfold Obligations.AtanHashStaysInRange
  refine ⟨fun cfg y x h => atanHash_lt h y x, fun cfg y x hhash hslots => ?_⟩
  have hlog : Nat.log2 4096 = 12 := by decide
  rw [atanHash, hhash, hslots]
  dsimp only
  rw [hlog, xorFold_twelve]

/-! ### CACHE_INV (R242) -/

theorem writeReg_ctrl_of_set {s : State} (hidle : s.busy = false) {v : Word} (hset : v.getLsbD 0 = true) :
    writeReg s .ctrl v = { s with cache := cacheInvalidate s.cache } := by
  simp only [writeReg, hidle, writeCtrl, hset, Bool.false_eq_true, if_false, if_true]

/-- Settles O57: the write reaches CTRL, and an invalidated slot reads with its valid bit cleared only. -/
theorem cacheInvClearsEveryValidBit : Obligations.CacheInvClearsEveryValidBit := by
  unfold Obligations.CacheInvClearsEveryValidBit
  intro s v rest hidle hwf hinbox hset
  have hidle' : { s with inbox := rest }.busy = false := hidle
  exact ⟨cacheInvalidate s.cache, step_write_of_idle (r := .ctrl) rfl hidle (writeReg_ctrl_of_set hidle' hset) hinbox,
    cacheRead_cacheInvalidate hwf⟩

/-! ### ATAN2_VALUE in integer arithmetic (R230 to R235) -/

theorem atanC3Raw_toInt : atanC3Raw.toInt = 843102080 := by decide

theorem atanC1Raw_toInt : atanC1Raw.toInt = 4216361506 := by decide

theorem piOver4Raw_toInt : piOver4Raw.toInt = 3373259426 := by decide

theorem threePiOver4Raw_toInt : threePiOver4Raw.toInt = 10119778278 := by decide

/-- The ratio of R230 for the operand pair (`y`, `x`), as an integer rule. -/
def atanRatioInt (y x : Int) : Int :=
  if 0 ≤ x then divInt (clamp (x - absInt y)) (clamp (x + absInt y))
  else divInt (clamp (x + absInt y)) (clamp (absInt y - x))

/-- The base angle of R230, as an integer rule. -/
def atanBaseInt (x : Int) : Int := if 0 ≤ x then 3373259426 else 10119778278

theorem atan2Int_eq_ite (y x : Int) :
    atan2Int y x =
      if y < 0 then clamp (-atanCubicInt (atanRatioInt y x) (atanBaseInt x))
      else atanCubicInt (atanRatioInt y x) (atanBaseInt x) := by
  simp only [atan2Int, atanRatioInt, atanBaseInt]
  by_cases hx : 0 ≤ x <;> simp only [hx, if_true, if_false]

theorem atanBase_toInt (x : Word) : (atanBase x).toInt = atanBaseInt x.toInt := by
  rw [atanBase, atanBaseInt]
  split_ifs
  · exact piOver4Raw_toInt
  · exact threePiOver4Raw_toInt

theorem atanPoly_toInt (r base : Word) : (atanPoly r base).toInt = atanCubicInt r.toInt base.toInt := by
  simp only [atanPoly, atanCubicInt, addRaw_toInt, subRaw_toInt, mulRaw_toInt, atanC3Raw_toInt, atanC1Raw_toInt]

/-- A quotient whose divisor is not 0 as an integer. -/
theorem divRaw_ok_of_toInt_ne_zero (a : Word) {b : Word} (hb : b.toInt ≠ 0) :
    ∃ v, divRaw a b = .ok v ∧ v.toInt = divInt a.toInt b.toInt :=
  divRaw_ok a b fun h => hb (h ▸ BitVec.toInt_zero)

/-- R230's divisor is 0 for the pair (0, 0) only (R234). -/
theorem atanRatio_of_ne_zero {y x : Word} (h : y ≠ 0 ∨ x ≠ 0) :
    ∃ r, atanRatio y x = .ok r ∧ r.toInt = atanRatioInt y.toInt x.toInt := by
  have hne : y.toInt ≠ 0 ∨ x.toInt ≠ 0 := h.imp toInt_ne_zero toInt_ne_zero
  have hsum : (addRaw x (absRaw y)).toInt = clamp (x.toInt + absInt y.toInt) := by rw [addRaw_toInt, absRaw_toInt]
  have hdiff : (subRaw x (absRaw y)).toInt = clamp (x.toInt - absInt y.toInt) := by rw [subRaw_toInt, absRaw_toInt]
  have hdiff' : (subRaw (absRaw y) x).toInt = clamp (absInt y.toInt - x.toInt) := by rw [subRaw_toInt, absRaw_toInt]
  rw [atanRatio, atanRatioInt]
  split_ifs with hx
  · rw [← hsum, ← hdiff]
    exact divRaw_ok_of_toInt_ne_zero _ (by rw [hsum, clamp, absInt]; omega)
  · rw [← hsum, ← hdiff']
    exact divRaw_ok_of_toInt_ne_zero _ (by rw [hdiff', clamp, absInt]; omega)

theorem atan2Value_of_ratio {y x r : Word} (h : atanRatio y x = .ok r) :
    atan2Value y x = .ok (if y.toInt < 0 then negRaw (atanPoly r (atanBase x)) else atanPoly r (atanBase x)) := by
  rw [atan2Value, h]

/-- ATAN2_VALUE of every pair but (0, 0) (R235). -/
theorem atan2Value_of_ne_zero {y x : Word} (h : y ≠ 0 ∨ x ≠ 0) :
    ∃ v, atan2Value y x = .ok v ∧ v.toInt = atan2Int y.toInt x.toInt := by
  obtain ⟨r, hr, hval⟩ := atanRatio_of_ne_zero h
  refine ⟨_, atan2Value_of_ratio hr, ?_⟩
  rw [atan2Int_eq_ite, ← hval, ← atanBase_toInt, ← atanPoly_toInt]
  split_ifs
  · exact negRaw_toInt _
  · rfl

theorem atan2Value_zero_zero : atan2Value 0 0 = .error .divByZero := by decide +kernel

/-- ATAN2_VALUE has no value at (0, 0) (R234). -/
theorem ne_zero_of_atan2Value_ok {y x v : Word} (h : atan2Value y x = .ok v) : y ≠ 0 ∨ x ≠ 0 := by
  by_contra! hzero
  obtain ⟨rfl, rfl⟩ := hzero
  cases atan2Value_zero_zero.symm.trans h

theorem atan2Value_oneRaw (a : Word) : ∃ v, atan2Value a oneRaw = .ok v := by
  obtain ⟨v, hv, -⟩ := atan2Value_of_ne_zero (y := a) (x := oneRaw) (.inr (by decide))
  exact ⟨v, hv⟩

/-! ### The bound on the ratio (R233) -/

/-- A quotient is at most One where the dividend's magnitude exceeds the divisor's by less than the `2^33`rd part of it,
half a raw unit of the quotient. -/
theorem abs_divInt_le_one {n d : Int} (h : n.natAbs * 2 ^ 33 < (2 ^ 33 + 1) * d.natAbs) : |divInt n d| ≤ 2 ^ 32 := by
  have hquot : n.natAbs * 2 ^ 33 / d.natAbs < 2 ^ 33 + 1 := Nat.div_lt_of_lt_mul (by rwa [mul_comm d.natAbs])
  have hmag : |roundedQuotient n d| ≤ 2 ^ 32 := by
    rw [roundedQuotient, abs_mul, abs_quotientSign, one_mul, Nat.abs_cast]
    omega
  obtain ⟨hlow, hhigh⟩ := abs_le.1 hmag
  rwa [divInt_eq_clamp_roundedQuotient, clamp_of_mem (by omega) (by omega)]

/-- R230's dividend does not exceed its divisor in magnitude, but for the pair (0, MIN_RAW), where saturation makes it
one raw unit larger. -/
theorem abs_atanRatioInt_le {y x : Int} (hne : y ≠ 0 ∨ x ≠ 0) (hmin : -2 ^ 63 ≤ x) : |atanRatioInt y x| ≤ 2 ^ 32 := by
  rw [atanRatioInt]
  split_ifs with hx
  · exact abs_divInt_le_one (by simp only [clamp, absInt]; omega)
  · exact abs_divInt_le_one (by simp only [clamp, absInt]; omega)

/-! ### The bound on the angle (R236) -/

/-- Rounding a product does not pass an integer from above. -/
theorem le_mulInt {k x y : Int} (h : k * 2 ^ 32 ≤ x * y) (hk : k ≤ 2 ^ 63 - 1) : k ≤ mulInt x y := by
  simp only [mulInt, clamp]; omega

/-- Rounding a product does not pass an integer from below. -/
theorem mulInt_le {k x y : Int} (h : x * y ≤ k * 2 ^ 32) (hk : -2 ^ 63 ≤ k) : mulInt x y ≤ k := by
  simp only [mulInt, clamp]; omega

section
variable {r : Int} (hr : |r| ≤ 2 ^ 32)
include hr

/-- The rounded square of a ratio lies between its tangents at One and minus One, and One. -/
theorem mulInt_self_mem : 2 * r - 2 ^ 32 ≤ mulInt r r ∧ -2 * r - 2 ^ 32 ≤ mulInt r r ∧ mulInt r r ≤ 2 ^ 32 := by
  obtain ⟨hlow, hhigh⟩ := abs_le.1 hr
  exact ⟨le_mulInt (by nlinarith [sq_nonneg (r - 2 ^ 32)]) (by omega),
    le_mulInt (by nlinarith [sq_nonneg (r + 2 ^ 32)]) (by omega), mulInt_le (by nlinarith) (by omega)⟩

/-- The rounded cube of a ratio lies between its tangents at One and minus One. -/
theorem mulInt_cube_mem :
    3 * r - 2 ^ 33 ≤ mulInt (mulInt r r) r ∧ mulInt (mulInt r r) r ≤ 3 * r + 2 ^ 33 := by
  obtain ⟨hlow, hhigh⟩ := abs_le.1 hr
  obtain ⟨hone, hminusOne, hle⟩ := mulInt_self_mem hr
  refine ⟨le_mulInt ?_ (by omega), mulInt_le ?_ (by omega)⟩
  · rcases le_total 0 r with h | h
    · nlinarith [sq_nonneg (r - 2 ^ 32)]
    · nlinarith
  · rcases le_total 0 r with h | h
    · nlinarith
    · nlinarith [sq_nonneg (r + 2 ^ 32)]

/-- R231's cubic moves the base angle by at most pi/4: on the tangents of the cube it is linear in the ratio, and falls
with it. -/
theorem atanCubicInt_mem {base : Int} (h₁ : 0 ≤ base) (h₂ : base ≤ 10119778278) :
    base - 3373259426 ≤ atanCubicInt r base ∧ atanCubicInt r base ≤ base + 3373259426 := by
  obtain ⟨hlow, hhigh⟩ := abs_le.1 hr
  obtain ⟨hcubeLow, hcubeHigh⟩ := mulInt_cube_mem hr
  rw [atanCubicInt]
  generalize mulInt (mulInt r r) r = t at hcubeLow hcubeHigh ⊢
  simp only [mulInt, clamp]
  omega

end

theorem atan2Int_mem {y x : Int} (hne : y ≠ 0 ∨ x ≠ 0) (hmin : -2 ^ 63 ≤ x) :
    (0 ≤ y → 0 ≤ atan2Int y x ∧ atan2Int y x ≤ 13493037704) ∧
    (y < 0 → -13493037704 ≤ atan2Int y x ∧ atan2Int y x ≤ 0) := by
  have hbase : 3373259426 ≤ atanBaseInt x ∧ atanBaseInt x ≤ 10119778278 := by rw [atanBaseInt]; split_ifs <;> omega
  have hang := atanCubicInt_mem (abs_atanRatioInt_le hne hmin) (base := atanBaseInt x) (by omega) (by omega)
  rw [atan2Int_eq_ite]
  constructor
  · intro hy
    rw [if_neg hy.not_gt]
    omega
  · intro hy
    rw [if_pos hy, clamp]
    omega

/-- Settles O42: the ratio and the angle of `atan2Value_of_ne_zero` are within the integer rule's bounds. -/
theorem atan2IsBoundedByPi : Obligations.Atan2IsBoundedByPi := by
  unfold Obligations.Atan2IsBoundedByPi
  intro y x v hv
  have hne := ne_zero_of_atan2Value_ok hv
  have hneInt : y.toInt ≠ 0 ∨ x.toInt ≠ 0 := hne.imp toInt_ne_zero toInt_ne_zero
  have hmin : -2 ^ 63 ≤ x.toInt := (toInt_range x).1
  refine ⟨?ratio, ?angle⟩
  case ratio =>
    obtain ⟨r, hr, hval⟩ := atanRatio_of_ne_zero hne
    exact ⟨r, hr, hval ▸ abs_atanRatioInt_le hneInt hmin⟩
  case angle =>
    obtain ⟨v', hv', hval⟩ := atan2Value_of_ne_zero hne
    obtain rfl : v' = v := Except.ok.inj (hv'.symm.trans hv)
    rw [hval]
    exact atan2Int_mem hneInt hmin

/-! ### ATAN2 and its slot (R240) -/

/-- The slot of the pair (`y`, `x`) holds that pair (R240). -/
def CacheHit (cfg : Config) (c : Cache) (y x : Word) : Prop :=
  cfg.atanCacheSlots ≠ 0 ∧ (cacheRead c (atanHash cfg y x)).valid = true ∧ (cacheRead c (atanHash cfg y x)).keyY = y ∧
    (cacheRead c (atanHash cfg y x)).keyX = x

section
variable {cfg : Config} {c : Cache} {y x : Word}

theorem atan2Cached_of_hit (h : CacheHit cfg c y x) :
    atan2Cached cfg c y x = .ok ((cacheRead c (atanHash cfg y x)).value, c) := by
  obtain ⟨hslots, hit⟩ := h
  rw [atan2Cached, if_neg hslots]
  exact if_pos hit

/-- On a miss ATAN2 raises what ATAN2_VALUE raises (R240). -/
theorem atan2Cached_of_miss_of_error (h : ¬CacheHit cfg c y x) {e : CommandError} (he : atan2Value y x = .error e) :
    atan2Cached cfg c y x = .error e := by
  rw [atan2Cached, he]
  split_ifs with hslots
  · rfl
  · exact if_neg fun hit => h ⟨hslots, hit⟩

/-- On a miss ATAN2 gives ATAN2_VALUE and fills the pair's slot, if there are slots (R240). -/
theorem atan2Cached_of_miss_of_ok (h : ¬CacheHit cfg c y x) {v : Word} (hv : atan2Value y x = .ok v) :
    atan2Cached cfg c y x =
      .ok (v, if cfg.atanCacheSlots = 0 then c else cacheWrite c (atanHash cfg y x) ⟨true, y, x, v⟩) := by
  rw [atan2Cached, hv]
  split_ifs with hslots
  · rfl
  · exact if_neg fun hit => h ⟨hslots, hit⟩

/-- A sound cache holds no pair for which ATAN2_VALUE raises (R42). -/
theorem not_cacheHit_of_error (hsound : CacheSound c) {e : CommandError} (he : atan2Value y x = .error e) :
    ¬CacheHit cfg c y x := by
  rintro ⟨-, hvalid, hy, hx⟩
  have hval := hsound _ hvalid
  rw [hy, hx, he] at hval
  cases hval

end

section
variable {s : State} {w a b : Word} {i : Instr}

theorem exec_atan2_eq_finishCached (hpend : s.pend = some ⟨w, a, b⟩) :
    exec .atan2 s = finishCached s (atan2Cached s.cfg s.cache a b) := by
  rw [exec_atan2, operandA_of_pend hpend, operandB_of_pend hpend]

/-- A command whose outcome is a function of the configuration, the cache and its first operand ends with that function
of the first snapshot. -/
theorem exec_eq_finishCached_unary {f : Config → Cache → Word → Except CommandError (Word × Cache)}
    (hexec : ∀ s, exec i s = finishCached s (f s.cfg s.cache (operandA s))) (hpend : s.pend = some ⟨w, a, b⟩) :
    exec i s = finishCached s (f s.cfg s.cache a) := by
  rw [hexec, operandA_of_pend hpend]

end

/-- Settles O40: the three clauses are `atan2Cached_of_hit`, `atan2Cached_of_miss_of_error` at (0, 0), and
`atan2Cached_of_miss_of_ok` elsewhere. -/
theorem atan2HitsOrComputesAndFillsItsSlot : Obligations.Atan2HitsOrComputesAndFillsItsSlot := by
  unfold Obligations.Atan2HitsOrComputesAndFillsItsSlot
  refine ⟨decode_encode .atan2, ?_⟩
  intro s w y x hpend i hit
  rw [exec_atan2_eq_finishCached hpend]
  refine ⟨fun h => ?hit, fun h hzero => ?origin, fun hsound hzero => ?sound, fun h hne => ?miss⟩
  case hit => rw [atan2Cached_of_hit h, finishCached_ok]; rfl
  case origin =>
    obtain ⟨rfl, rfl⟩ := hzero
    rw [atan2Cached_of_miss_of_error h atan2Value_zero_zero, finishCached_error, code_divByZero]
  case sound =>
    obtain ⟨rfl, rfl⟩ := hzero
    exact not_cacheHit_of_error hsound atan2Value_zero_zero
  case miss =>
    obtain ⟨v, hv, hval⟩ := atan2Value_of_ne_zero hne
    rw [atan2Cached_of_miss_of_ok h hv, finishCached_ok]
    refine ⟨v, _, rfl, hval, fun hslots => if_pos hslots, fun hslots hwf => ?_⟩
    rw [if_neg hslots]
    refine ⟨?_, fun j hj => ?_⟩
    · rw [cacheRead_cacheWrite hwf, if_pos rfl]
    · rw [cacheRead_cacheWrite hwf, if_neg hj]

/-- With a sound cache ATAN2 ends with ATAN2_VALUE of its snapshots, whatever the cache holds (R42). -/
theorem exec_atan2_of_sound {s : State} {w y x v : Word} (hpend : s.pend = some ⟨w, y, x⟩) (hsound : CacheSound s.cache)
    (hv : atan2Value y x = .ok v) : ∃ c, exec .atan2 s = .next { completed s v with cache := c } := by
  rw [exec_atan2_eq_finishCached hpend]
  rcases atan2Cached_of_sound s.cfg hsound y x with ⟨v', c, hv', hr⟩ | ⟨e, he, -⟩
  · obtain rfl : v' = v := Except.ok.inj (hv'.symm.trans hv)
    exact ⟨c, by rw [hr, finishCached_ok]⟩
  · cases he.symm.trans hv

/-- Settles O41: ATAN2_VALUE evaluated at the six pairs. -/
theorem atan2ExactValues : Obligations.Atan2ExactValues := by
  unfold Obligations.Atan2ExactValues
  intro s w hsound row hrow hpend
  simp only [List.mem_cons, List.not_mem_nil, or_false] at hrow
  rcases hrow with rfl | rfl | rfl | rfl | rfl | rfl
  all_goals exact exec_atan2_of_sound hpend hsound (by decide +kernel)

/-! ### ATAN (R244) -/

/-- ATAN never raises: its second operand is not 0. -/
theorem atanCached_ok (cfg : Config) (c : Cache) (a : Word) : ∃ v c', atanCached cfg c a = .ok (v, c') := by
  obtain ⟨v, hv⟩ := atan2Value_oneRaw a
  rw [atanCached]
  by_cases hit : CacheHit cfg c a oneRaw
  · exact ⟨_, _, atan2Cached_of_hit hit⟩
  · exact ⟨v, _, atan2Cached_of_miss_of_ok hit hv⟩

/-- Settles O43: both commands end with the same outcome of the cached ATAN2, which is a result. -/
theorem atanIsAtan2OverOne : Obligations.AtanIsAtan2OverOne := by
  unfold Obligations.AtanIsAtan2OverOne
  refine ⟨decode_encode .atan, ?_⟩
  intro s w a b hpend
  have hexec := exec_eq_finishCached_unary exec_atan hpend
  constructor
  · rw [hexec, exec_atan2_eq_finishCached (s := { s with pend := _ }) rfl]
    exact (finishCached_with_pend s _ _).symm
  · obtain ⟨v, c, hv⟩ := atanCached_ok s.cfg s.cache a
    exact ⟨v, c, by rw [hexec, hv, finishCached_ok]⟩

/-! ### ASIN (R245) -/

theorem outsideUnit_iff (a : Word) : outsideUnit a = true ↔ 2 ^ 32 < a.toInt ∨ a.toInt < -2 ^ 32 := by
  simp only [outsideUnit, oneRaw_toInt, Bool.or_eq_true, decide_eq_true_eq, gt_iff_lt]

theorem negOneRaw_toInt : (-oneRaw).toInt = -2 ^ 32 := by decide

section
variable (cfg : Config) (c : Cache) {a : Word}

theorem asinCached_of_outside_of_zero (h : 2 ^ 32 < a.toInt ∨ a.toInt < -2 ^ 32) (hpolicy : cfg.asinPolicy = .zero) :
    asinCached cfg c a = .ok (zeroRaw, c) := by
  rw [asinCached, if_pos ((outsideUnit_iff a).2 h), hpolicy]

theorem asinCached_of_outside_of_raise (h : 2 ^ 32 < a.toInt ∨ a.toInt < -2 ^ 32) (hpolicy : cfg.asinPolicy = .raise) :
    asinCached cfg c a = .error .outOfDomain := by
  rw [asinCached, if_pos ((outsideUnit_iff a).2 h), hpolicy]

theorem asinCached_oneRaw : asinCached cfg c oneRaw = .ok (piOver2Raw, c) := rfl

theorem asinCached_negOneRaw : asinCached cfg c (-oneRaw) = .ok (-piOver2Raw, c) := rfl

theorem asinCached_of_inside (h₁ : -2 ^ 32 < a.toInt) (h₂ : a.toInt < 2 ^ 32) :
    asinCached cfg c a = asinInner cfg c a := by
  have hin : ¬outsideUnit a = true := by rw [outsideUnit_iff]; omega
  have hone : a ≠ oneRaw := by rintro rfl; exact absurd oneRaw_toInt h₂.ne
  have hnegOne : a ≠ -oneRaw := by rintro rfl; exact absurd negOneRaw_toInt h₁.ne'
  rw [asinCached, if_neg hin, if_neg hone, if_neg hnegOne]

/-- Strictly inside the unit the rounded square stays below One, so the root that ASIN divides by is positive. -/
theorem asinRadicand_pos (h₁ : -2 ^ 32 < a.toInt) (h₂ : a.toInt < 2 ^ 32) :
    0 < clamp (2 ^ 32 - mulInt a.toInt a.toInt) := by
  have hsquare : mulInt a.toInt a.toInt ≤ 2 ^ 32 - 1 := by
    have hsq : a.toInt * a.toInt ≤ (2 ^ 32 - 1) * (2 ^ 32 - 1) := by nlinarith
    simp only [mulInt, clamp]; omega
  rw [clamp]
  omega

/-- Inside, ASIN is ATAN of the quotient of its operand by the rounded root of `1 - a * a`, and none of the three steps
raises (R245). -/
theorem asinInner_eq_atanCached (h₁ : -2 ^ 32 < a.toInt) (h₂ : a.toInt < 2 ^ 32) :
    ∃ r q : Word, IsRoundedRoot (clamp (2 ^ 32 - mulInt a.toInt a.toInt) * 2 ^ 32) r.toInt ∧ 0 < r.toInt ∧
      q.toInt = divInt a.toInt r.toInt ∧ asinInner cfg c a = atanCached cfg c q := by
  have hpos := asinRadicand_pos h₁ h₂
  have hrad : (subRaw oneRaw (mulRaw a a)).toInt = clamp (2 ^ 32 - mulInt a.toInt a.toInt) := by
    rw [subRaw_toInt, mulRaw_toInt, oneRaw_toInt]
  rw [← hrad] at hpos ⊢
  obtain ⟨r, hr, hroot, -⟩ := sqrtRaw_ok hpos.le
  have hrpos : 0 < r.toInt := by
    by_contra hle
    have := (hroot.le_iff le_rfl).1 (not_lt.1 hle)
    omega
  obtain ⟨q, hq, hval⟩ := divRaw_ok_of_toInt_ne_zero a hrpos.ne'
  exact ⟨r, q, hroot, hrpos, hval, by simp only [asinInner, hr, hq]⟩

/-- ASIN gives a result on the whole of [-One, One], under either policy (R245). -/
theorem asinCached_ok (h₁ : -2 ^ 32 ≤ a.toInt) (h₂ : a.toInt ≤ 2 ^ 32) : ∃ v c', asinCached cfg c a = .ok (v, c') := by
  rcases h₁.eq_or_lt with hlow | hlow
  · obtain rfl : a = -oneRaw := word_ext (hlow.symm.trans negOneRaw_toInt.symm)
    exact ⟨_, _, asinCached_negOneRaw cfg c⟩
  rcases h₂.eq_or_lt with hhigh | hhigh
  · obtain rfl : a = oneRaw := word_ext (hhigh.trans oneRaw_toInt.symm)
    exact ⟨_, _, asinCached_oneRaw cfg c⟩
  · obtain ⟨r, q, -, -, -, hinner⟩ := asinInner_eq_atanCached cfg c hlow hhigh
    rw [asinCached_of_inside cfg c hlow hhigh, hinner]
    exact atanCached_ok cfg c q

end

/-- Settles O44: the policy outside, the two ends, and inside the ATAN of the quotient by the root. -/
theorem asinFollowsItsPolicyAndFormula : Obligations.AsinFollowsItsPolicyAndFormula := by
  unfold Obligations.AsinFollowsItsPolicyAndFormula
  refine ⟨decode_encode .asin, ?_⟩
  intro s w a b hpend
  have hexec := exec_eq_finishCached_unary exec_asin hpend
  refine ⟨fun hout => ⟨fun hpolicy => ?zero, fun hpolicy => ?raise⟩, fun ha => ?one, fun ha => ?negOne, ?inside⟩
  case zero => rw [hexec, asinCached_of_outside_of_zero _ _ hout hpolicy, finishCached_ok]; rfl
  case raise => rw [hexec, asinCached_of_outside_of_raise _ _ hout hpolicy, finishCached_error, code_outOfDomain]
  case one =>
    obtain rfl : a = oneRaw := word_ext (ha.trans oneRaw_toInt.symm)
    exact ⟨piOver2Raw, by rw [hexec, asinCached_oneRaw, finishCached_ok]; rfl, piOver2Raw_toInt⟩
  case negOne =>
    obtain rfl : a = -oneRaw := word_ext (ha.trans negOneRaw_toInt.symm)
    exact ⟨-piOver2Raw, by rw [hexec, asinCached_negOneRaw, finishCached_ok]; rfl, by decide⟩
  case inside =>
    rintro ⟨hlow, hhigh⟩
    obtain ⟨r, q, hroot, hpos, hval, hinner⟩ := asinInner_eq_atanCached s.cfg s.cache hlow hhigh
    obtain ⟨v, c, hv⟩ := atanCached_ok s.cfg s.cache q
    have hasin : exec .asin s = finishCached s (atanCached s.cfg s.cache q) := by
      rw [hexec, asinCached_of_inside _ _ hlow hhigh, hinner]
    refine ⟨r.toInt, q, v, c, hroot, hpos, hval, ?_, ?_⟩
    · rw [hasin, exec_eq_finishCached_unary (s := { s with pend := _ }) exec_atan rfl]
      exact (finishCached_with_pend s _ _).symm
    · rw [hasin, hv, finishCached_ok]

/-! ### ACOS (R246) -/

theorem acosCached_of_outside (cfg : Config) (c : Cache) {a : Word} (h : 2 ^ 32 < a.toInt ∨ a.toInt < -2 ^ 32) :
    acosCached cfg c a = .error .outOfDomain := by
  rw [acosCached, if_pos ((outsideUnit_iff a).2 h)]

/-- Where ASIN has a result on [-One, One], ACOS has its complement, with ASIN's cache. -/
theorem acosCached_of_ok {cfg : Config} {c c' : Cache} {a v : Word} (h₁ : -2 ^ 32 ≤ a.toInt) (h₂ : a.toInt ≤ 2 ^ 32)
    (hv : asinCached cfg c a = .ok (v, c')) : acosCached cfg c a = .ok (subRaw piOver2Raw v, c') := by
  have hin : ¬outsideUnit a = true := by rw [outsideUnit_iff]; omega
  rw [acosCached, if_neg hin, hv]

/-- Settles O45: the range test comes first, and inside ASIN has a result to take the complement of. -/
theorem acosIsTheComplementOfAsin : Obligations.AcosIsTheComplementOfAsin := by
  unfold Obligations.AcosIsTheComplementOfAsin
  refine ⟨decode_encode .acos, ?_⟩
  intro s w a b hpend
  have hasin := exec_eq_finishCached_unary exec_asin hpend
  have hacos := exec_eq_finishCached_unary exec_acos hpend
  refine ⟨fun hout => ?outside, ?inside⟩
  case outside => rw [hacos, acosCached_of_outside _ _ hout, finishCached_error, code_outOfDomain]
  case inside =>
    rintro ⟨hlow, hhigh⟩
    obtain ⟨v, c, hv⟩ := asinCached_ok s.cfg s.cache hlow hhigh
    refine ⟨v, subRaw piOver2Raw v, c, ?_, ?_, ?_⟩
    · rw [hasin, hv, finishCached_ok]
    · rw [hacos, acosCached_of_ok hlow hhigh hv, finishCached_ok]
    · rw [subRaw_toInt, piOver2Raw_toInt]

/-! ### What a host observes does not depend on the cache (R243, R305) -/

/-- Two outcomes with the same value or the same error, whatever caches they leave. -/
inductive SameResult : Except CommandError (Word × Cache) → Except CommandError (Word × Cache) → Prop
  | ok (v : Word) (c c' : Cache) : SameResult (.ok (v, c)) (.ok (v, c'))
  | error (e : CommandError) : SameResult (.error e) (.error e)

section
variable {cfg cfg' : Config} {c c' : Cache} (hc : CacheSound c) (hc' : CacheSound c')
include hc hc'

/-- Both caches serve ATAN2_VALUE (R42). -/
theorem atan2Cached_sameResult (y x : Word) : SameResult (atan2Cached cfg c y x) (atan2Cached cfg' c' y x) := by
  obtain ⟨hok, herror⟩ := cacheServesOnlyRecomputableValues.2.2 cfg c y x hc
  obtain ⟨hok', herror'⟩ := cacheServesOnlyRecomputableValues.2.2 cfg' c' y x hc'
  cases hval : atan2Value y x with
  | error e =>
    rw [(herror e).2 hval, (herror' e).2 hval]
    exact .error e
  | ok v =>
    obtain ⟨d, hd⟩ := (hok v).2 hval
    obtain ⟨d', hd'⟩ := (hok' v).2 hval
    rw [hd, hd']
    exact .ok v d d'

theorem asinInner_sameResult (a : Word) : SameResult (asinInner cfg c a) (asinInner cfg' c' a) := by
  unfold asinInner
  cases sqrtRaw (subRaw oneRaw (mulRaw a a)) with
  | error e => exact .error e
  | ok r =>
    dsimp only
    cases divRaw a r with
    | error e => exact .error e
    | ok q => exact atan2Cached_sameResult hc hc' q oneRaw

theorem asinCached_sameResult (hpolicy : cfg.asinPolicy = cfg'.asinPolicy) (a : Word) :
    SameResult (asinCached cfg c a) (asinCached cfg' c' a) := by
  unfold asinCached
  rw [hpolicy]
  split_ifs
  · cases cfg'.asinPolicy
    · exact .ok _ c c'
    · exact .error _
  · exact .ok _ c c'
  · exact .ok _ c c'
  · exact asinInner_sameResult hc hc' a

theorem acosCached_sameResult (hpolicy : cfg.asinPolicy = cfg'.asinPolicy) (a : Word) :
    SameResult (acosCached cfg c a) (acosCached cfg' c' a) := by
  have hasin := asinCached_sameResult hc hc' hpolicy a
  unfold acosCached
  split_ifs
  · exact .error _
  · generalize asinCached cfg c a = r, asinCached cfg' c' a = r' at hasin
    cases hasin with
    | ok v d d' => exact .ok _ d d'
    | error e => exact .error e

end

/-- A command that does not go through ATAN2 ends alike with no cache: its outcome is a function of its operands, the
table and the other parameters. -/
theorem exec_withoutCache_of_not_cached {i : Instr} (hi : i ∉ [Instr.atan2, .atan, .asin, .acos]) (s : State) :
    ∃ r, exec i s = finish s r ∧ exec i (withoutCache s) = finish (withoutCache s) r := by
  cases i
  case atan2 | atan | asin | acos => exact absurd (by decide) hi
  case div | mod | sqrt | tan | log2 | ln | pow2 | pow => exact ⟨_, rfl, rfl⟩
  all_goals exact ⟨.ok _, rfl, rfl⟩

/-- Every command ends with the same value or error with no cache as with a sound one (R243). -/
theorem exec_withoutCache_sameResult (i : Instr) {s : State} (hs : CacheSound s.cache) :
    ∃ r r', exec i s = finishCached s r ∧ exec i (withoutCache s) = finishCached (withoutCache s) r' ∧
      SameResult r r' := by
  by_cases hi : i ∈ [Instr.atan2, .atan, .asin, .acos]
  · have hnil : CacheSound (withoutCache s).cache := cacheSound_nil
    have hpolicy : s.cfg.asinPolicy = (withoutCache s).cfg.asinPolicy := rfl
    simp only [List.mem_cons, List.not_mem_nil, or_false] at hi
    rcases hi with rfl | rfl | rfl | rfl
    · exact ⟨_, _, exec_atan2 s, exec_atan2 _, atan2Cached_sameResult hs hnil _ _⟩
    · exact ⟨_, _, exec_atan s, exec_atan _, atan2Cached_sameResult hs hnil _ _⟩
    · exact ⟨_, _, exec_asin s, exec_asin _, asinCached_sameResult hs hnil hpolicy _⟩
    · exact ⟨_, _, exec_acos s, exec_acos _, acosCached_sameResult hs hnil hpolicy _⟩
  · obtain ⟨r, hr, hr'⟩ := exec_withoutCache_of_not_cached hi s
    refine ⟨_, _, hr.trans (finish_eq_finishCached _ _), hr'.trans (finish_eq_finishCached _ _), ?_⟩
    cases r with
    | error e => exact .error e
    | ok v => exact .ok v _ _

/-- The end of a command shows a host its value or error and nothing of the cache it leaves (R305). -/
theorem finishCached_observed_eq (s : State) {r r' : Except CommandError (Word × Cache)} (h : SameResult r r') :
    ∃ t u, finishCached s r = .next t ∧ finishCached (withoutCache s) r' = .next u ∧ observed t = observed u := by
  cases h with
  | ok v c c' => exact ⟨_, _, rfl, rfl, rfl⟩
  | error e => exact ⟨_, _, rfl, rfl, rfl⟩

/-- Settles O11: the empty cache is sound, so the command ends alike with it, and the host sees no more than that. -/
theorem cacheIsTransparent : Obligations.CacheIsTransparent := by
  unfold Obligations.CacheIsTransparent
  intro i s hs
  obtain ⟨r, r', hr, hr', hsame⟩ := exec_withoutCache_sameResult i hs
  rw [hr, hr']
  exact finishCached_observed_eq s hsame

end Sys2Proof.Machine
end

section
/-!
PROOFS. The statements about the log/pow engine (47_log_pow.md, R250 to R254). LOG2's loop is a sequence of mantissas
(`log2Mantissas`), each the square of the one before, halved where it reaches 2; the bits set so far with the bits still
to come are the same sum at every pass (`log2Partial_add_log2Loop`). POW2's loop is a sequence of roots (`pow2Roots`)
that stays between One and 2, so that no SQRT raises (`pow2Loop_pow2Roots`). LN and POW are compositions of the two with
MUL.
-/

namespace Sys2Proof.Machine

/-! ### LOG2's mantissa (R250) -/

/-- A positive raw value lies between the power of two of its highest bit and the next one. -/
theorem msb_spec {a : Word} (ha : 0 < a.toInt) :
    2 ^ msb a.toNat ≤ a.toInt ∧ a.toInt < 2 ^ (msb a.toNat + 1) ∧ msb a.toNat ≤ 62 := by
  obtain ⟨hval, hlt⟩ := toNat_of_nonneg ha.le
  have hne : a.toNat ≠ 0 := by omega
  have hlow : 2 ^ msb a.toNat ≤ a.toNat := Nat.log2_self_le hne
  have hhigh : a.toNat < 2 ^ (msb a.toNat + 1) := Nat.lt_log2_self
  have hmsb : msb a.toNat < 63 := (Nat.pow_lt_pow_iff_right (by norm_num)).1 (hlow.trans_lt hlt)
  rw [← hval]
  exact ⟨by exact_mod_cast hlow, by exact_mod_cast hhigh, by omega⟩

/-- A logical right shift of a nonnegative register is the floor division of its value. -/
theorem ushiftRight_toInt {a : Word} (ha : 0 ≤ a.toInt) (k : Nat) : (a >>> k).toInt = a.toInt / 2 ^ k := by
  obtain ⟨hval, hlt⟩ := toNat_of_nonneg ha
  have hnat : (a >>> k).toNat = a.toNat / 2 ^ k := by rw [BitVec.toNat_ushiftRight, Nat.shiftRight_eq_div_pow]
  have hle : a.toNat / 2 ^ k ≤ a.toNat := Nat.div_le_self _ _
  rw [BitVec.toInt_eq_toNat_of_lt (by omega), hnat, ← hval]
  norm_cast

/-- A left shift that stays in range multiplies the value. -/
theorem shiftLeft_toInt {a : Word} {k : Nat} (ha : 0 ≤ a.toInt) (hfits : a.toInt * 2 ^ k < 2 ^ 63) :
    (a <<< k).toInt = a.toInt * 2 ^ k := by
  obtain ⟨hval, -⟩ := toNat_of_nonneg ha
  have hprod : a.toNat * 2 ^ k < 2 ^ 63 := by rw [← hval] at hfits; exact_mod_cast hfits
  have hnat : (a <<< k).toNat = a.toNat * 2 ^ k := by
    rw [BitVec.toNat_shiftLeft, Nat.shiftLeft_eq, Nat.mod_eq_of_lt (by omega)]
  rw [BitVec.toInt_eq_toNat_of_lt (by omega), hnat, ← hval]
  norm_cast

/-- The mantissa is the operand moved so that its highest bit is that of One; a shift to the left loses no bit. -/
theorem log2Mantissa_toInt {a : Word} (ha : 0 < a.toInt) :
    (log2Mantissa a).toInt =
      if 32 ≤ msb a.toNat then a.toInt / 2 ^ (msb a.toNat - 32) else a.toInt * 2 ^ (32 - msb a.toNat) := by
  obtain ⟨-, hhigh, -⟩ := msb_spec ha
  simp only [log2Mantissa]
  split_ifs with hp
  · exact ushiftRight_toInt ha.le _
  · refine shiftLeft_toInt ha.le ?_
    calc a.toInt * 2 ^ (32 - msb a.toNat)
        < 2 ^ (msb a.toNat + 1) * 2 ^ (32 - msb a.toNat) := by gcongr
      _ = 2 ^ 33 := by rw [← pow_add]; congr 1; omega
      _ < 2 ^ 63 := by norm_num

/-! ### LOG2's squarings (R250) -/

/-- The mantissa after a pass: the square, halved where it reaches 2. -/
def log2Next (z : Word) : Word := if 2 ^ 33 ≤ (mulRaw z z).toInt then (mulRaw z z).sshiftRight 1 else mulRaw z z

/-- The bit that a pass finds. -/
def log2Bit (z : Word) : Int := if 2 ^ 33 ≤ (mulRaw z z).toInt then 1 else 0

/-- A pass of the loop: its bit at its weight, and the passes that follow on the next mantissa. -/
theorem log2Loop_succ (n : Nat) (z : Word) : log2Loop (n + 1) z = log2Bit z * 2 ^ n + log2Loop n (log2Next z) := by
  simp only [log2Loop, log2Bit, log2Next, oneRaw_toInt, ge_iff_le, show (2 : Int) * 2 ^ 32 = 2 ^ 33 by norm_num]
  split_ifs <;> ring

theorem log2Pass_of_ge {z : Word} (h : 2 ^ 33 ≤ mulInt z.toInt z.toInt) :
    (log2Next z).toInt = mulInt z.toInt z.toInt / 2 ∧ log2Bit z = 1 := by
  rw [← mulRaw_toInt] at h ⊢
  rw [log2Next, log2Bit, if_pos h, if_pos h, sshiftRight_toInt, pow_one]
  exact ⟨rfl, rfl⟩

theorem log2Pass_of_lt {z : Word} (h : mulInt z.toInt z.toInt < 2 ^ 33) :
    (log2Next z).toInt = mulInt z.toInt z.toInt ∧ log2Bit z = 0 := by
  rw [← mulRaw_toInt] at h ⊢
  rw [log2Next, log2Bit, if_neg h.not_ge, if_neg h.not_ge]
  exact ⟨rfl, rfl⟩

/-- The bits that `n` passes find make a number of `n` bits. -/
theorem log2Loop_mem (n : Nat) (z : Word) : 0 ≤ log2Loop n z ∧ log2Loop n z < 2 ^ n := by
  induction n generalizing z with
  | zero => exact ⟨le_rfl, by norm_num [log2Loop]⟩
  | succ n ih =>
    obtain ⟨hlow, hhigh⟩ := ih (log2Next z)
    have htwice : (2 : Int) ^ (n + 1) = 2 ^ n + 2 ^ n := by ring
    rw [log2Loop_succ, log2Bit, htwice]
    split_ifs <;> constructor <;> linarith

/-- The mantissa after `j` passes. -/
def log2Mantissas (a : Word) (j : Nat) : Word := log2Next^[j] (log2Mantissa a)

theorem log2Mantissas_succ (a : Word) (j : Nat) : log2Mantissas a (j + 1) = log2Next (log2Mantissas a j) :=
  Function.iterate_succ_apply' _ _ _

/-- R250's accumulator `y` after `j` passes. -/
def log2Partial (a : Word) : Nat → Int
  | 0     => ((msb a.toNat : Int) - 32) * 2 ^ 32
  | j + 1 => log2Partial a j + log2Bit (log2Mantissas a j) * 2 ^ (31 - j)

/-- A pass whose square reaches 2 (R250). -/
theorem log2Pass_succ_of_ge {a : Word} {j : Nat}
    (h : 2 ^ 33 ≤ mulInt (log2Mantissas a j).toInt (log2Mantissas a j).toInt) :
    (log2Mantissas a (j + 1)).toInt = mulInt (log2Mantissas a j).toInt (log2Mantissas a j).toInt / 2 ∧
      log2Partial a (j + 1) = log2Partial a j + 2 ^ (31 - j) := by
  obtain ⟨hnext, hbit⟩ := log2Pass_of_ge h
  rw [log2Mantissas_succ, hnext, log2Partial, hbit, one_mul]
  exact ⟨rfl, rfl⟩

/-- A pass whose square stays below 2 (R250). -/
theorem log2Pass_succ_of_lt {a : Word} {j : Nat}
    (h : mulInt (log2Mantissas a j).toInt (log2Mantissas a j).toInt < 2 ^ 33) :
    (log2Mantissas a (j + 1)).toInt = mulInt (log2Mantissas a j).toInt (log2Mantissas a j).toInt ∧
      log2Partial a (j + 1) = log2Partial a j := by
  obtain ⟨hnext, hbit⟩ := log2Pass_of_lt h
  rw [log2Mantissas_succ, hnext, log2Partial, hbit, zero_mul, add_zero]
  exact ⟨rfl, rfl⟩

/-- What is accumulated and what the remaining passes add make the same sum after every pass. -/
theorem log2Partial_add_log2Loop (a : Word) {j : Nat} (hj : j ≤ 32) :
    log2Partial a j + log2Loop (32 - j) (log2Mantissas a j) =
      ((msb a.toNat : Int) - 32) * 2 ^ 32 + log2Loop 32 (log2Mantissa a) := by
  induction j with
  | zero => rfl
  | succ j ih =>
    rw [← ih (by omega), show 32 - j = 31 - j + 1 by omega, log2Loop_succ, log2Mantissas_succ, log2Partial,
      show 32 - (j + 1) = 31 - j by omega]
    ring

/-- After the last pass nothing is to come. -/
theorem log2Partial_last (a : Word) :
    log2Partial a 32 = ((msb a.toNat : Int) - 32) * 2 ^ 32 + log2Loop 32 (log2Mantissa a) :=
  (add_zero _).symm.trans (log2Partial_add_log2Loop a le_rfl)

/-! ### LOG2 (R250) -/

theorem log2Raw_of_nonpos {a : Word} (ha : a.toInt ≤ 0) : log2Raw a = .error .outOfDomain := if_pos ha

/-- The exponent is at most 30 and the bits found stay below One, so LOG2 is in range. -/
theorem log2Partial_mem {a : Word} (ha : 0 < a.toInt) :
    -32 * 2 ^ 32 ≤ log2Partial a 32 ∧ log2Partial a 32 < 31 * 2 ^ 32 := by
  obtain ⟨-, -, hmsb⟩ := msb_spec ha
  obtain ⟨hlow, hhigh⟩ := log2Loop_mem 32 (log2Mantissa a)
  rw [log2Partial_last]
  omega

/-- A positive operand has a LOG2, the accumulator after the last pass. -/
theorem log2Raw_of_pos {a : Word} (ha : 0 < a.toInt) : ∃ v, log2Raw a = .ok v ∧ v.toInt = log2Partial a 32 := by
  obtain ⟨hlow, hhigh⟩ := log2Partial_mem ha
  refine ⟨BitVec.ofInt 64 (log2Partial a 32), ?_, toInt_ofInt_of_mem (by omega) (by omega)⟩
  rw [log2Raw, if_neg ha.not_ge, oneRaw_toInt, log2Partial_last]

/-- A mantissa of One has no bit set. -/
theorem log2Loop_oneRaw (n : Nat) : log2Loop n oneRaw = 0 := by
  have hbit : log2Bit oneRaw = 0 := by decide
  have hnext : log2Next oneRaw = oneRaw := by decide
  induction n with
  | zero => rfl
  | succ n ih => rw [log2Loop_succ, hbit, hnext, ih, zero_mul, zero_add]

/-- The mantissa of a power of two is One (R254 (1)). -/
theorem log2Raw_two_pow {p : Nat} (hp : p ≤ 62) :
    ∃ v, log2Raw (BitVec.ofNat 64 (2 ^ p)) = .ok v ∧ v.toInt = ((p : Int) - 32) * 2 ^ 32 := by
  have hlt : 2 ^ p < 2 ^ 63 := Nat.pow_lt_pow_right (by norm_num) (by omega)
  have hval : (BitVec.ofNat 64 (2 ^ p)).toInt = 2 ^ p := by rw [toInt_ofNat_of_lt hlt]; norm_cast
  have hpos : 0 < (BitVec.ofNat 64 (2 ^ p)).toInt := by rw [hval]; positivity
  have hmsb : msb (BitVec.ofNat 64 (2 ^ p)).toNat = p := by
    rw [BitVec.toNat_ofNat, Nat.mod_eq_of_lt (by omega), msb, Nat.log2_two_pow]
  have hmantissa : log2Mantissa (BitVec.ofNat 64 (2 ^ p)) = oneRaw := by
    apply word_ext
    rw [log2Mantissa_toInt hpos, hmsb, hval, oneRaw_toInt]
    split_ifs with h
    · exact Int.ediv_eq_of_eq_mul_left (by positivity) (by rw [← pow_add]; congr 1; omega)
    · rw [← pow_add]; congr 1; omega
  obtain ⟨v, hv, hlog⟩ := log2Raw_of_pos hpos
  exact ⟨v, hv, by rw [hlog, log2Partial_last, hmsb, hmantissa, log2Loop_oneRaw, add_zero]⟩

/-! ### LN (R251) -/

theorem ln2Raw_toInt : ln2Raw.toInt = 2977044471 := by decide

theorem lnRaw_of_ok {a l : Word} (h : log2Raw a = .ok l) : lnRaw a = .ok (mulRaw l ln2Raw) := by rw [lnRaw, h]

theorem lnRaw_of_error {a : Word} {e : CommandError} (h : log2Raw a = .error e) : lnRaw a = .error e := by rw [lnRaw, h]

/-! ### POW2's roots (R252) -/

/-- What a pass takes the root of: `z`, doubled where the fraction's bit `j` is set. -/
def pow2Radicand (f j : Nat) (z : Word) : Word := if f.testBit j then z <<< 1 else z

/-- POW2's value after the `j` lowest bits of the fraction `f`; no pass takes the default
(`sqrtRaw_pow2Radicand`). -/
def pow2Roots (f : Nat) : Nat → Word
  | 0     => oneRaw
  | j + 1 => (sqrtRaw (pow2Radicand f j (pow2Roots f j))).toOption.getD 0

/-- A value of One to 2 doubles without overflow. -/
theorem pow2Radicand_toInt (f j : Nat) {z : Word} (h₁ : 2 ^ 32 ≤ z.toInt) (h₂ : z.toInt ≤ 2 ^ 33) :
    (pow2Radicand f j z).toInt = if f.testBit j then 2 * z.toInt else z.toInt := by
  rw [pow2Radicand]
  split_ifs
  · rw [shiftLeft_toInt (by omega) (by omega), pow_one, mul_comm]
  · rfl

/-- The root of a value from One to 4 is a value from One to 2. -/
theorem IsRoundedRoot.mem_one_two {x v : Int} (h : IsRoundedRoot (x * 2 ^ 32) v) (h₁ : 2 ^ 32 ≤ x) (h₂ : x ≤ 2 ^ 34) :
    2 ^ 32 ≤ v ∧ v ≤ 2 ^ 33 :=
  ⟨(isRoundedRoot_mul_self (by norm_num)).mono h (by omega),
    h.mono (isRoundedRoot_mul_self (by norm_num)) (by omega)⟩

/-- SQRT answers for every radicand of One or more, so the next of POW2's values is its answer. -/
theorem sqrtRaw_pow2Radicand {f j : Nat} (h₁ : 2 ^ 32 ≤ (pow2Roots f j).toInt) (h₂ : (pow2Roots f j).toInt ≤ 2 ^ 33) :
    sqrtRaw (pow2Radicand f j (pow2Roots f j)) = .ok (pow2Roots f (j + 1)) := by
  have hval := pow2Radicand_toInt f j h₁ h₂
  obtain ⟨v, hv, -⟩ := sqrtRaw_ok (a := pow2Radicand f j (pow2Roots f j)) (by rw [hval]; split_ifs <;> omega)
  rw [pow2Roots, hv]
  rfl

/-- Each pass takes the rounded root of its radicand. -/
theorem pow2Roots_succ_isRoundedRoot {f j : Nat} (h₁ : 2 ^ 32 ≤ (pow2Roots f j).toInt)
    (h₂ : (pow2Roots f j).toInt ≤ 2 ^ 33) :
    IsRoundedRoot ((if f.testBit j then 2 * (pow2Roots f j).toInt else (pow2Roots f j).toInt) * 2 ^ 32)
      (pow2Roots f (j + 1)).toInt := by
  rw [← pow2Radicand_toInt f j h₁ h₂]
  exact sqrtRaw_isRoundedRoot (sqrtRaw_pow2Radicand h₁ h₂)

/-- POW2's value stays between One and 2. -/
theorem pow2Roots_mem (f j : Nat) : 2 ^ 32 ≤ (pow2Roots f j).toInt ∧ (pow2Roots f j).toInt ≤ 2 ^ 33 := by
  induction j with
  | zero => rw [pow2Roots, oneRaw_toInt]; norm_num
  | succ j ih =>
    obtain ⟨h₁, h₂⟩ := ih
    exact (pow2Roots_succ_isRoundedRoot h₁ h₂).mem_one_two (by split_ifs <;> omega) (by split_ifs <;> omega)

/-- The loop goes through these values and never raises. -/
theorem pow2Loop_pow2Roots (f n j : Nat) : pow2Loop f n j (pow2Roots f j) = .ok (pow2Roots f (j + n)) := by
  induction n generalizing j with
  | zero => rfl
  | succ n ih =>
    obtain ⟨h₁, h₂⟩ := pow2Roots_mem f j
    have hroot := sqrtRaw_pow2Radicand h₁ h₂
    rw [pow2Radicand] at hroot
    simp only [pow2Loop, hroot]
    rw [ih, Nat.add_right_comm, Nat.add_assoc]

/-- With no bit of the fraction set the value stays One. -/
theorem pow2Roots_zero (j : Nat) : pow2Roots 0 j = oneRaw := by
  induction j with
  | zero => rfl
  | succ j ih =>
    obtain ⟨h₁, h₂⟩ := pow2Roots_mem 0 j
    have hroot := pow2Roots_succ_isRoundedRoot h₁ h₂
    rw [Nat.zero_testBit, if_neg Bool.false_ne_true, ih, oneRaw_toInt] at hroot
    exact word_ext ((hroot.unique (isRoundedRoot_mul_self (by norm_num))).trans oneRaw_toInt.symm)

theorem testBit_fracPart (a : Word) {j : Nat} (hj : j < 32) : (fracPart a).testBit j = a.getLsbD j := by
  rw [fracPart, BitVec.testBit_toNat, BitVec.getLsbD_extractLsb', decide_eq_true hj, Bool.true_and, Nat.zero_add]

/-! ### POW2's shift (R252) -/

/-- From a shift by 64 on every positive value saturates, so a longer one is no different. -/
theorem shiftLeftSat_toInt {z : Word} (hz : 0 < z.toInt) (n : Nat) :
    (shiftLeftSat z n).toInt = clamp (z.toInt * 2 ^ n) := by
  rw [shiftLeftSat, satWord_toInt]
  rcases le_total n 64 with h | h
  · rw [min_eq_left h]
  · have hpow : (2 : Int) ^ 64 ≤ 2 ^ n := pow_le_pow_right₀ (by norm_num) h
    have hlong : (2 : Int) ^ 64 ≤ z.toInt * 2 ^ n := by nlinarith
    rw [min_eq_right h]
    simp only [clamp]
    omega

/-- From a shift by 64 on nothing of a nonnegative value is left, so a longer one is no different. -/
theorem shiftRightTrunc_toInt {z : Word} (hz : 0 ≤ z.toInt) (n : Nat) :
    (shiftRightTrunc z n).toInt = z.toInt / 2 ^ n := by
  rw [shiftRightTrunc, sshiftRight_toInt]
  rcases le_total n 64 with h | h
  · rw [min_eq_left h]
  · have hrange := toInt_range z
    have hpow : (2 : Int) ^ 64 ≤ 2 ^ n := pow_le_pow_right₀ (by norm_num) h
    rw [min_eq_right h, Int.ediv_eq_zero_of_lt hz (by omega), Int.ediv_eq_zero_of_lt hz (by omega)]

/-! ### POW2 (R252) -/

/-- POW2 always has a result: the last root, shifted by the integer part. -/
theorem pow2Raw_ok (a : Word) :
    ∃ v, pow2Raw a = .ok v ∧
      (0 ≤ a.toInt / 2 ^ 32 →
        v.toInt = clamp ((pow2Roots (fracPart a) 32).toInt * 2 ^ (a.toInt / 2 ^ 32).toNat)) ∧
      (a.toInt / 2 ^ 32 < 0 →
        v.toInt = (pow2Roots (fracPart a) 32).toInt / 2 ^ (-(a.toInt / 2 ^ 32)).toNat) := by
  have hloop : pow2Loop (fracPart a) 32 0 oneRaw = .ok (pow2Roots (fracPart a) 32) :=
    pow2Loop_pow2Roots (fracPart a) 32 0
  obtain ⟨hlow, -⟩ := pow2Roots_mem (fracPart a) 32
  refine ⟨_, by simp only [pow2Raw, hloop]; rfl, fun hn => ?_, fun hn => ?_⟩
  · rw [intPart_eq, if_pos hn, shiftLeftSat_toInt (by omega)]
  · rw [intPart_eq, if_neg hn.not_ge, shiftRightTrunc_toInt (by omega)]

/-- The root of an integer exponent is One, and the shift moves One to the power of two (R252, corner cases). -/
theorem pow2Raw_integer {p : Nat} (hp : p ≤ 62) :
    ∃ v, pow2Raw (BitVec.ofInt 64 (((p : Int) - 32) * 2 ^ 32)) = .ok v ∧ v.toInt = 2 ^ p := by
  have hval : (BitVec.ofInt 64 (((p : Int) - 32) * 2 ^ 32)).toInt = ((p : Int) - 32) * 2 ^ 32 :=
    toInt_ofInt_of_mem (by omega) (by omega)
  have hfrac : fracPart (BitVec.ofInt 64 (((p : Int) - 32) * 2 ^ 32)) = 0 := by
    have := fracPart_eq (BitVec.ofInt 64 (((p : Int) - 32) * 2 ^ 32))
    omega
  have hint : ((p : Int) - 32) * 2 ^ 32 / 2 ^ 32 = p - 32 := Int.mul_ediv_cancel _ (by norm_num)
  obtain ⟨v, hv, hleft, hright⟩ := pow2Raw_ok (BitVec.ofInt 64 (((p : Int) - 32) * 2 ^ 32))
  rw [hval, hint, hfrac, pow2Roots_zero, oneRaw_toInt] at hleft hright
  refine ⟨v, hv, ?_⟩
  rcases le_or_gt 32 p with h | h
  · have hpow : (2 : Int) ^ 32 * 2 ^ ((p : Int) - 32).toNat = 2 ^ p := by rw [← pow_add]; congr 1; omega
    have hle : (2 : Int) ^ p ≤ 2 ^ 62 := pow_le_pow_right₀ (by norm_num) hp
    have hpos : (0 : Int) < 2 ^ p := by positivity
    rw [hleft (by omega), hpow, clamp_of_mem (by omega) (by omega)]
  · rw [hright (by omega)]
    exact Int.ediv_eq_of_eq_mul_left (by positivity) (by rw [← pow_add]; congr 1; omega)

/-! ### POW (R253) -/

theorem powRaw_zero (bs : Word) : powRaw bs 0 = .ok oneRaw := rfl

theorem powRaw_of_neg {bs e : Word} (he : e ≠ 0) (hbs : bs.toInt < 0) : powRaw bs e = .error .outOfDomain := by
  rw [powRaw, if_neg (toInt_ne_zero he), if_pos hbs]

theorem powRaw_zero_base {e : Word} (he : e ≠ 0) :
    powRaw 0 e = if e.toInt < 0 then .error .divByZero else .ok 0 := by
  have hbase : (0 : Word).toInt = 0 := rfl
  rw [powRaw, if_neg (toInt_ne_zero he), if_neg hbase.not_lt, if_pos hbase]
  rfl

theorem powRaw_of_pos {bs e l : Word} (he : e ≠ 0) (hbs : 0 < bs.toInt) (hl : log2Raw bs = .ok l) :
    powRaw bs e = pow2Raw (mulRaw e l) := by
  rw [powRaw, if_neg (toInt_ne_zero he), if_neg hbs.not_gt, if_neg hbs.ne', hl]

/-! ### The statements -/

/-- Settles O47: the mantissas and the accumulator after each pass are the two sequences. -/
theorem log2ExtractsBitsBySquaring : Obligations.Log2ExtractsBitsBySquaring := by
  unfold Obligations.Log2ExtractsBitsBySquaring
  refine ⟨decode_encode .log2, ?_⟩
  intro s w a b hpend
  have hexec := exec_eq_finish_unary exec_log2 hpend
  refine ⟨fun ha => ?nonpos, fun ha => ?pos⟩
  case nonpos => rw [hexec, log2Raw_of_nonpos ha, finish_error, code_outOfDomain]
  case pos =>
    obtain ⟨v, hv, hval⟩ := log2Raw_of_pos ha
    obtain ⟨hlow, hhigh, -⟩ := msb_spec ha
    refine ⟨v, msb a.toNat, fun j => (log2Mantissas a j).toInt, log2Partial a, ?_, hlow, hhigh, rfl,
      log2Mantissa_toInt ha, fun j _ => ⟨log2Pass_succ_of_ge, log2Pass_succ_of_lt⟩, hval, ?_⟩
    · rw [hexec, hv, finish_ok]
    · rw [hval]; exact log2Partial_mem ha

/-- Settles O48: LOG2's own two cases are LN's. -/
theorem lnIsLog2TimesLn2 : Obligations.LnIsLog2TimesLn2 := by
  unfold Obligations.LnIsLog2TimesLn2
  refine ⟨decode_encode .ln, ?_⟩
  intro s w a b hpend
  have hlog := exec_eq_finish_unary exec_log2 hpend
  have hln := exec_eq_finish_unary exec_ln hpend
  refine ⟨fun ha => ?nonpos, fun ha => ?pos⟩
  case nonpos => rw [hln, lnRaw_of_error (log2Raw_of_nonpos ha), finish_error, code_outOfDomain]
  case pos =>
    obtain ⟨l, hl, -⟩ := log2Raw_of_pos ha
    refine ⟨l, mulRaw l ln2Raw, by rw [hlog, hl, finish_ok], by rw [hln, lnRaw_of_ok hl, finish_ok], ?_⟩
    rw [mulRaw_toInt, ln2Raw_toInt]

/-- Settles O49: the values of the loop are the sequence. -/
theorem pow2BuildsByRootsAndShifts : Obligations.Pow2BuildsByRootsAndShifts := by
  unfold Obligations.Pow2BuildsByRootsAndShifts
  refine ⟨decode_encode .pow2, ?_⟩
  intro s w a b hpend
  obtain ⟨v, hv, hleft, hright⟩ := pow2Raw_ok a
  refine ⟨v, fun j => (pow2Roots (fracPart a) j).toInt, ?_, oneRaw_toInt, fun j hj => ⟨?_, pow2Roots_mem _ _⟩, hleft,
    hright⟩
  · rw [exec_eq_finish_unary exec_pow2 hpend, hv, finish_ok]
  · obtain ⟨h₁, h₂⟩ := pow2Roots_mem (fracPart a) j
    rw [← testBit_fracPart a hj]
    exact pow2Roots_succ_isRoundedRoot h₁ h₂

/-- Settles O50: each of the rule's cases in its order; a positive base has a LOG2, and POW2 always answers. -/
theorem powFollowsItsCases : Obligations.PowFollowsItsCases := by
  unfold Obligations.PowFollowsItsCases
  refine ⟨decode_encode .pow, ?_⟩
  intro s w bs e hpend
  have hexec := exec_eq_finish_binary exec_pow hpend
  refine ⟨?zeroExponent, ?negativeBase, ?zeroBaseNegative, ?zeroBasePositive, ?positiveBase⟩
  case zeroExponent => rintro rfl; rw [hexec, powRaw_zero, finish_ok]
  case negativeBase =>
    rintro ⟨he, hbs⟩
    rw [hexec, powRaw_of_neg he hbs, finish_error, code_outOfDomain]
  case zeroBaseNegative =>
    rintro ⟨rfl, he⟩
    have hne : e ≠ 0 := fun h => he.ne (h ▸ BitVec.toInt_zero)
    rw [hexec, powRaw_zero_base hne, if_pos he, finish_error, code_divByZero]
  case zeroBasePositive =>
    rintro ⟨rfl, he⟩
    have hne : e ≠ 0 := fun h => he.ne' (h ▸ BitVec.toInt_zero)
    rw [hexec, powRaw_zero_base hne, if_neg he.not_gt, finish_ok]
  case positiveBase =>
    rintro ⟨he, hbs⟩
    obtain ⟨l, hl, -⟩ := log2Raw_of_pos hbs
    obtain ⟨v, hv, -⟩ := pow2Raw_ok (mulRaw e l)
    refine ⟨l, mulRaw e l, v, ?_, mulRaw_toInt e l, ?_, ?_⟩
    · rw [exec_eq_finish_unary exec_log2 hpend, hl, finish_ok]
    · rw [hexec, powRaw_of_pos he hbs hl, exec_eq_finish_unary (s := { s with pend := _ }) exec_pow2 rfl]
      exact (finish_with_pend s _ _).symm
    · rw [hexec, powRaw_of_pos he hbs hl, hv, finish_ok]

/-- Settles O51: a power of two has the mantissa One and an integer LOG2, of which the roots of POW2 are all One. -/
theorem logAndPowExactValues : Obligations.LogAndPowExactValues := by
  unfold Obligations.LogAndPowExactValues
  exact ⟨fun _ hp => log2Raw_two_pow hp, fun _ hp => pow2Raw_integer hp, powRaw_zero⟩

end Sys2Proof.Machine
end

section
/-!
PROOFS. The statement about the errors of commands (60_exceptions.md, R271 to R275). A command ends with the outcome of
its operation rule, and STATUS.ERR then holds that outcome's code, `errCode` (`exec_err_of_finish`,
`exec_err_of_finishCached`); what is left is the code of each operation rule as a condition on its operands.
-/

namespace Sys2Proof.Machine

/-! ### The code that an outcome leaves in STATUS.ERR (R45, R271, R272) -/

/-- The code in STATUS.ERR after a command with this outcome: 0 for a result, else the error's own (R271). -/
def errCode {α : Type} : Except CommandError α → BitVec 3
  | .ok _    => 0#3
  | .error e => e.code

@[simp] theorem errCode_ok {α : Type} (v : α) : errCode (.ok v) = 0#3 := rfl

@[simp] theorem errCode_error {α : Type} (e : CommandError) : errCode (.error e : Except CommandError α) = e.code := rfl

section
variable {s : State} {i : Instr} {code : BitVec 3}

theorem exec_err_of_finish {r : Except CommandError Word} (hexec : exec i s = finish s r) (hcode : errCode r = code) :
    ∃ t, exec i s = .next t ∧ t.err = code := by
  rw [hexec, ← hcode]
  cases r with
  | ok v => exact ⟨_, finish_ok s v, rfl⟩
  | error e => exact ⟨_, finish_error s e, rfl⟩

theorem exec_err_of_finishCached {r : Except CommandError (Word × Cache)} (hexec : exec i s = finishCached s r)
    (hcode : errCode r = code) : ∃ t, exec i s = .next t ∧ t.err = code := by
  rw [hexec, ← hcode]
  rcases r with e | ⟨v, c⟩
  · exact ⟨_, finishCached_error s e, rfl⟩
  · exact ⟨_, finishCached_ok s v c, rfl⟩

end

/-! ### The operand conditions of the operation rules (R273) -/

/-- An operand check that raises, and a result otherwise. -/
theorem errCode_guard {α : Type} (p : Prop) [Decidable p] (e : CommandError) (v : α) :
    errCode (if p then .error e else .ok v) = if p then e.code else 0#3 := by
  split_ifs <;> rfl

theorem errCode_divRaw (a b : Word) : errCode (divRaw a b) = if b = 0 then 1#3 else 0#3 := errCode_guard _ _ _

theorem errCode_modRaw (a b : Word) : errCode (modRaw a b) = if b = 0 then 1#3 else 0#3 := errCode_guard _ _ _

theorem errCode_sqrtRaw (a : Word) : errCode (sqrtRaw a) = if a.toInt < 0 then 2#3 else 0#3 := errCode_guard _ _ _

/-- TAN raises what its DIV by COS raises (R211, R274). -/
theorem errCode_tanRaw (cfg : Config) (a : Word) : errCode (tanRaw cfg a) = if cosRaw cfg a = 0 then 1#3 else 0#3 :=
  errCode_divRaw _ _

theorem errCode_log2Raw (a : Word) : errCode (log2Raw a) = if a.toInt ≤ 0 then 3#3 else 0#3 := errCode_guard _ _ _

/-- LN raises what its LOG2 raises (R251, R274). -/
theorem errCode_lnRaw (a : Word) : errCode (lnRaw a) = if a.toInt ≤ 0 then 3#3 else 0#3 := by
  rw [← errCode_log2Raw]
  cases h : log2Raw a with
  | ok l => rw [lnRaw_of_ok h, errCode_ok, errCode_ok]
  | error e => rw [lnRaw_of_error h, errCode_error]

theorem errCode_pow2Raw (a : Word) : errCode (pow2Raw a) = 0#3 := by
  obtain ⟨v, hv, -⟩ := pow2Raw_ok a
  rw [hv, errCode_ok]

/-- POW raises in two of the cases of R253; in the last one neither its LOG2 nor its POW2 does. -/
theorem errCode_powRaw (bs e : Word) :
    errCode (powRaw bs e) = if e ≠ 0 ∧ bs.toInt < 0 then 3#3 else if e.toInt < 0 ∧ bs = 0 then 1#3 else 0#3 := by
  have hzero : (0 : Word).toInt = 0 := rfl
  by_cases he : e = 0
  · subst he
    rw [powRaw_zero, errCode_ok]
    simp
  rcases lt_trichotomy bs.toInt 0 with hneg | hbs | hpos
  · rw [powRaw_of_neg he hneg, if_pos ⟨he, hneg⟩, errCode_error, code_outOfDomain]
  · obtain rfl : bs = 0 := word_ext (hbs.trans hzero.symm)
    rw [powRaw_zero_base he, errCode_guard]
    simp
  · have hne : bs ≠ 0 := fun h => hpos.ne' (h ▸ hzero)
    obtain ⟨l, hl, -⟩ := log2Raw_of_pos hpos
    rw [powRaw_of_pos he hpos hl, errCode_pow2Raw, if_neg fun h => hpos.not_gt h.2, if_neg fun h => hne h.2]

/-- ATAN2_VALUE raises at (0, 0) only (R234). -/
theorem errCode_atan2Value (y x : Word) : errCode (atan2Value y x) = if y = 0 ∧ x = 0 then 1#3 else 0#3 := by
  split_ifs with hzero
  · rw [hzero.1, hzero.2, atan2Value_zero_zero, errCode_error, code_divByZero]
  · obtain ⟨v, hv, -⟩ := atan2Value_of_ne_zero (not_and_or.1 hzero)
    rw [hv, errCode_ok]

/-- With a sound cache ATAN2 raises as ATAN2_VALUE does (R42). -/
theorem errCode_atan2Cached (cfg : Config) {c : Cache} (hsound : CacheSound c) (y x : Word) :
    errCode (atan2Cached cfg c y x) = if y = 0 ∧ x = 0 then 1#3 else 0#3 := by
  rw [← errCode_atan2Value]
  rcases atan2Cached_of_sound cfg hsound y x with ⟨v, c', hv, hr⟩ | ⟨e, he, hr⟩
  · rw [hr, hv, errCode_ok, errCode_ok]
  · rw [hr, he, errCode_error, errCode_error]

section
variable (cfg : Config) (c : Cache) (a : Word)

theorem errCode_atanCached : errCode (atanCached cfg c a) = 0#3 := by
  obtain ⟨v, c', hv⟩ := atanCached_ok cfg c a
  rw [hv, errCode_ok]

/-- ASIN raises outside [-One, One] where the policy says so (R245). -/
theorem errCode_asinCached :
    errCode (asinCached cfg c a) =
      if (2 ^ 32 < a.toInt ∨ a.toInt < -2 ^ 32) ∧ cfg.asinPolicy = .raise then 3#3 else 0#3 := by
  by_cases hout : 2 ^ 32 < a.toInt ∨ a.toInt < -2 ^ 32
  · cases hpolicy : cfg.asinPolicy with
    | zero => rw [asinCached_of_outside_of_zero cfg c hout hpolicy, errCode_ok, if_neg (by simp)]
    | raise =>
      rw [asinCached_of_outside_of_raise cfg c hout hpolicy, errCode_error, if_pos ⟨hout, rfl⟩, code_outOfDomain]
  · obtain ⟨v, c', hv⟩ := asinCached_ok cfg c (a := a) (by omega) (by omega)
    rw [hv, errCode_ok, if_neg fun h => hout h.1]

/-- ACOS raises outside [-One, One] under either policy (R246). -/
theorem errCode_acosCached :
    errCode (acosCached cfg c a) = if 2 ^ 32 < a.toInt ∨ a.toInt < -2 ^ 32 then 3#3 else 0#3 := by
  split_ifs with hout
  · rw [acosCached_of_outside cfg c hout, errCode_error, code_outOfDomain]
  · obtain ⟨v, c', hv⟩ := asinCached_ok cfg c (a := a) (by omega) (by omega)
    rw [acosCached_of_ok (by omega) (by omega) hv, errCode_ok]

end

/-- Settles O14: each command that can raise by the condition of its operation rule; the others end with a result, and a
word that does not decode with ILLEGAL_OPCODE. -/
theorem commandsRaiseExactlyTheListedErrors : Obligations.CommandsRaiseExactlyTheListedErrors := by
  unfold Obligations.CommandsRaiseExactlyTheListedErrors
  intro s w a b hpend hsound
  refine ⟨fun i => ?_, fun e he => ⟨_, completion_of_decode_error he s, rfl⟩⟩
  cases i
  case div => exact exec_err_of_finish (exec_eq_finish_binary exec_div hpend) (errCode_divRaw a b)
  case mod => exact exec_err_of_finish (exec_eq_finish_binary exec_mod hpend) (errCode_modRaw a b)
  case sqrt => exact exec_err_of_finish (exec_eq_finish_unary exec_sqrt hpend) (errCode_sqrtRaw a)
  case tan => exact exec_err_of_finish (exec_eq_finish_config exec_tan hpend) (errCode_tanRaw s.cfg a)
  case log2 => exact exec_err_of_finish (exec_eq_finish_unary exec_log2 hpend) (errCode_log2Raw a)
  case ln => exact exec_err_of_finish (exec_eq_finish_unary exec_ln hpend) (errCode_lnRaw a)
  case pow2 => exact exec_err_of_finish (exec_eq_finish_unary exec_pow2 hpend) (errCode_pow2Raw a)
  case pow => exact exec_err_of_finish (exec_eq_finish_binary exec_pow hpend) (errCode_powRaw a b)
  case atan2 =>
    exact exec_err_of_finishCached (exec_atan2_eq_finishCached hpend) (errCode_atan2Cached s.cfg hsound a b)
  case atan =>
    exact exec_err_of_finishCached (exec_eq_finishCached_unary exec_atan hpend) (errCode_atanCached s.cfg s.cache a)
  case asin =>
    exact exec_err_of_finishCached (exec_eq_finishCached_unary exec_asin hpend) (errCode_asinCached s.cfg s.cache a)
  case acos =>
    exact exec_err_of_finishCached (exec_eq_finishCached_unary exec_acos hpend) (errCode_acosCached s.cfg s.cache a)
  all_goals exact exec_err_of_finish rfl (errCode_ok _)

end Sys2Proof.Machine
end

section
/-!
PROOFS. The statements about reset and hazards (70_reset_and_hazards.md, R290 to R304): what the reset event leaves, what
the first access after a CMD write finds, and when a command whose first access has come completes.
-/

namespace Sys2Proof.Machine

/-! ### What the completion step leaves (R45) -/

/-- The completion step ends the command and touches neither the operands nor the port. -/
theorem completion_frame {s t : State} {w : Word} (h : completion s w = .next t) :
    t.busy = false ∧ t.opa = s.opa ∧ t.opb = s.opb ∧ t.inbox = s.inbox := by
  rcases completion_cases s w with ⟨i, -, hc⟩ | ⟨e, -, hc⟩
  · rcases exec_cases i s with ⟨v, hv⟩ | ⟨v, y, x, u, -, -, -, hv⟩ | ⟨e, -, hv⟩
    all_goals
      obtain rfl := Host.Outcome.next.inj ((hc.trans hv).symm.trans h)
      exact ⟨rfl, rfl, rfl, rfl⟩
  · obtain rfl := Host.Outcome.next.inj (hc.symm.trans h)
    exact ⟨rfl, rfl, rfl, rfl⟩

/-! ### Reset (R290, R291, R294) -/

/-- Settles O7: the empty cache has no valid slot, and every register reads as 0. -/
theorem resetStateHoldsTheRuledValues : Obligations.ResetStateHoldsTheRuledValues := by
  unfold Obligations.ResetStateHoldsTheRuledValues
  have hcache : ∀ i, (cacheRead State.reset.cache i).valid = false := fun _ => rfl
  have hread : ∀ r, readReg State.reset r = 0 := fun r => by cases r <;> rfl
  have hlen : lutLen State.reset.cfg = 6746518852 := by decide
  exact ⟨rfl, rfl, rfl, rfl, rfl, rfl, hcache, hread, rfl, hlen, rfl, rfl, rfl⟩

/-- The reset event leaves the reset values under the configuration it found. -/
theorem isResetOf_resetEvent {s u : State} (hcfg : u.cfg = s.cfg) : IsResetOf s (resetEvent u) := by
  have hcache : ∀ i, (cacheRead (resetEvent u).cache i).valid = false := fun _ => rfl
  have hsine : ∀ i, sineEntry (resetEvent u).cfg i = sineEntry s.cfg i := fun i => by rw [resetEvent_cfg, hcfg]
  exact ⟨rfl, rfl, rfl, rfl, rfl, statusWord_eq_ofNat (resetEvent u), rfl, rfl, rfl, hcache, hcfg, hsine⟩

/-- A reset event at an open port takes effect in the next step. -/
theorem step_reset {s : State} {rest : List Input} (hopen : portOpen s) (h : s.inbox = .reset :: rest) :
    step s = .next (resetEvent (cycled s rest)) := step_of_input hopen h

/-- Settles O6: at an open port the step is the reset; a completion that is due runs first and leaves the port open, with
the reset event still at it. -/
theorem resetEventSetsTheResetState : Obligations.ResetEventSetsTheResetState := by
  unfold Obligations.ResetEventSetsTheResetState
  intro s rest hinbox
  refine ⟨fun hopen => ⟨_, step_reset hopen hinbox, isResetOf_resetEvent rfl⟩, ?_⟩
  intro p hbusy hpend haccessed hwait
  have hstep : step s = completion s p.w := step_of_due hbusy hpend ((due_iff s).2 ⟨haccessed, hwait⟩)
  obtain ⟨u, hu⟩ := completion_eq_next s p.w
  obtain ⟨hidle, -, -, hkept⟩ := completion_frame hu
  have hcfg : u.cfg = s.cfg := step_cfg (hstep.trans hu)
  exact ⟨u, _, hstep.trans hu, hu, step_reset (.inl hidle) (hkept.trans hinbox), isResetOf_resetEvent hcfg⟩

/-! ### Runs of a silent host (R286, R300) -/

/-- A state that a step leaves as it is, a run of any length leaves as it is. -/
theorem run_of_step_self {s : State} (h : step s = .next s) (n : Nat) : Host.Core.run Sys2Proof.core n s = .next s := by
  induction n with
  | zero => rfl
  | succ n ih => exact (run_succ n h).trans ih

section
variable {s : State} {p : Pending} (hbusy : s.busy = true) (hpend : s.pend = some p)
include hbusy hpend

theorem step_of_not_due (hdue : due s = false) : step s = latencyCycle s := by
  simp [step, coreStep, inFlight_of_busy hbusy, hpend, hdue]

/-- Before its first access comes, a command in flight stays as it is. -/
theorem step_of_not_accessed_of_silent (haccessed : s.accessed = false) (hsilent : s.inbox = []) :
    step s = .next s := by
  rw [step_of_not_due hbusy hpend (by simp [due, haccessed]), latencyCycle, if_pos ⟨haccessed, hsilent⟩]

/-- After its first access a command in flight passes a cycle of its latency without a further one. -/
theorem step_of_accessed_of_silent {n : Nat} (haccessed : s.accessed = true) (hsilent : s.inbox = [])
    (hwait : s.wait = n + 1) : step s = .next { s with wait := n } := by
  rw [step_of_not_due hbusy hpend (by simp [due, hwait]), latencyCycle, if_neg (by simp [haccessed]),
    serve_nil (s := { s with wait := s.wait - 1, accessed := true }) hsilent, hwait, Nat.add_sub_cancel, ← haccessed]

end

/-- A command in flight whose first access has come completes in the step after the last cycle of its latency. -/
theorem run_completes (n : Nat) {s : State} {p : Pending} (hbusy : s.busy = true) (hpend : s.pend = some p)
    (haccessed : s.accessed = true) (hsilent : s.inbox = []) (hwait : s.wait = n) :
    Host.Core.run Sys2Proof.core (n + 1) s = completion { s with wait := 0 } p.w := by
  induction n generalizing s with
  | zero =>
    have hstep : step s = completion { s with wait := 0 } p.w := by
      rw [step_of_due hbusy hpend ((due_iff s).2 ⟨haccessed, hwait⟩), ← hwait]
    obtain ⟨t, ht⟩ := completion_eq_next { s with wait := 0 } p.w
    exact (run_succ 0 (hstep.trans ht)).trans ht.symm
  | succ n ih =>
    have hstep := step_of_accessed_of_silent hbusy hpend haccessed hsilent hwait
    exact (run_succ (n + 1) hstep).trans (ih (s := { s with wait := n }) hbusy hpend haccessed hsilent rfl)

/-- Settles O54, by induction on the cycles left; the completion step then clears BUSY and leaves the operands. -/
theorem commandsCompleteAfterTheirLatency : Obligations.CommandsCompleteAfterTheirLatency := by
  unfold Obligations.CommandsCompleteAfterTheirLatency
  intro s p hbusy hpend haccessed hsilent
  obtain ⟨t, ht⟩ := completion_eq_next { s with wait := 0 } p.w
  obtain ⟨hidle, hopa, hopb, -⟩ := completion_frame ht
  exact ⟨t, (run_completes s.wait hbusy hpend haccessed hsilent rfl).trans ht, hidle, hopa, hopb, ht⟩

/-! ### The first access after a CMD write (R300 to R302) -/

/-- A legal access is an 8-byte read or write of a register (R65, R66, R77). -/
theorem exists_regAt_of_wf {j : Input} (hwf : j.wf = true) (hreset : j ≠ .reset) :
    ∃ off r, regAt off = some r ∧ (j = .read off 8 ∨ ∃ v, j = .write off 8 v) := by
  cases j with
  | read off width =>
    simp only [Input.wf, Bool.and_eq_true, beq_iff_eq, decide_eq_true_eq] at hwf
    obtain ⟨⟨rfl, halign⟩, hlt⟩ := hwf
    obtain ⟨r, hr⟩ := exists_regAt_iff.2 ⟨halign, hlt⟩
    exact ⟨off, r, hr, .inl rfl⟩
  | write off width v =>
    simp only [Input.wf, Bool.and_eq_true, beq_iff_eq, decide_eq_true_eq] at hwf
    obtain ⟨⟨rfl, halign⟩, hlt⟩ := hwf
    obtain ⟨r, hr⟩ := exists_regAt_iff.2 ⟨halign, hlt⟩
    exact ⟨off, r, hr, .inr ⟨v, rfl⟩⟩
  | atomic => cases hwf
  | reset => exact absurd rfl hreset

/-- While busy a legal access at an open port changes nothing but the cycle that it passes and the bus's answer, which is
the register's value for a read (R63, R64). -/
theorem step_access_of_busy {s : State} {j : Input} {rest : List Input} (hbusy : s.busy = true) (hopen : portOpen s)
    (h : s.inbox = j :: rest) (hwf : j.wf = true) (hreset : j ≠ .reset) :
    ∃ a, step s = .next (answer (cycled s rest) a) ∧
      ∀ off r, regAt off = some r → j = .read off 8 → a = .data (readReg s r) := by
  obtain ⟨off, r, hr, rfl | ⟨v, rfl⟩⟩ := exists_regAt_of_wf hwf hreset
  · refine ⟨_, step_read hr hopen h, fun off' r' hr' hj => ?_⟩
    obtain rfl : off = off' := (Input.read.inj hj).1
    obtain rfl : r = r' := Option.some.inj (hr.symm.trans hr')
    rfl
  · refine ⟨.done, ?_, fun _ _ _ hj => by cases hj⟩
    rw [step_write hr hopen h, writeReg_of_busy ((cycled_busy s rest).trans hbusy)]

/-- The state after the CMD write of the word `w` by an idle host, with the inputs `later` still to come (R62). -/
def issuedState (s : State) (w : Word) (later : List Input) : State :=
  answer (acceptCommand { s with inbox := later } w) .done

theorem step_cmd_write {s : State} {w : Word} {later : List Input} (hidle : s.busy = false)
    (h : s.inbox = .write 0x10 8 w :: later) : step s = .next (issuedState s w later) :=
  step_write_of_idle (r := .cmd) rfl hidle (writeReg_cmd (s := { s with inbox := later }) hidle w) h

/-- Settles O53: the state after the CMD write is not due before an access comes, so that with none it stays, and the
first one is served in it: BUSY reads as 1, and RES and ERR as they were. -/
theorem firstAccessAfterCmdSeesBusy : Obligations.FirstAccessAfterCmdSeesBusy := by
  unfold Obligations.FirstAccessAfterCmdSeesBusy
  intro s w later hidle hinbox
  refine ⟨issuedState s w later, step_cmd_write hidle hinbox, rfl, rfl, fun hlater n => ?silent, ?first⟩
  case silent => exact run_of_step_self (step_of_not_accessed_of_silent rfl rfl rfl hlater) n
  case first =>
    intro j rest hwf hreset
    obtain ⟨a, hstep, hread⟩ :=
      step_access_of_busy (s := { issuedState s w later with inbox := j :: rest }) rfl (.inr (.inr rfl)) rfl hwf hreset
    refine ⟨_, hstep, rfl, rfl, rfl, rfl, rfl, rfl, rfl, rfl, fun hj => ?status, fun hj => ?res⟩
    case status =>
      rw [answer_replies, hread 0x20 .status rfl hj, readReg, statusWord_eq_ofNat]
      rfl
    case res =>
      rw [answer_replies, hread 0x18 .res rfl hj]
      rfl

end Sys2Proof.Machine
end
